-- ==== Sys2Proof/Word.lean ====
section
/-! DEFINITION. The machine's words: bytes, 32-bit words, 64-bit command and response words, the bit buffer's cells. -/

namespace Sys2Proof

/-- A byte of the bit buffer, an opcode byte or a small operand (00_scope.md R11: `u8`). -/
abbrev Byte := BitVec 8

/-- A `u32` (00_scope.md R11): shifts are logical, sums and differences are modulo 2^32. -/
abbrev Word := BitVec 32

/-- A command word or a response word, 64 bits (30_encoding.md R92, R93). -/
abbrev Word64 := BitVec 64

/-- The bit buffer BUF as the host sees it: bytes by byte address (20_memory.md R65), addresses strictly
rising. An address that is not listed has not been written by the host (notes/assumptions/1.md). -/
abbrev Memory := List Host.Cell

end Sys2Proof
end

