-- ==== Sys2Proof/Syntax.lean ====
section
/-! DEFINITION. The twenty commands as one inductive, and the three ways a command word is illegal. -/

namespace Sys2Proof

/-- The registers RDREG names (10_state.md R43). -/
inductive Reg where
  | status
  | lastErr
  | bitOffset
  | maxBitOffset
  | range
  | value
  | unitCfg
  | outCbf
  | outNLevels
  | outSigLo
  | outSigHi
  | outLevel (j : Fin 64)
deriving DecidableEq, Repr

/-- The block categories 0 to 5 of 43_residual_block.md R221, in the order of their numbers. -/
inductive BlockCat where
  | lumaDC16
  | lumaAC16
  | luma4x4
  | chromaDC
  | chromaAC
  | luma8x8
deriving DecidableEq, Repr

/-- The commands of spec/opcode_table.json, one constructor per row, operands as 30_encoding.md R94 lists them. -/
inductive Instr where
  | nop
  | reset
  | rdreg (reg : Reg)
  | bcOpen (max : Word)
  | bcRdbit
  | bcRdbits (n : Byte)
  | bcPeek (n : Byte)
  | bcFlush (n : Word)
  | bcAligned
  | bcMore
  | ctInit (unitClass initParam quantParam : Byte) (aux : Bool)
  | ctGet (idx : BitVec 16)
  | adInit
  | adBin (idx : BitVec 16)
  | adTerm
  | adByp
  | adBypn (n : Byte)
  | adBypu (max : Byte)
  | adRealign
  | rbDecode (cat : BlockCat) (left top fld inferred : Bool)
deriving DecidableEq, Repr

/-- Why a command word is no command: the three information bytes of IllegalCommand
(30_encoding.md R96, R97, R98). -/
inductive DecodeError where
  | undefinedOp
  | reservedNonzero
  | operandRange
deriving DecidableEq, Repr

end Sys2Proof
end

