-- ==== Sys2Proof/WellFormed.lean ====
section
/-! DEFINITION. Which terms of Instr are commands: the encoded operand ranges of 30_encoding.md R98. Category and
register number are typed, so only the three bit counts can be out of range. -/

namespace Sys2Proof

/-- 30_encoding.md R98: the bit count of BC.RDBITS, BC.PEEK and AD.BYPN is at most 32. -/
def Instr.wellFormed : Instr → Bool
  | .nop => true
  | .reset => true
  | .rdreg _ => true
  | .bcOpen _ => true
  | .bcRdbit => true
  | .bcRdbits n => n.toNat ≤ 32
  | .bcPeek n => n.toNat ≤ 32
  | .bcFlush _ => true
  | .bcAligned => true
  | .bcMore => true
  | .ctInit _ _ _ _ => true
  | .ctGet _ => true
  | .adInit => true
  | .adBin _ => true
  | .adTerm => true
  | .adByp => true
  | .adBypn n => n.toNat ≤ 32
  | .adBypu _ => true
  | .adRealign => true
  | .rbDecode _ _ _ _ _ => true

end Sys2Proof
end

