-- ==== Sys2Proof/Decode.lean ====
section
/-! DEFINITION. From a command word to a command (30_encoding.md R92 to R99), and back. -/

namespace Sys2Proof

/-- Format C, field `op` (30_encoding.md R92). -/
def opField (w : Word64) : Byte := w.extractLsb' 56 8

/-- Format C, field `a`. -/
def aField (w : Word64) : Byte := w.extractLsb' 48 8

/-- Format C, field `b`. -/
def bField (w : Word64) : Byte := w.extractLsb' 40 8

/-- Format C, field `c`. -/
def cField (w : Word64) : Byte := w.extractLsb' 32 8

/-- Format C, field `imm`. -/
def immField (w : Word64) : Word := w.extractLsb' 0 32

/-- Format C: `op << 56 | a << 48 | b << 40 | c << 32 | imm` (30_encoding.md R92, R102). -/
def formatC (op a b c : Byte) (imm : Word) : Word64 := op ++ a ++ b ++ c ++ imm

/-- The register numbers of 10_state.md R43. -/
def regNumber : Reg → BitVec 16
  | .status => 0x0000
  | .lastErr => 0x0001
  | .bitOffset => 0x0002
  | .maxBitOffset => 0x0003
  | .range => 0x0004
  | .value => 0x0005
  | .unitCfg => 0x0006
  | .outCbf => 0x0007
  | .outNLevels => 0x0008
  | .outSigLo => 0x0009
  | .outSigHi => 0x000A
  | .outLevel j => BitVec.ofNat 16 (0x40 + j.val)

/-- The register with a number, none for a number that 10_state.md R43 does not list. -/
def regOfNumber (n : BitVec 16) : Option Reg :=
  match n.toNat with
  | 0x00 => some .status
  | 0x01 => some .lastErr
  | 0x02 => some .bitOffset
  | 0x03 => some .maxBitOffset
  | 0x04 => some .range
  | 0x05 => some .value
  | 0x06 => some .unitCfg
  | 0x07 => some .outCbf
  | 0x08 => some .outNLevels
  | 0x09 => some .outSigLo
  | 0x0A => some .outSigHi
  | k => if h : 0x40 ≤ k ∧ k ≤ 0x7F then some (.outLevel ⟨k - 0x40, by omega⟩) else none

/-- The numbers of the block categories (43_residual_block.md R221). -/
def catNumber : BlockCat → Byte
  | .lumaDC16 => 0
  | .lumaAC16 => 1
  | .luma4x4 => 2
  | .chromaDC => 3
  | .chromaAC => 4
  | .luma8x8 => 5

/-- The block category with a number, none above 5 (30_encoding.md R98). -/
def catOfNumber (n : Byte) : Option BlockCat :=
  match n.toNat with
  | 0 => some .lumaDC16
  | 1 => some .lumaAC16
  | 2 => some .luma4x4
  | 3 => some .chromaDC
  | 4 => some .chromaAC
  | 5 => some .luma8x8
  | _ => none

/-- A bit count of 0 to 32 (30_encoding.md R98). -/
def bitCount (n : Byte) : Option Byte := if n.toNat ≤ 32 then some n else none

/-- Checks (2) and (3) of 30_encoding.md R101, in that order: the reserved bits, then the operand ranges. -/
def checkRow (reservedZero : Bool) (i : Option Instr) : Except DecodeError Instr :=
  if reservedZero then
    match i with
    | some i => .ok i
    | none => .error .operandRange
  else .error .reservedNonzero

/-- The rows of 30_encoding.md R94: for each opcode the fields that must be zero and the operands. -/
def decodeFields (op a b c : Byte) (imm : Word) : Except DecodeError Instr :=
  let immHigh := imm.extractLsb' 16 16
  let immLow := imm.extractLsb' 0 16
  match op.toNat with
  | 0x00 => checkRow (a == 0 && b == 0 && c == 0 && imm == 0) (some .nop)
  | 0x01 => checkRow (a == 0 && b == 0 && c == 0 && imm == 0) (some .reset)
  | 0x02 => checkRow (a == 0 && b == 0 && c == 0 && immHigh == 0) ((regOfNumber immLow).map .rdreg)
  | 0x10 => checkRow (a == 0 && b == 0 && c == 0) (some (.bcOpen imm))
  | 0x11 => checkRow (a == 0 && b == 0 && c == 0 && imm == 0) (some .bcRdbit)
  | 0x12 => checkRow (b == 0 && c == 0 && imm == 0) ((bitCount a).map .bcRdbits)
  | 0x13 => checkRow (b == 0 && c == 0 && imm == 0) ((bitCount a).map .bcPeek)
  | 0x14 => checkRow (a == 0 && b == 0 && c == 0) (some (.bcFlush imm))
  | 0x15 => checkRow (a == 0 && b == 0 && c == 0 && imm == 0) (some .bcAligned)
  | 0x16 => checkRow (a == 0 && b == 0 && c == 0 && imm == 0) (some .bcMore)
  | 0x20 => checkRow (imm.extractLsb' 1 31 == 0) (some (.ctInit a b c (imm.getLsbD 0)))
  | 0x21 => checkRow (a == 0 && b == 0 && c == 0 && immHigh == 0) (some (.ctGet immLow))
  | 0x30 => checkRow (a == 0 && b == 0 && c == 0 && imm == 0) (some .adInit)
  | 0x31 => checkRow (a == 0 && b == 0 && c == 0 && immHigh == 0) (some (.adBin immLow))
  | 0x32 => checkRow (a == 0 && b == 0 && c == 0 && imm == 0) (some .adTerm)
  | 0x33 => checkRow (a == 0 && b == 0 && c == 0 && imm == 0) (some .adByp)
  | 0x34 => checkRow (b == 0 && c == 0 && imm == 0) ((bitCount a).map .adBypn)
  | 0x35 => checkRow (b == 0 && c == 0 && imm == 0) (some (.adBypu a))
  | 0x36 => checkRow (a == 0 && b == 0 && c == 0 && imm == 0) (some .adRealign)
  | 0x40 => checkRow (b.extractLsb' 4 4 == 0 && c == 0 && imm == 0)
      ((catOfNumber a).map fun cat =>
        .rbDecode cat (b.getLsbD 0) (b.getLsbD 1) (b.getLsbD 2) (b.getLsbD 3))
  | _ => .error .undefinedOp

/-- The decoder: the command by `op` alone, then the rest of the word against the row (30_encoding.md R95, R101). -/
def decode (w : Word64) : Except DecodeError Instr :=
  decodeFields (opField w) (aField w) (bField w) (cField w) (immField w)

/-- A flag bit at a place of field `b` (30_encoding.md R94, R102). -/
def flagAt (f : Bool) (place : Nat) : Byte := if f then 1#8 <<< place else 0

/-- The encoder, from the same rows of 30_encoding.md R94. -/
def encode : Instr → Word64
  | .nop => formatC 0x00 0 0 0 0
  | .reset => formatC 0x01 0 0 0 0
  | .rdreg reg => formatC 0x02 0 0 0 ((regNumber reg).setWidth 32)
  | .bcOpen max => formatC 0x10 0 0 0 max
  | .bcRdbit => formatC 0x11 0 0 0 0
  | .bcRdbits n => formatC 0x12 n 0 0 0
  | .bcPeek n => formatC 0x13 n 0 0 0
  | .bcFlush n => formatC 0x14 0 0 0 n
  | .bcAligned => formatC 0x15 0 0 0 0
  | .bcMore => formatC 0x16 0 0 0 0
  | .ctInit unitClass initParam quantParam aux =>
      formatC 0x20 unitClass initParam quantParam (if aux then 1 else 0)
  | .ctGet idx => formatC 0x21 0 0 0 (idx.setWidth 32)
  | .adInit => formatC 0x30 0 0 0 0
  | .adBin idx => formatC 0x31 0 0 0 (idx.setWidth 32)
  | .adTerm => formatC 0x32 0 0 0 0
  | .adByp => formatC 0x33 0 0 0 0
  | .adBypn n => formatC 0x34 n 0 0 0
  | .adBypu max => formatC 0x35 max 0 0 0
  | .adRealign => formatC 0x36 0 0 0 0
  | .rbDecode cat left top fld inferred =>
      formatC 0x40 (catNumber cat) (flagAt left 0 ||| flagAt top 1 ||| flagAt fld 2 ||| flagAt inferred 3) 0 0

/-- The command of an opcode-table word: the table numbers a command word's bits as 30_encoding.md R92 does,
bit 63 the top bit of `op`, and every command is one 64-bit word (30_encoding.md R99). -/
def decodeTableWord (nbits w : Nat) : Option Instr :=
  match decode (BitVec.ofNat 64 (w % 2 ^ nbits)) with
  | .ok i => some i
  | .error _ => none

end Sys2Proof
end

