-- ==== Sys2Proof/Config.lean ====
section
/-! DEFINITION. The parameters the spec leaves OPEN (00_scope.md R10), as plain data that State carries, and the
free values: constants without a body, so that no proof can know them. -/

namespace Sys2Proof

/-- One entry of the context table (10_state.md R33): a 6-bit state index and the most probable symbol. -/
structure ContextEntry where
  stateIndex : BitVec 6
  mps : Bool
deriving DecidableEq, Repr, Inhabited

/-- The context table `CTX[0..459]` (00_scope.md R8 `NCTX`; 10_state.md R33). -/
abbrev ContextTable := Vector ContextEntry 460

/-- One entry of `TRANS` (42_arithmetic_decoder.md R172). -/
structure TransEntry where
  lps8 : BitVec 8
  nextMps : BitVec 6
  nextLps : BitVec 6
deriving DecidableEq, Repr, Inhabited

/-- The four arguments of `CTX_INIT` (41_context_table.md R151). -/
structure InitKey where
  unitClass : Byte
  initParam : Byte
  aux : Bool
  quantParam : Byte
deriving DecidableEq, Repr

/-- The record `CTXMAP` (41_context_table.md R156). Index 0 of the two-row tables is frame, index 1 field. -/
structure CtxMap where
  cbfBase : Vector (Option Nat) 6
  sigBase : Vector (Vector Nat 6) 2
  lastBase : Vector (Vector Nat 6) 2
  absBase : Vector Nat 6
  sigInc8 : Vector (Vector Nat 63) 2
  lastInc8 : Vector Nat 63
deriving DecidableEq, Repr

/-- The OPEN parameters one core instance is built with (00_scope.md R10; 10_state.md R47). `CTX_INIT` is a
total function of the spec; here it is a list of tables by argument, and `Config.ctxInitElsewhere` where the
list has no table (notes/assumptions/4.md). -/
structure Params where
  bufWords : Nat
  trans : Vector TransEntry 256
  ctxInit : List (InitKey × ContextTable)
  nInitParam : Nat
  ctxMap : CtxMap
  /-- the model's own: which stream of free values this instance draws from; instances with different numbers draw
  independently (notes/assumptions/21.md) -/
  freeStream : Nat
deriving DecidableEq, Repr

/-- The contents of the registers that 10_state.md R44 leaves unspecified. -/
structure Unspecified where
  range : Word
  value : Word
  ctx : ContextTable
  unitCfg : BitVec 17
  outCbf : Bool
  outNLevels : BitVec 7
  outSig : BitVec 64
  outLevel : Vector Word 64
deriving Inhabited

/-- The draws of 20_memory.md R63 and R70: of an instance's stream, the k-th bit drawn for a position outside BUF.
Free value (notes/assumptions/2.md, 21.md). -/
opaque Config.drawnBit : Nat → Nat → Bool

/-- What the BUF of an instance's stream holds at a byte address the host has not written. Free value, one per address
(20_memory.md R61: reads are idempotent; notes/assumptions/1.md, 21.md). -/
opaque Config.unwrittenByte : Nat → Nat → Byte

/-- What the registers of 10_state.md R44 and R37 hold when the spec calls them unspecified: of an instance's stream,
the k-th such contents. Free value (notes/assumptions/2.md, 21.md). -/
opaque Config.unspecified : Nat → Nat → Unspecified

/-- `CTX_INIT` at arguments for which `Params.ctxInit` lists no table (41_context_table.md R151: total). Free value. -/
opaque Config.ctxInitElsewhere : InitKey → ContextTable

/-- A width scaled by `<< (23 - z)` when `z > 23`: the spec states no result (42_arithmetic_decoder.md R179:
the shift "requires `z <= 23`"). Free value, of the width and z. -/
opaque Config.scaleBeyond : Word → Nat → Word

end Sys2Proof
end

