-- ==== Sys2Proof/Machine/Tables.lean ====
section
/-! DEFINITION. The constants the source fixes and the spec decides (00_scope.md R8, R9) and the default tables
TRANS_H264 and CTXMAP_H264 that State.reset's parameters hold. -/

namespace Sys2Proof.Machine

/-- `RANGE_INIT`: 510 scaled left by 23 bits (00_scope.md R8). -/
def rangeInit : Word := 0xFF000000

/-- `READAHEAD` (00_scope.md R8). -/
def readAhead : Nat := 23

/-- `INIT_PEEK` (00_scope.md R8). -/
def initPeek : Nat := 32

/-- `INIT_FLUSH` (00_scope.md R8). -/
def initFlush : Nat := 9

/-- `TERM_WIDTH` (00_scope.md R8). -/
def termWidth : Word := 2

/-- `RENORM_T` (00_scope.md R9). -/
def renormT : Word := 0x100

/-- `BYPASS_T` (00_scope.md R9). -/
def bypassT : Word := 0x200

/-- `QP_MAX` (00_scope.md R8). -/
def qpMax : Nat := 51

/-- `N_UNIT_CLASS` (00_scope.md R9). -/
def nUnitClass : Nat := 3

/-- `PREFIX_CAP` (00_scope.md R8). -/
def prefixCap : Nat := 14

/-- `SUFFIX_UNARY_CAP` (00_scope.md R8). -/
def suffixUnaryCap : Nat := 20

/-- `COUNTER_CAP` (00_scope.md R8). -/
def counterCap : Nat := 4

/-- Rows 0 to 15 of TRANS_H264 (42_arithmetic_decoder.md R173): per state the entries of quantized range 0 to 3. -/
def transRows0 : Vector TransEntry 64 :=
  #v[⟨128, 1, 0⟩, ⟨176, 1, 0⟩, ⟨208, 1, 0⟩, ⟨240, 1, 0⟩,
     ⟨128, 2, 0⟩, ⟨167, 2, 0⟩, ⟨197, 2, 0⟩, ⟨227, 2, 0⟩,
     ⟨128, 3, 1⟩, ⟨158, 3, 1⟩, ⟨187, 3, 1⟩, ⟨216, 3, 1⟩,
     ⟨123, 4, 2⟩, ⟨150, 4, 2⟩, ⟨178, 4, 2⟩, ⟨205, 4, 2⟩,
     ⟨116, 5, 2⟩, ⟨142, 5, 2⟩, ⟨169, 5, 2⟩, ⟨195, 5, 2⟩,
     ⟨111, 6, 4⟩, ⟨135, 6, 4⟩, ⟨160, 6, 4⟩, ⟨185, 6, 4⟩,
     ⟨105, 7, 4⟩, ⟨128, 7, 4⟩, ⟨152, 7, 4⟩, ⟨175, 7, 4⟩,
     ⟨100, 8, 5⟩, ⟨122, 8, 5⟩, ⟨144, 8, 5⟩, ⟨166, 8, 5⟩,
     ⟨95, 9, 6⟩, ⟨116, 9, 6⟩, ⟨137, 9, 6⟩, ⟨158, 9, 6⟩,
     ⟨90, 10, 7⟩, ⟨110, 10, 7⟩, ⟨130, 10, 7⟩, ⟨150, 10, 7⟩,
     ⟨85, 11, 8⟩, ⟨104, 11, 8⟩, ⟨123, 11, 8⟩, ⟨142, 11, 8⟩,
     ⟨81, 12, 9⟩, ⟨99, 12, 9⟩, ⟨117, 12, 9⟩, ⟨135, 12, 9⟩,
     ⟨77, 13, 9⟩, ⟨94, 13, 9⟩, ⟨111, 13, 9⟩, ⟨128, 13, 9⟩,
     ⟨73, 14, 11⟩, ⟨89, 14, 11⟩, ⟨105, 14, 11⟩, ⟨122, 14, 11⟩,
     ⟨69, 15, 11⟩, ⟨85, 15, 11⟩, ⟨100, 15, 11⟩, ⟨116, 15, 11⟩,
     ⟨66, 16, 12⟩, ⟨80, 16, 12⟩, ⟨95, 16, 12⟩, ⟨110, 16, 12⟩]

/-- Rows 16 to 31 of TRANS_H264 (42_arithmetic_decoder.md R173). -/
def transRows16 : Vector TransEntry 64 :=
  #v[⟨62, 17, 13⟩, ⟨76, 17, 13⟩, ⟨90, 17, 13⟩, ⟨104, 17, 13⟩,
     ⟨59, 18, 13⟩, ⟨72, 18, 13⟩, ⟨86, 18, 13⟩, ⟨99, 18, 13⟩,
     ⟨56, 19, 15⟩, ⟨69, 19, 15⟩, ⟨81, 19, 15⟩, ⟨94, 19, 15⟩,
     ⟨53, 20, 15⟩, ⟨65, 20, 15⟩, ⟨77, 20, 15⟩, ⟨89, 20, 15⟩,
     ⟨51, 21, 16⟩, ⟨62, 21, 16⟩, ⟨73, 21, 16⟩, ⟨85, 21, 16⟩,
     ⟨48, 22, 16⟩, ⟨59, 22, 16⟩, ⟨69, 22, 16⟩, ⟨80, 22, 16⟩,
     ⟨46, 23, 18⟩, ⟨56, 23, 18⟩, ⟨66, 23, 18⟩, ⟨76, 23, 18⟩,
     ⟨43, 24, 18⟩, ⟨53, 24, 18⟩, ⟨63, 24, 18⟩, ⟨72, 24, 18⟩,
     ⟨41, 25, 19⟩, ⟨50, 25, 19⟩, ⟨59, 25, 19⟩, ⟨69, 25, 19⟩,
     ⟨39, 26, 19⟩, ⟨48, 26, 19⟩, ⟨56, 26, 19⟩, ⟨65, 26, 19⟩,
     ⟨37, 27, 21⟩, ⟨45, 27, 21⟩, ⟨54, 27, 21⟩, ⟨62, 27, 21⟩,
     ⟨35, 28, 21⟩, ⟨43, 28, 21⟩, ⟨51, 28, 21⟩, ⟨59, 28, 21⟩,
     ⟨33, 29, 22⟩, ⟨41, 29, 22⟩, ⟨48, 29, 22⟩, ⟨56, 29, 22⟩,
     ⟨32, 30, 22⟩, ⟨39, 30, 22⟩, ⟨46, 30, 22⟩, ⟨53, 30, 22⟩,
     ⟨30, 31, 23⟩, ⟨37, 31, 23⟩, ⟨43, 31, 23⟩, ⟨50, 31, 23⟩,
     ⟨29, 32, 24⟩, ⟨35, 32, 24⟩, ⟨41, 32, 24⟩, ⟨48, 32, 24⟩]

/-- Rows 32 to 47 of TRANS_H264 (42_arithmetic_decoder.md R173). -/
def transRows32 : Vector TransEntry 64 :=
  #v[⟨27, 33, 24⟩, ⟨33, 33, 24⟩, ⟨39, 33, 24⟩, ⟨45, 33, 24⟩,
     ⟨26, 34, 25⟩, ⟨31, 34, 25⟩, ⟨37, 34, 25⟩, ⟨43, 34, 25⟩,
     ⟨24, 35, 26⟩, ⟨30, 35, 26⟩, ⟨35, 35, 26⟩, ⟨41, 35, 26⟩,
     ⟨23, 36, 26⟩, ⟨28, 36, 26⟩, ⟨33, 36, 26⟩, ⟨39, 36, 26⟩,
     ⟨22, 37, 27⟩, ⟨27, 37, 27⟩, ⟨32, 37, 27⟩, ⟨37, 37, 27⟩,
     ⟨21, 38, 27⟩, ⟨26, 38, 27⟩, ⟨30, 38, 27⟩, ⟨35, 38, 27⟩,
     ⟨20, 39, 28⟩, ⟨24, 39, 28⟩, ⟨29, 39, 28⟩, ⟨33, 39, 28⟩,
     ⟨19, 40, 29⟩, ⟨23, 40, 29⟩, ⟨27, 40, 29⟩, ⟨31, 40, 29⟩,
     ⟨18, 41, 29⟩, ⟨22, 41, 29⟩, ⟨26, 41, 29⟩, ⟨30, 41, 29⟩,
     ⟨17, 42, 30⟩, ⟨21, 42, 30⟩, ⟨25, 42, 30⟩, ⟨28, 42, 30⟩,
     ⟨16, 43, 30⟩, ⟨20, 43, 30⟩, ⟨23, 43, 30⟩, ⟨27, 43, 30⟩,
     ⟨15, 44, 30⟩, ⟨19, 44, 30⟩, ⟨22, 44, 30⟩, ⟨25, 44, 30⟩,
     ⟨14, 45, 31⟩, ⟨18, 45, 31⟩, ⟨21, 45, 31⟩, ⟨24, 45, 31⟩,
     ⟨14, 46, 32⟩, ⟨17, 46, 32⟩, ⟨20, 46, 32⟩, ⟨23, 46, 32⟩,
     ⟨13, 47, 32⟩, ⟨16, 47, 32⟩, ⟨19, 47, 32⟩, ⟨22, 47, 32⟩,
     ⟨12, 48, 33⟩, ⟨15, 48, 33⟩, ⟨18, 48, 33⟩, ⟨21, 48, 33⟩]

/-- Rows 48 to 63 of TRANS_H264 (42_arithmetic_decoder.md R173). -/
def transRows48 : Vector TransEntry 64 :=
  #v[⟨12, 49, 33⟩, ⟨14, 49, 33⟩, ⟨17, 49, 33⟩, ⟨20, 49, 33⟩,
     ⟨11, 50, 33⟩, ⟨14, 50, 33⟩, ⟨16, 50, 33⟩, ⟨19, 50, 33⟩,
     ⟨11, 51, 34⟩, ⟨13, 51, 34⟩, ⟨15, 51, 34⟩, ⟨18, 51, 34⟩,
     ⟨10, 52, 34⟩, ⟨12, 52, 34⟩, ⟨15, 52, 34⟩, ⟨17, 52, 34⟩,
     ⟨10, 53, 35⟩, ⟨12, 53, 35⟩, ⟨14, 53, 35⟩, ⟨16, 53, 35⟩,
     ⟨9, 54, 35⟩, ⟨11, 54, 35⟩, ⟨13, 54, 35⟩, ⟨15, 54, 35⟩,
     ⟨9, 55, 35⟩, ⟨11, 55, 35⟩, ⟨12, 55, 35⟩, ⟨14, 55, 35⟩,
     ⟨8, 56, 36⟩, ⟨10, 56, 36⟩, ⟨12, 56, 36⟩, ⟨14, 56, 36⟩,
     ⟨8, 57, 36⟩, ⟨9, 57, 36⟩, ⟨11, 57, 36⟩, ⟨13, 57, 36⟩,
     ⟨7, 58, 36⟩, ⟨9, 58, 36⟩, ⟨11, 58, 36⟩, ⟨12, 58, 36⟩,
     ⟨7, 59, 37⟩, ⟨9, 59, 37⟩, ⟨10, 59, 37⟩, ⟨12, 59, 37⟩,
     ⟨7, 60, 37⟩, ⟨8, 60, 37⟩, ⟨10, 60, 37⟩, ⟨11, 60, 37⟩,
     ⟨6, 61, 37⟩, ⟨8, 61, 37⟩, ⟨9, 61, 37⟩, ⟨11, 61, 37⟩,
     ⟨6, 62, 38⟩, ⟨7, 62, 38⟩, ⟨9, 62, 38⟩, ⟨10, 62, 38⟩,
     ⟨6, 62, 38⟩, ⟨7, 62, 38⟩, ⟨8, 62, 38⟩, ⟨9, 62, 38⟩,
     ⟨2, 63, 63⟩, ⟨2, 63, 63⟩, ⟨2, 63, 63⟩, ⟨2, 63, 63⟩]

/-- `TRANS_H264` (42_arithmetic_decoder.md R173), entry `(s << 2) | q` in row s. -/
def transH264 : Vector TransEntry 256 :=
  transRows0 ++ transRows16 ++ transRows32 ++ transRows48

/-- `CTXMAP_H264` (41_context_table.md R157). -/
def ctxMapH264 : CtxMap where
  cbfBase := #v[some 85, some 89, some 93, some 97, some 101, none]
  sigBase := #v[#v[105, 120, 134, 149, 152, 402], #v[277, 292, 306, 321, 324, 436]]
  lastBase := #v[#v[166, 181, 195, 210, 213, 417], #v[338, 353, 367, 382, 385, 451]]
  absBase := #v[227, 237, 247, 257, 266, 426]
  sigInc8 := #v[
    #v[0, 1, 2, 3, 4, 5, 5, 4, 4, 3, 3, 4, 4, 4, 5, 5,
      4, 4, 4, 4, 3, 3, 6, 7, 7, 7, 8, 9, 10, 9, 8, 7,
      7, 6, 11, 12, 13, 11, 6, 7, 8, 9, 14, 10, 9, 8, 6, 11,
      12, 13, 11, 6, 9, 14, 10, 9, 11, 12, 13, 11, 14, 10, 12],
    #v[0, 1, 1, 2, 2, 3, 3, 4, 5, 6, 7, 7, 7, 8, 4, 5,
      6, 9, 10, 10, 8, 11, 12, 11, 9, 9, 10, 10, 8, 11, 12, 11,
      9, 9, 10, 10, 8, 11, 12, 11, 9, 9, 10, 10, 8, 13, 13, 9,
      9, 10, 10, 8, 13, 13, 9, 9, 10, 10, 14, 14, 14, 14, 14]]
  lastInc8 :=
    #v[0, 1, 1, 1, 1, 1, 1, 1, 1, 1, 1, 1, 1, 1, 1, 1,
      2, 2, 2, 2, 2, 2, 2, 2, 2, 2, 2, 2, 2, 2, 2, 2,
      3, 3, 3, 3, 3, 3, 3, 3, 4, 4, 4, 4, 4, 4, 4, 4,
      5, 5, 5, 5, 6, 6, 6, 6, 7, 7, 7, 7, 8, 8, 8]

end Sys2Proof.Machine
end

