-- ==== Sys2Proof/Machine/State.lean ====
section
/-! DEFINITION. The machine's state: every item of 10_state.md R21, the bit buffer BUF the core reads, the host's
side of the command port, the OPEN parameters, and two fields of the model's own (draws, bufRewritten). -/

namespace Sys2Proof.Machine

/-- The phases of 10_state.md R31. -/
inductive Phase where
  | idle
  | ready
  | decoding
  | terminated
  | failed
deriving DecidableEq, Repr

/-- The status codes 0 to 5 of 60_exceptions.md R271. -/
inductive Status where
  | ok
  | bufferExhausted
  | invalidUnitParameters
  | logicInvariantViolation
  | illegalCommand
  | badState
deriving DecidableEq, Repr

/-- What an error reports: its status and its information byte (60_exceptions.md R270, R272). -/
structure CmdError where
  status : Status
  info : Byte
deriving DecidableEq, Repr

/-- What the host does to the core, one at a time (70_reset_and_hazards.md R310; 30_encoding.md R90). -/
inductive HostAction where
  /-- gives a command word at the command port -/
  | command (w : Word64)
  /-- writes byte `k` of BUF, in the byte order of 20_memory.md R65 -/
  | writeBuf (k : Nat) (b : Byte)
  /-- asserts the hardware reset between two commands (70_reset_and_hazards.md R301) -/
  | hardwareReset
deriving DecidableEq, Repr

/-- The whole state. -/
structure State where
  /-- BitCursor: the current read position in bits (10_state.md R23) -/
  bitOffset : Word
  /-- BitCursor: one past the last valid bit (10_state.md R24) -/
  maxBitOffset : Word
  /-- BitCursor: a BC.OPEN has bound the cursor since the last reset (10_state.md R25) -/
  cursorValid : Bool
  /-- ArithmeticDecoder: interval width (10_state.md R27) -/
  range : Word
  /-- ArithmeticDecoder: interval low-offset, read-ahead in its low bits (10_state.md R28, R45) -/
  value : Word
  /-- ArithmeticDecoder: the state machine (10_state.md R31) -/
  phase : Phase
  /-- ContextTable: the 460 adaptive entries (10_state.md R33) -/
  ctx : ContextTable
  /-- ContextTable: CT.INIT has written it since the last reset and BC.OPEN (10_state.md R34) -/
  ctxValid : Bool
  /-- ContextTable: operands of the last successful CT.INIT (10_state.md R35) -/
  unitCfg : BitVec 17
  /-- output block: the coded-block flag (10_state.md R37) -/
  outCbf : Bool
  /-- output block: number of levels, 0 to 64 (10_state.md R37) -/
  outNLevels : BitVec 7
  /-- output block: significance bitmap, bit i is scan index i (10_state.md R37) -/
  outSig : BitVec 64
  /-- output block: levels in decode order, two's complement (10_state.md R37) -/
  outLevel : Vector Word 64
  /-- output block: an RB.DECODE has completed with OK (10_state.md R38) -/
  outValid : Bool
  /-- error record: bits 15:8 information byte, bits 7:0 status code (10_state.md R41) -/
  lastErr : BitVec 16
  /-- the bit buffer BUF, host memory that the core reads (20_memory.md R60; 10_state.md R47) -/
  buf : Memory
  /-- the OPEN parameters of this instance (10_state.md R47); no step changes them -/
  params : Params
  /-- the host's sequence of actions (10_state.md R22: host state, not core state) -/
  program : List HostAction
  /-- the host's index into it (10_state.md R22) -/
  programIndex : Nat
  /-- the response word to the host's last action, none if that action was no command (30_encoding.md R93) -/
  response : Option Word64
  /-- the model's own: how many free values have been drawn (notes/assumptions/2.md) -/
  draws : Nat
  /-- the model's own: the host wrote BUF while a unit was open on it, so that 70_reset_and_hazards.md R313
  leaves every bit read open (notes/assumptions/3.md) -/
  bufRewritten : Bool
deriving DecidableEq, Repr

/-- Why the machine stops. No command stops it: every error of 60_exceptions.md R271 is a response and a next state. -/
inductive Fault where
  /-- Raised by a host action, never by a command: the host writes a byte address at or above `4 * BUF_WORDS`,
  which 20_memory.md R60 says does not exist. Safe: nothing is claimed of such a host. -/
  | hostWriteOutsideBuf
deriving DecidableEq, Repr

/-- Why a step has no meaning. -/
inductive Refusal where
  /-- Raised by an arm of `exec` whose command has no meaning yet; no arm does. Safe. -/
  | notModelled (mnemonic : String)
deriving DecidableEq, Repr

/-- The parameters State.reset stands with: the spec's own defaults where it gives one (00_scope.md R10:
`TRANS_H264`, `CTXMAP_H264`, `N_INIT_PARAM` 3), no table of `CTX_INIT`, and the largest `BUF_WORDS` of
20_memory.md R60. DESIGN CHOICE (notes/assumptions/5.md). -/
def resetParams : Params where
  bufWords := 2 ^ 27
  trans := transH264
  ctxInit := []
  nInitParam := 3
  ctxMap := ctxMapH264
  freeStream := 0

/-- The machine right after hardware reset (10_state.md R44; 70_reset_and_hazards.md R300). The registers R44
leaves unspecified are 0. DESIGN CHOICE (notes/assumptions/6.md). The host has written nothing and holds no
program. -/
def State.reset : State where
  bitOffset := 0
  maxBitOffset := 0
  cursorValid := false
  range := 0
  value := 0
  phase := .idle
  ctx := Vector.replicate 460 ⟨0, false⟩
  ctxValid := false
  unitCfg := 0
  outCbf := false
  outNLevels := 0
  outSig := 0
  outLevel := Vector.replicate 64 0
  outValid := false
  lastErr := 0
  buf := []
  params := resetParams
  program := []
  programIndex := 0
  response := none
  draws := 0
  bufRewritten := false

end Sys2Proof.Machine
end

