-- ==== Sys2Proof/Machine/Flags.lean ====
section
/-! DEFINITION. The core's flags: the phase code, the STATUS composition, and the admission of each command on them. -/

namespace Sys2Proof.Machine

/-- The codes of 10_state.md R31. -/
def phaseCode : Phase → BitVec 3
  | .idle => 0
  | .ready => 1
  | .decoding => 2
  | .terminated => 3
  | .failed => 4

/-- STATUS, bits 5:0 (10_state.md R42): out_valid, ctx_valid, cursor_valid, phase. -/
def statusBits (s : State) : BitVec 6 :=
  BitVec.ofBool s.outValid ++ BitVec.ofBool s.ctxValid ++ BitVec.ofBool s.cursorValid ++ phaseCode s.phase

/-- STATUS as RDREG returns it (10_state.md R42). -/
def statusWord (s : State) : Word := (statusBits s).setWidth 32

/-- The low byte of STATUS, the information byte of BadState (60_exceptions.md R272). -/
def statusByte (s : State) : Byte := (statusBits s).setWidth 8

/-- `phase` is READY or DECODING: the bin commands' condition (30_encoding.md R100). -/
def phaseActive (s : State) : Bool := s.phase == .ready || s.phase == .decoding

/-- `phase` is READY, DECODING or TERMINATED: RANGE and VALUE are readable (44_system.md R264). -/
def decoderReadable (s : State) : Bool := phaseActive s || s.phase == .terminated

/-- Admission of BC.RDBIT, BC.RDBITS and BC.FLUSH (30_encoding.md R100). -/
def consumeAdmitted (s : State) : Bool := s.cursorValid && (s.phase == .idle || s.phase == .failed)

/-- Admission of AD.BIN and RB.DECODE (30_encoding.md R100). -/
def contextBinAdmitted (s : State) : Bool := phaseActive s && s.ctxValid

end Sys2Proof.Machine
end

