-- ==== Sys2Proof/Machine/Ops.lean ====
section
/-! DEFINITION. The shared operations: number helpers, the bit buffer, the cursor, the response, and ending a
command with an error, the core's one form of exception. -/

namespace Sys2Proof.Machine

/-- `clz32` (00_scope.md R11). -/
def clz32 (x : Word) : Nat := if x = 0 then 32 else 31 - Nat.log2 x.toNat

/-- `zext_32` of one bit (00_scope.md R11). -/
def bitWord (b : Bool) : Word := (BitVec.ofBool b).setWidth 32

/-- `popcount` of a bitmap (00_scope.md R11). -/
def popcount (v : BitVec 64) : Nat := (List.range 64).countP fun i => v.getLsbD i

/-- The result of a procedure that may raise an error: its value and the state, or the error and the state with
what was committed before it (42_arithmetic_decoder.md R174). -/
inductive Res (α : Type) where
  | ok (a : α) (s : State)
  | err (e : CmdError) (s : State)

/-- Procedures one after the other: an error ends the command (60_exceptions.md R284). -/
def Res.bind {α β : Type} (r : Res α) (f : α → State → Res β) : Res β :=
  match r with
  | .ok a s => f a s
  | .err e s => .err e s

/-! ## The bit buffer -/

/-- The byte the host has written at an address, if it has. -/
def memRead : Memory → Nat → Option Byte
  | [], _ => none
  | (k, b) :: rest, a => if a = k then some b else memRead rest a

/-- The host writes a byte; the list stays in its canonical form (addresses strictly rising). -/
def memWrite : Memory → Nat → Byte → Memory
  | [], a, b => [(a, b)]
  | (k, c) :: rest, a, b =>
    if a < k then (a, b) :: (k, c) :: rest
    else if a = k then (a, b) :: rest
    else (k, c) :: memWrite rest a b

/-- The canonical form: addresses strictly rising. An unlisted address holds no written value, so no entry can
equal what an unlisted address holds. -/
def memWf : Memory → Bool
  | [] => true
  | [_] => true
  | (k, _) :: (l, c) :: rest => decide (k < l) && memWf ((l, c) :: rest)

/-- Byte k of BUF as the core reads it (20_memory.md R65); unwritten, a free value of this instance (notes/assumptions/1.md,
21.md). -/
def bufByte (s : State) (k : Nat) : Byte := (memRead s.buf k).getD (Config.unwrittenByte s.params.freeStream k)

/-- `MemRead(w, 4)` (20_memory.md R61), the bytes of the word most significant first (R65). -/
def bufWord (s : State) (w : Nat) : Word :=
  bufByte s (4 * w) ++ bufByte s (4 * w + 1) ++ bufByte s (4 * w + 2) ++ bufByte s (4 * w + 3)

/-- A position's bit is what BUF holds: it lies inside BUF (20_memory.md R63) and the host has kept
70_reset_and_hazards.md R313. -/
def bitStored (s : State) (p : Nat) : Bool := decide (p < 32 * s.params.bufWords) && !s.bufRewritten

/-- `BitAt(p)` (20_memory.md R62, R63), the k-th bit of one read; outside BUF a draw (R70) from this
instance's stream (notes/assumptions/2.md, 21.md). -/
def bitAt (s : State) (p k : Nat) : Bool :=
  if bitStored s p then (bufWord s (p / 32)).getLsbD (31 - p % 32)
  else Config.drawnBit s.params.freeStream (s.draws + k)

/-- `BitsAt(p, n)` (20_memory.md R64): the bit at p is the most significant of the n-bit field. -/
def bitsAt (s : State) (p : Nat) : Nat → Word
  | 0 => 0
  | n + 1 => (bitsAt s p n <<< 1) ||| bitWord (bitAt s (p + n) n)

/-- The draws used up after reading n bits at p: none where every bit is stored. -/
def drawsAfter (s : State) (p n : Nat) : Nat :=
  if n = 0 ∨ bitStored s (p + n - 1) then s.draws else s.draws + n

/-! ## Responses and errors -/

/-- The status codes of 60_exceptions.md R271. -/
def statusCode : Status → Byte
  | .ok => 0
  | .bufferExhausted => 1
  | .invalidUnitParameters => 2
  | .logicInvariantViolation => 3
  | .illegalCommand => 4
  | .badState => 5

/-- The response format (30_encoding.md R93). -/
def responseWord (info status : Byte) (result : Word) : Word64 := 0#16 ++ info ++ status ++ result

/-- BufferExhausted at a site (60_exceptions.md R272). -/
def exhausted (site : Byte) : CmdError := ⟨.bufferExhausted, site⟩

/-- The three IllegalCommand information bytes (60_exceptions.md R272). -/
def illegalInfo : DecodeError → Byte
  | .undefinedOp => 0x01
  | .reservedNonzero => 0x02
  | .operandRange => 0x03

/-- IllegalCommand (60_exceptions.md R277). -/
def illegal (d : DecodeError) : CmdError := ⟨.illegalCommand, illegalInfo d⟩

/-- BadState: the information byte is the state that refused the command (60_exceptions.md R276). -/
def badState (s : State) : CmdError := ⟨.badState, statusByte s⟩

/-- Grade (b) of 60_exceptions.md R273: BufferExhausted from AD.INIT (site 0x03), from a bin (0x04) or from
AD.REALIGN (0x05) aborts the unit. -/
def abortsUnit (e : CmdError) : Bool :=
  e.status == .bufferExhausted && (e.info == 0x03 || e.info == 0x04 || e.info == 0x05)

/-- TAKING THE EXCEPTION: what is recorded when an error is raised (60_exceptions.md R280): LASTERR, for grade (b)
`phase <- FAILED`, and the response with result 0. There is no return from it (R283): FAILED is left by BC.OPEN,
AD.INIT and RESET. -/
def raiseError (e : CmdError) (s : State) : State :=
  { s with
    lastErr := e.info ++ statusCode e.status
    phase := if abortsUnit e then .failed else s.phase
    response := some (responseWord e.info (statusCode e.status) 0) }

/-- A command that ends with status OK (30_encoding.md R93; 60_exceptions.md R280: OK does not change LASTERR). -/
def complete (result : Word) (s : State) : State :=
  { s with response := some (responseWord 0 (statusCode .ok) result) }

/-- A command refused before execution: only the error is recorded. -/
def refuse (e : CmdError) (s : State) : Host.Outcome State Fault Refusal := .next (raiseError e s)

/-- The response to a procedure's result. -/
def answer : Res Word → Host.Outcome State Fault Refusal
  | .ok v s => .next (complete v s)
  | .err e s => .next (raiseError e s)

/-- Admission (30_encoding.md R100): refused with BadState unless the state meets the condition. -/
def gated (condition : Bool) (s : State) (run : Host.Outcome State Fault Refusal) :
    Host.Outcome State Fault Refusal :=
  if condition then run else refuse (badState s) s

/-- The encoded range of a bit count (30_encoding.md R98, R101: before admission). `decode` never lets such a
command through; the meanings answer it the same way. -/
def inCountRange (n : Byte) (s : State) (run : Host.Outcome State Fault Refusal) :
    Host.Outcome State Fault Refusal :=
  if n.toNat ≤ 32 then run else refuse (illegal .operandRange) s

/-! ## The cursor -/

/-- The check of `Advance` (40_bitcursor.md R122), the sum a natural number. -/
def cursorFits (s : State) (n : Nat) : Bool := decide (s.bitOffset.toNat + n ≤ s.maxBitOffset.toNat)

/-- The move of `Advance`. -/
def moveCursor (s : State) (n : Nat) : State := { s with bitOffset := s.bitOffset + BitVec.ofNat 32 n }

/-- `Advance(n, site)` (40_bitcursor.md R122). -/
def advance (n : Nat) (site : Byte) (s : State) : Res Unit :=
  if cursorFits s n then .ok () (moveCursor s n) else .err (exhausted site) s

/-! ## Reset -/

/-- The next free contents of the registers the spec calls unspecified (notes/assumptions/2.md, 21.md). -/
def freeContents (s : State) : Unspecified := Config.unspecified s.params.freeStream s.draws

/-- RESET and hardware reset (10_state.md R44): the registers R44 gives a value take it; the ones it leaves
unspecified take a free value; BUF, the parameters and the host's side are not affected. -/
def resetCore (s : State) : State :=
  let u := freeContents s
  { s with
    bitOffset := 0
    maxBitOffset := 0
    cursorValid := false
    range := u.range
    value := u.value
    phase := .idle
    ctx := u.ctx
    ctxValid := false
    unitCfg := u.unitCfg
    outCbf := u.outCbf
    outNLevels := u.outNLevels
    outSig := u.outSig
    outLevel := u.outLevel
    outValid := false
    lastErr := 0
    draws := s.draws + 1
    bufRewritten := false }

end Sys2Proof.Machine
end

