-- ==== Sys2Proof/Machine/Operands.lean ====
section
/-! DEFINITION. Operand forms: the registers RDREG reads, the operands of CT.INIT, the block categories and the
context indices they select. -/

namespace Sys2Proof.Machine

/-! ## Registers of RDREG -/

/-- When a register is readable (44_system.md R264; 10_state.md R43). -/
def regReadable (s : State) : Reg → Bool
  | .status => true
  | .lastErr => true
  | .bitOffset => s.cursorValid
  | .maxBitOffset => s.cursorValid
  | .range => decoderReadable s
  | .value => decoderReadable s
  | .unitCfg => s.ctxValid
  | .outCbf => s.outValid
  | .outNLevels => s.outValid
  | .outSigLo => s.outValid
  | .outSigHi => s.outValid
  | .outLevel j => s.outValid && decide (j.val < s.outNLevels.toNat)

/-- The 32-bit value of a register (10_state.md R43). -/
def regValue (s : State) : Reg → Word
  | .status => statusWord s
  | .lastErr => s.lastErr.setWidth 32
  | .bitOffset => s.bitOffset
  | .maxBitOffset => s.maxBitOffset
  | .range => s.range
  | .value => s.value
  | .unitCfg => s.unitCfg.setWidth 32
  | .outCbf => bitWord s.outCbf
  | .outNLevels => s.outNLevels.setWidth 32
  | .outSigLo => s.outSig.extractLsb' 0 32
  | .outSigHi => s.outSig.extractLsb' 32 32
  | .outLevel j => s.outLevel[j]

/-! ## Operands of CT.INIT -/

/-- The domain checks of CT.INIT, in order (41_context_table.md R159). -/
def initOperandError (s : State) (unitClass initParam quantParam : Byte) : Option CmdError :=
  if nUnitClass ≤ unitClass.toNat then some ⟨.invalidUnitParameters, 0x11⟩
  else if s.params.nInitParam ≤ initParam.toNat then some ⟨.invalidUnitParameters, 0x12⟩
  else if qpMax < quantParam.toNat then some ⟨.invalidUnitParameters, 0x13⟩
  else none

/-- The table a list of tables gives for a key. -/
def ctxInitLookup : List (InitKey × ContextTable) → InitKey → Option ContextTable
  | [], _ => none
  | (k, t) :: rest, key => if key = k then some t else ctxInitLookup rest key

/-- `CTX_INIT` (41_context_table.md R151), total: a free table where the parameters list none. -/
def ctxInit (p : Params) (key : InitKey) : ContextTable :=
  (ctxInitLookup p.ctxInit key).getD (Config.ctxInitElsewhere key)

/-- UNITCFG: aux ++ quant_param ++ init_param ++ unit_class (10_state.md R35; 41_context_table.md R159). -/
def packUnitCfg (unitClass initParam quantParam : Byte) (aux : Bool) : BitVec 17 :=
  BitVec.ofBool aux ++ quantParam.extractLsb' 0 6 ++ initParam ++ unitClass.extractLsb' 0 2

/-! ## Context entries -/

/-- `CtxRef(idx, site)` (41_context_table.md R160). -/
def ctxRef (idx : Nat) (site : Byte) (s : State) : Except CmdError ContextEntry :=
  if h : idx < 460 then .ok (s.ctx[idx]) else .error ⟨.logicInvariantViolation, site⟩

/-- Storing an entry back (42_arithmetic_decoder.md R176 step 7). -/
def setCtx (idx : Nat) (e : ContextEntry) (s : State) : State := { s with ctx := s.ctx.setIfInBounds idx e }

/-- The packed form `mps ++ state_index` (10_state.md R33; 41_context_table.md R161). -/
def packEntry (e : ContextEntry) : BitVec 7 := BitVec.ofBool e.mps ++ e.stateIndex

/-! ## Block categories and context indices -/

/-- The number of a category as an index of CTXMAP (41_context_table.md R156). -/
def catIndex : BlockCat → Fin 6
  | .lumaDC16 => 0
  | .lumaAC16 => 1
  | .luma4x4 => 2
  | .chromaDC => 3
  | .chromaAC => 4
  | .luma8x8 => 5

/-- The first scan index (43_residual_block.md R221). -/
def catStart : BlockCat → Nat
  | .lumaDC16 => 0
  | .lumaAC16 => 1
  | .luma4x4 => 0
  | .chromaDC => 0
  | .chromaAC => 1
  | .luma8x8 => 0

/-- The last scan index (43_residual_block.md R221). -/
def catLast : BlockCat → Nat
  | .lumaDC16 => 15
  | .lumaAC16 => 15
  | .luma4x4 => 15
  | .chromaDC => 3
  | .chromaAC => 15
  | .luma8x8 => 63

/-- The frame or field row of a table (41_context_table.md R156). -/
def fieldIndex (fld : Bool) : Fin 2 := if fld then 1 else 0

/-- `CbfCtx` (41_context_table.md R163), none where `cbf_base[cat]` is NONE. -/
def cbfCtx (m : CtxMap) (cat : BlockCat) (left top : Bool) : Option Nat :=
  (m.cbfBase[catIndex cat]).map fun base => base + ((if top then 2 else 0) + (if left then 1 else 0))

/-- `SigCtx` (41_context_table.md R163); for category 5 it is called with i in 0..62 only. -/
def sigCtx (m : CtxMap) (cat : BlockCat) (fld : Bool) (i : Nat) : Nat :=
  (m.sigBase[fieldIndex fld])[catIndex cat] +
    (if cat = .luma8x8 then ((m.sigInc8[fieldIndex fld])[i]?).getD 0 else i - catStart cat)

/-- `LastCtx` (41_context_table.md R163); for category 5 it is called with i in 0..62 only. -/
def lastCtx (m : CtxMap) (cat : BlockCat) (fld : Bool) (i : Nat) : Nat :=
  (m.lastBase[fieldIndex fld])[catIndex cat] +
    (if cat = .luma8x8 then (m.lastInc8[i]?).getD 0 else i - catStart cat)

/-- `AbsCtx0` (41_context_table.md R163). -/
def absCtx0 (m : CtxMap) (cat : BlockCat) (eq1 gt1 : Nat) : Nat :=
  m.absBase[catIndex cat] + (if gt1 ≠ 0 then 0 else min 4 (1 + eq1))

/-- `AbsCtxN` (41_context_table.md R163). -/
def absCtxN (m : CtxMap) (cat : BlockCat) (gt1 : Nat) : Nat :=
  m.absBase[catIndex cat] + 5 + min (4 - (if cat = .chromaDC then 1 else 0)) gt1

/-- The scan indices `start .. last - 1`, forward (43_residual_block.md R226). -/
def scanForward (cat : BlockCat) : List Nat := List.range' (catStart cat) (catLast cat - catStart cat)

/-- The scan indices `last .. start`, downward (43_residual_block.md R228). -/
def scanReverse (cat : BlockCat) : List Nat := (scanForward cat ++ [catLast cat]).reverse

/-- The indices the check of 43_residual_block.md R223 bounds, none where a coded-block-flag context is
needed that CTXMAP does not have. -/
def blockIndices (m : CtxMap) (cat : BlockCat) (left top fld inferred : Bool) : Option (List Nat) :=
  let rest :=
    (scanForward cat).map (sigCtx m cat fld) ++ (scanForward cat).map (lastCtx m cat fld) ++
      [m.absBase[catIndex cat] + 9]
  if inferred then some rest else (cbfCtx m cat left top).map (· :: rest)

/-- The check before execution (43_residual_block.md R223): every index the command could compute is below 460. -/
def blockIndicesOk (m : CtxMap) (cat : BlockCat) (left top fld inferred : Bool) : Bool :=
  match blockIndices m cat left top fld inferred with
  | some l => l.all fun i => decide (i < 460)
  | none => false

end Sys2Proof.Machine
end

