-- ==== Sys2Proof/Machine/Engine.lean ====
section
/-! DEFINITION. The arithmetic decoder's procedures (42_arithmetic_decoder.md): renormalisation, the regular, terminal and
bypass bin, and the loops over bins that AD.BYPN, AD.BYPU and RB.DECODE share. -/

namespace Sys2Proof.Machine

/-- A width left-shifted by `23 - z` (42_arithmetic_decoder.md R176 step 3, R181). For `z > 23` the spec states no
result: a free value (notes/assumptions/8.md). -/
def scaled (width : Word) (z : Nat) : Word := if z ≤ 23 then width <<< (23 - z) else Config.scaleBeyond width z

/-- What renormalisation hands on: the pair, the cursor's advance, the draws used. -/
structure Interval where
  range : Word
  value : Word
  adv : Nat
  draws : Nat

/-- `Renorm(rng, val)` (42_arithmetic_decoder.md R180). -/
def renorm (rng val : Word) (s : State) : Except CmdError Interval :=
  let z2 := clz32 rng
  let p := s.bitOffset.toNat + readAhead
  if cursorFits s z2 then
    .ok ⟨rng <<< z2, (val <<< z2) ||| bitsAt s p z2, z2, drawsAfter s p z2⟩
  else .error (exhausted 0x04)

/-- Renormalisation where `rng` is below a threshold, the pair as it is otherwise (42_arithmetic_decoder.md R179, R186). -/
def renormBelow (threshold rng val : Word) (s : State) : Except CmdError Interval :=
  if rng < threshold then renorm rng val s else .ok ⟨rng, val, 0, s.draws⟩

/-- The `commit` of a bin: `range`, `value`, `bit_offset` (42_arithmetic_decoder.md R176, R181, R186). -/
def commit (r : Interval) (s : State) : State :=
  { s with
    range := r.range
    value := r.value
    bitOffset := s.bitOffset + BitVec.ofNat 32 r.adv
    draws := r.draws }

/-- The quantized range: bits 30:29 of the left-aligned `range` (42_arithmetic_decoder.md R176 step 2). -/
def quantized (range : Word) : BitVec 2 := (range <<< clz32 range).extractLsb' 29 2

/-- The entry of TRANS at `(state_index << 2) | q` (42_arithmetic_decoder.md R172, R176 step 3). -/
def transAt (p : Params) (st : BitVec 6) (q : BitVec 2) : TransEntry :=
  p.trans[((st.setWidth 8 <<< 2) ||| q.setWidth 8).toNat]'(BitVec.isLt _)

/-- Steps 1 to 5 of a regular bin: the symbol, the sub-interval taken, the entry's next value. -/
structure RegularBin where
  sym : Bool
  range : Word
  value : Word
  entry : ContextEntry

/-- Steps 1 to 5 of `DecodeRegular` and the next entry (42_arithmetic_decoder.md R176, R178). -/
def regularBin (p : Params) (e : ContextEntry) (range value : Word) : RegularBin :=
  let t := transAt p e.stateIndex (quantized range)
  let lps := scaled (t.lps8.setWidth 32) (clz32 range)
  let rng := range - lps
  if rng ≤ value then
    ⟨!e.mps, lps, value - rng, ⟨t.nextLps, if e.stateIndex = 0 then !e.mps else e.mps⟩⟩
  else
    ⟨e.mps, rng, value, ⟨t.nextMps, e.mps⟩⟩

/-- `DecodeRegular(idx, site)` (42_arithmetic_decoder.md R176). -/
def decodeRegular (idx : Nat) (site : Byte) (s : State) : Res Bool :=
  match ctxRef idx site s with
  | .error e => .err e s
  | .ok e =>
    let b := regularBin s.params e s.range s.value
    match renormBelow renormT b.range b.value s with
    | .error err => .err err s
    | .ok r => .ok b.sym (setCtx idx b.entry (commit r s))

/-- `DecodeTerminal()` (42_arithmetic_decoder.md R181). -/
def decodeTerminal (s : State) : Res Bool :=
  let rng := s.range - scaled termWidth (clz32 s.range)
  if rng ≤ s.value then .ok true { s with phase := .terminated }
  else
    match renormBelow renormT rng s.value s with
    | .error err => .err err s
    | .ok r => .ok false (commit r s)

/-- `DecodeBypass()` (42_arithmetic_decoder.md R186). -/
def decodeBypass (s : State) : Res Bool :=
  match renormBelow bypassT s.range s.value s with
  | .error err => .err err s
  | .ok r =>
    let half := r.range >>> 1
    if half ≤ r.value then .ok true (commit { r with range := half, value := r.value - half } s)
    else .ok false (commit { r with range := half } s)

/-- n bypass bins packed first bin most significant onto v (42_arithmetic_decoder.md R188). -/
def bypassBits : Nat → Word → State → Res Word
  | 0, v, s => .ok v s
  | n + 1, v, s => (decodeBypass s).bind fun b s => bypassBits n ((v <<< 1) ||| bitWord b) s

/-- Bypass bins until a 0 or until `left` more ones (42_arithmetic_decoder.md R189), counting ones onto c. -/
def bypassUnary : Nat → Nat → State → Res Nat
  | 0, c, s => .ok c s
  | left + 1, c, s => (decodeBypass s).bind fun b s => if b then bypassUnary left (c + 1) s else .ok c s

/-- `phase <- DECODING`, at the end of a bin command (10_state.md R32). -/
def setDecoding (s : State) : State := { s with phase := .decoding }

end Sys2Proof.Machine
end

