-- ==== Sys2Proof/Machine/ArithmeticDecoder.lean ====
section
/-! DEFINITION. The ArithmeticDecoder commands (42_arithmetic_decoder.md). -/

namespace Sys2Proof.Machine

/-- AD.INIT (42_arithmetic_decoder.md R175). -/
def execAdInit (s : State) : Host.Outcome State Fault Refusal :=
  gated s.cursorValid s
    (answer
      (if cursorFits s initFlush then
        .ok 0 { commit ⟨rangeInit, bitsAt s s.bitOffset.toNat initPeek, initFlush,
            drawsAfter s s.bitOffset.toNat initPeek⟩ s with phase := .ready }
      else .err (exhausted 0x03) s))

/-- AD.BIN (42_arithmetic_decoder.md R177). -/
def execAdBin (idx : BitVec 16) (s : State) : Host.Outcome State Fault Refusal :=
  gated (contextBinAdmitted s) s
    (answer ((decodeRegular idx.toNat 0x20 s).bind fun b t => .ok (bitWord b) (setDecoding t)))

/-- AD.TERM (42_arithmetic_decoder.md R182). -/
def execAdTerm (s : State) : Host.Outcome State Fault Refusal :=
  gated (phaseActive s) s
    (answer ((decodeTerminal s).bind fun b t => .ok (bitWord b) (if b then t else setDecoding t)))

/-- AD.BYP (42_arithmetic_decoder.md R187). -/
def execAdByp (s : State) : Host.Outcome State Fault Refusal :=
  gated (phaseActive s) s
    (answer ((decodeBypass s).bind fun b t => .ok (bitWord b) (setDecoding t)))

/-- AD.BYPN (42_arithmetic_decoder.md R188). -/
def execAdBypn (n : Byte) (s : State) : Host.Outcome State Fault Refusal :=
  inCountRange n s (gated (phaseActive s) s
    (answer ((bypassBits n.toNat 0 s).bind fun v t => .ok v (setDecoding t))))

/-- AD.BYPU (42_arithmetic_decoder.md R189). -/
def execAdBypu (max : Byte) (s : State) : Host.Outcome State Fault Refusal :=
  gated (phaseActive s) s
    (answer ((bypassUnary max.toNat 0 s).bind fun c t => .ok (BitVec.ofNat 32 c) (setDecoding t)))

/-- AD.REALIGN (42_arithmetic_decoder.md R183). -/
def execAdRealign (s : State) : Host.Outcome State Fault Refusal :=
  gated (s.phase == .terminated) s
    (answer ((advance (clz32 s.range) 0x05 s).bind fun _ t =>
      .ok (BitVec.ofNat 32 (clz32 s.range)) { t with phase := .idle }))

end Sys2Proof.Machine
end

