-- ==== Sys2Proof/Machine/BitCursor.lean ====
section
/-! DEFINITION. The BitCursor commands (40_bitcursor.md). -/

namespace Sys2Proof.Machine

/-- BC.OPEN binds the cursor to BUF (40_bitcursor.md R121); a new unit ends what
70_reset_and_hazards.md R313 asks of the old one. -/
def openUnit (max : Word) (s : State) : State :=
  { s with
    bitOffset := 0
    maxBitOffset := max
    cursorValid := true
    ctxValid := false
    phase := .idle
    bufRewritten := false }

/-- BC.OPEN (40_bitcursor.md R121). -/
def execBcOpen (max : Word) (s : State) : Host.Outcome State Fault Refusal :=
  if 32 * s.params.bufWords < max.toNat then refuse ⟨.invalidUnitParameters, 0x10⟩ s
  else .next (complete 0 (openUnit max s))

/-- Reading n bits and moving past them (40_bitcursor.md R123, R124); a refused read draws nothing. -/
def consumeBits (n : Nat) (s : State) : Res Word :=
  (advance n 0x01 s).bind fun _ t =>
    .ok (bitsAt s s.bitOffset.toNat n) { t with draws := drawsAfter s s.bitOffset.toNat n }

/-- BC.RDBIT (40_bitcursor.md R123). -/
def execBcRdbit (s : State) : Host.Outcome State Fault Refusal :=
  gated (consumeAdmitted s) s (answer (consumeBits 1 s))

/-- BC.RDBITS (40_bitcursor.md R124). -/
def execBcRdbits (n : Byte) (s : State) : Host.Outcome State Fault Refusal :=
  inCountRange n s (gated (consumeAdmitted s) s (answer (consumeBits n.toNat s)))

/-- BC.PEEK (40_bitcursor.md R125). -/
def execBcPeek (n : Byte) (s : State) : Host.Outcome State Fault Refusal :=
  inCountRange n s (gated s.cursorValid s (.next (complete (bitsAt s s.bitOffset.toNat n.toNat)
    { s with draws := drawsAfter s s.bitOffset.toNat n.toNat })))

/-- BC.FLUSH (40_bitcursor.md R126). -/
def execBcFlush (n : Word) (s : State) : Host.Outcome State Fault Refusal :=
  gated (consumeAdmitted s) s (answer ((advance n.toNat 0x02 s).bind fun _ t => .ok 0 t))

/-- BC.ALIGNED (40_bitcursor.md R127). -/
def execBcAligned (s : State) : Host.Outcome State Fault Refusal :=
  gated s.cursorValid s (.next (complete (if s.bitOffset.toNat % 8 = 0 then 1 else 0) s))

/-- BC.MORE (40_bitcursor.md R128). -/
def execBcMore (s : State) : Host.Outcome State Fault Refusal :=
  gated s.cursorValid s (.next (complete (if s.bitOffset < s.maxBitOffset then 1 else 0) s))

end Sys2Proof.Machine
end

