-- ==== Sys2Proof/Machine/ContextTable.lean ====
section
/-! DEFINITION. The ContextTable commands (41_context_table.md). -/

namespace Sys2Proof.Machine

/-- CT.INIT (41_context_table.md R159). -/
def execCtInit (unitClass initParam quantParam : Byte) (aux : Bool) (s : State) :
    Host.Outcome State Fault Refusal :=
  match initOperandError s unitClass initParam quantParam with
  | some e => refuse e s
  | none =>
    .next (complete 0 { s with
      ctx := ctxInit s.params ⟨unitClass, initParam, aux, quantParam⟩
      unitCfg := packUnitCfg unitClass initParam quantParam aux
      ctxValid := true })

/-- CT.GET (41_context_table.md R161). -/
def execCtGet (idx : BitVec 16) (s : State) : Host.Outcome State Fault Refusal :=
  gated s.ctxValid s
    (match ctxRef idx.toNat 0x20 s with
    | .error e => refuse e s
    | .ok e => .next (complete ((packEntry e).setWidth 32) s))

end Sys2Proof.Machine
end

