-- ==== Sys2Proof/Machine/ResidualBlock.lean ====
section
/-! DEFINITION. RB.DECODE (43_residual_block.md): the forward scan, the reverse scan of magnitudes, the output block. -/

namespace Sys2Proof.Machine

/-- The working values of step 3 (10_state.md R40): the two counters and the levels so far, last decoded first. -/
structure LevelScan where
  eq1 : Nat
  gt1 : Nat
  levels : List Word

/-- Step 1: the coded-block flag (43_residual_block.md R224). `blockIndicesOk` has excluded a missing base. -/
def codedBlockFlag (cat : BlockCat) (left top inferred : Bool) (s : State) : Res Bool :=
  if inferred then .ok true s
  else
    match cbfCtx s.params.ctxMap cat left top with
    | some idx => decodeRegular idx 0x21 s
    | none => .err ⟨.logicInvariantViolation, 0x21⟩ s

/-- Step 2 over the scan indices that remain (43_residual_block.md R226): the bitmap, and whether a last-flag bin
returned 1. -/
def significanceScan (cat : BlockCat) (fld : Bool) : List Nat → BitVec 64 → State → Res (BitVec 64 × Bool)
  | [], sig, s => .ok (sig, false) s
  | i :: rest, sig, s =>
    (decodeRegular (sigCtx s.params.ctxMap cat fld i) 0x21 s).bind fun b s =>
      if b then
        (decodeRegular (lastCtx s.params.ctxMap cat fld i) 0x21 s).bind fun last s =>
          if last then .ok (sig ||| 1#64 <<< i, true) s
          else significanceScan cat fld rest (sig ||| 1#64 <<< i) s
      else significanceScan cat fld rest sig s

/-- Step 2 whole: a scan that was not stopped marks the last index (43_residual_block.md R227). -/
def significanceMap (cat : BlockCat) (fld : Bool) (s : State) : Res (BitVec 64) :=
  (significanceScan cat fld (scanForward cat) 0 s).bind fun (sig, stopped) s =>
    .ok (if stopped then sig else sig ||| 1#64 <<< catLast cat) s

/-- The unary prefix: at most `left` more bins, the next with context `idx`, every later one with `AbsCtxN`
(43_residual_block.md R229). -/
def magnitudePrefix (cat : BlockCat) (gt1 : Nat) : Nat → Nat → Nat → State → Res Nat
  | 0, count, _, s => .ok count s
  | left + 1, count, idx, s =>
    (decodeRegular idx 0x21 s).bind fun b s =>
      if b then magnitudePrefix cat gt1 left (count + 1) (absCtxN s.params.ctxMap cat gt1) s else .ok count s

/-- The bypass suffix of an escaped magnitude: `14 + (1 << k) + v` (43_residual_block.md R230). -/
def magnitudeSuffix (s : State) : Res Word :=
  (bypassUnary suffixUnaryCap 0 s).bind fun k s =>
    (bypassBits k 0 s).bind fun v s => .ok (BitVec.ofNat 32 prefixCap + (1#32 <<< k) + v) s

/-- One magnitude (43_residual_block.md R229, R230). -/
def magnitude (cat : BlockCat) (eq1 gt1 : Nat) (s : State) : Res Word :=
  (magnitudePrefix cat gt1 prefixCap 0 (absCtx0 s.params.ctxMap cat eq1 gt1) s).bind fun count s =>
    if count = prefixCap then magnitudeSuffix s else .ok (1 + BitVec.ofNat 32 count) s

/-- The counters after a coefficient (43_residual_block.md R236) and the level (R231) at the head. -/
def nextLevel (l : LevelScan) (mag : Word) (negative : Bool) : LevelScan where
  eq1 := if 1 < mag then l.eq1 else if l.gt1 = 0 then min counterCap (l.eq1 + 1) else l.eq1
  gt1 := if 1 < mag then min counterCap (l.gt1 + 1) else l.gt1
  levels := (if negative then 0 - mag else mag) :: l.levels

/-- Step 3 over the scan indices that remain, downward (43_residual_block.md R228). -/
def levelScan (cat : BlockCat) (sig : BitVec 64) : List Nat → LevelScan → State → Res LevelScan
  | [], l, s => .ok l s
  | i :: rest, l, s =>
    if sig.getLsbD i then
      (magnitude cat l.eq1 l.gt1 s).bind fun mag s =>
        (decodeBypass s).bind fun sign s => levelScan cat sig rest (nextLevel l mag sign) s
    else levelScan cat sig rest l s

/-- OUT_LEVEL with the levels in decode order, and what `rest` gives from there on (43_residual_block.md R225 step 4). -/
def levelRegisters (levels : List Word) (rest : Vector Word 64) : Vector Word 64 :=
  Vector.ofFn fun j => (levels[j.val]?).getD rest[j]

/-- Step 4 (43_residual_block.md R225, R234): the entries of OUT_LEVEL beyond the levels hold no defined value. -/
def storeBlock (sig : BitVec 64) (levels : List Word) (s : State) : State :=
  { s with
    outCbf := true
    outSig := sig
    outNLevels := BitVec.ofNat 7 levels.length
    outLevel := levelRegisters levels (freeContents s).outLevel
    outValid := true
    draws := s.draws + 1 }

/-- The output block of a block whose coded-block flag is 0 (43_residual_block.md R225 step 1, R238). -/
def storeEmptyBlock (s : State) : State :=
  { s with
    outCbf := false
    outSig := 0
    outNLevels := 0
    outLevel := (freeContents s).outLevel
    outValid := true
    draws := s.draws + 1 }

/-- After a failure the output registers hold no defined value (43_residual_block.md R237). -/
def loseBlock (s : State) : State :=
  let u := freeContents s
  { s with
    outCbf := u.outCbf
    outSig := u.outSig
    outNLevels := u.outNLevels
    outLevel := u.outLevel
    draws := s.draws + 1 }

/-- Steps 2 to 4 (43_residual_block.md R225), the result word of R235. -/
def decodeCodedBlock (cat : BlockCat) (fld : Bool) (s : State) : Res Word :=
  (significanceMap cat fld s).bind fun sig s =>
    (levelScan cat sig (scanReverse cat) ⟨0, 0, []⟩ s).bind fun l s =>
      .ok ((BitVec.ofNat 32 l.levels.length <<< 8) ||| 1) (storeBlock sig l.levels.reverse s)

/-- The execution of RB.DECODE (43_residual_block.md R225): `out_valid` falls first; an error leaves the output
block without a defined value (R237). -/
def decodeBlock (cat : BlockCat) (left top fld inferred : Bool) (s : State) : Res Word :=
  let r := (codedBlockFlag cat left top inferred { s with outValid := false }).bind fun cbf s =>
    if cbf then decodeCodedBlock cat fld s else .ok 0 (storeEmptyBlock s)
  match r with
  | .ok v s => .ok v (setDecoding s)
  | .err e s => .err e (loseBlock s)

/-- RB.DECODE (43_residual_block.md R222, R223, R225). -/
def execRbDecode (cat : BlockCat) (left top fld inferred : Bool) (s : State) :
    Host.Outcome State Fault Refusal :=
  gated (contextBinAdmitted s) s
    (if blockIndicesOk s.params.ctxMap cat left top fld inferred then
      answer (decodeBlock cat left top fld inferred s)
    else refuse ⟨.logicInvariantViolation, 0x21⟩ s)

end Sys2Proof.Machine
end

