-- ==== Sys2Proof/Machine/System.lean ====
section
/-! DEFINITION. The system commands NOP, RESET, RDREG (44_system.md). -/

namespace Sys2Proof.Machine

/-- NOP (44_system.md R260). -/
def execNop (s : State) : Host.Outcome State Fault Refusal := .next (complete 0 s)

/-- RESET (44_system.md R261). -/
def execReset (s : State) : Host.Outcome State Fault Refusal := .next (complete 0 (resetCore s))

/-- RDREG (44_system.md R263, R264). -/
def execRdreg (reg : Reg) (s : State) : Host.Outcome State Fault Refusal :=
  gated (regReadable s reg) s (.next (complete (regValue s reg) s))

end Sys2Proof.Machine
end

