-- ==== Sys2Proof/Machine/Dispatch.lean ====
section
/-! DEFINITION. One command at a state: one arm per constructor of Instr. -/

namespace Sys2Proof.Machine

def exec (i : Instr) (s : State) : Host.Outcome State Fault Refusal :=
  match i with
  | .nop => Sys2Proof.Machine.execNop s
  | .reset => Sys2Proof.Machine.execReset s
  | .rdreg reg => Sys2Proof.Machine.execRdreg reg s
  | .bcOpen max => Sys2Proof.Machine.execBcOpen max s
  | .bcRdbit => Sys2Proof.Machine.execBcRdbit s
  | .bcRdbits n => Sys2Proof.Machine.execBcRdbits n s
  | .bcPeek n => Sys2Proof.Machine.execBcPeek n s
  | .bcFlush n => Sys2Proof.Machine.execBcFlush n s
  | .bcAligned => Sys2Proof.Machine.execBcAligned s
  | .bcMore => Sys2Proof.Machine.execBcMore s
  | .ctInit unitClass initParam quantParam aux => Sys2Proof.Machine.execCtInit unitClass initParam quantParam aux s
  | .ctGet idx => Sys2Proof.Machine.execCtGet idx s
  | .adInit => Sys2Proof.Machine.execAdInit s
  | .adBin idx => Sys2Proof.Machine.execAdBin idx s
  | .adTerm => Sys2Proof.Machine.execAdTerm s
  | .adByp => Sys2Proof.Machine.execAdByp s
  | .adBypn n => Sys2Proof.Machine.execAdBypn n s
  | .adBypu max => Sys2Proof.Machine.execAdBypu max s
  | .adRealign => Sys2Proof.Machine.execAdRealign s
  | .rbDecode cat left top fld inferred => Sys2Proof.Machine.execRbDecode cat left top fld inferred s

end Sys2Proof.Machine
end

