-- ==== Sys2Proof/Machine/Command.lean ====
section
/-! DEFINITION. What each action of the host does to the core, and handing the next one over. -/

namespace Sys2Proof.Machine

/-- The host's next action (10_state.md R22: the program is a list and an index into it). -/
def nextAction (s : State) : Option HostAction := s.program[s.programIndex]?

/-- The host moves on by one (10_state.md R22). -/
def hostAdvance (s : State) : State := { s with programIndex := s.programIndex + 1 }

/-- A command word at the port (30_encoding.md R90, R101): refused with IllegalCommand where it decodes to no
command, else executed. -/
def runCommand (w : Word64) (s : State) : Host.Outcome State Fault Refusal :=
  match decode w with
  | .ok i => exec i s
  | .error d => refuse (illegal d) s

/-- The host writes a byte of BUF (20_memory.md R60, R65). While a unit is open on it
70_reset_and_hazards.md R313 forbids the write, and every later read of that unit is open. -/
def hostWrite (k : Nat) (b : Byte) (s : State) : Host.Outcome State Fault Refusal :=
  if k < 4 * s.params.bufWords then
    .next { s with
      buf := memWrite s.buf k b
      bufRewritten := s.bufRewritten || s.cursorValid
      response := none }
  else .fault .hostWriteOutsideBuf

/-- Hardware reset between two commands (70_reset_and_hazards.md R300, R301): as RESET, without a response. -/
def hardwareReset (s : State) : State := { resetCore s with response := none }

/-- One action of the host. -/
def act (a : HostAction) (s : State) : Host.Outcome State Fault Refusal :=
  match a with
  | .command w => runCommand w s
  | .writeBuf k b => hostWrite k b s
  | .hardwareReset => .next (hardwareReset s)

/-- The program with a command word at the host's index, every other entry as it was. -/
def placeCommand (w : Word64) (s : State) : State :=
  let before := s.program.take s.programIndex
  { s with
    program := before ++ .command w :: s.program.drop (s.programIndex + 1)
    programIndex := before.length }

end Sys2Proof.Machine
end

