-- ==== Sys2Proof/Machine/Step.lean ====
section
/-! DEFINITION. One step: the host's next action, or nothing where the host holds the core idle. -/

namespace Sys2Proof.Machine

/-- One step. Where the host's program has run out the core is idle and keeps its state (60_exceptions.md R288, R293). -/
def step (s : State) : Host.Outcome State Fault Refusal :=
  match nextAction s with
  | none => .next s
  | some a => act a (hostAdvance s)

/-- s with a command word as the host's next action (notes/assumptions/7.md); the opcode table numbers a
command word's bits as 30_encoding.md R92 does. -/
def State.withFetchWord (s : State) (nbits w : Nat) : State :=
  placeCommand (BitVec.ofNat 64 (w % 2 ^ nbits)) s

end Sys2Proof.Machine
end

