-- ==== Sys2Proof/Machine/Platform.lean ====
section
/-! DEFINITION. A platform of several core instances (10_state.md R48; 60_exceptions.md R292): independent copies. -/

namespace Sys2Proof.Machine

/-- The `N_INSTANCES` instances of a platform. Their free values (draws, unwritten bytes, unspecified contents) are
independent where their `params.freeStream` differs, and a claim about every platform covers that case
(notes/assumptions/21.md). -/
abbrev Platform := List State

/-- At least one instance (00_scope.md R10), every one with the same read-only tables (60_exceptions.md R292). -/
def platformWf (p : Platform) : Bool :=
  match p with
  | [] => false
  | s :: rest => rest.all fun t => t.params.trans == s.params.trans && t.params.ctxInit == s.params.ctxInit

/-- One step of instance k; an instance that stops leaves the platform without a step. -/
def platformStep (k : Nat) (p : Platform) : Option Platform :=
  match p[k]? with
  | none => none
  | some s =>
    match step s with
    | .next t => some (p.set k t)
    | .fault _ => none
    | .refused _ => none

end Sys2Proof.Machine
end

