-- ==== Sys2Proof/Safety.lean ====
section
/-! DEFINITION. What counts as a safe state and a safe run: the conditions the spec states of parameters and registers, in
the terms the claims use. -/

namespace Sys2Proof.Safety

open Sys2Proof.Machine

/-- `TRANS` is well formed (42_arithmetic_decoder.md R172): every LPS width is at least 1. -/
def transWf (p : Params) : Prop := ∀ k : Fin 256, p.trans[k].lps8 ≠ 0

/-- `CTXMAP` is well formed (41_context_table.md R156): every index that the check of 43_residual_block.md R223 bounds is
below 460, for every category (any may be decoded with `inferred_cbf = 1`). For category 3 R163's formulas reach
`abs_base + 8` only, while R223 checks `abs_base + 9` and says that a well-formed CTXMAP passes it; the model takes
`abs_base + 9` here too. DESIGN CHOICE (notes/assumptions/20.md). -/
def ctxMapWf (m : CtxMap) : Prop :=
  ∀ cat left top fld, blockIndicesOk m cat left top fld true = true ∧
    (cbfCtx m cat left top ≠ none → blockIndicesOk m cat left top fld false = true)

/-- The premises on the OPEN parameters (00_scope.md R10). -/
def paramsWf (p : Params) : Prop :=
  1 ≤ p.bufWords ∧ p.bufWords ≤ 2 ^ 27 ∧ 1 ≤ p.nInitParam ∧ p.nInitParam ≤ 256 ∧ transWf p ∧ ctxMapWf p.ctxMap

/-- 10_state.md R23, R24: the cursor does not pass the last valid bit; 40_bitcursor.md R121: that bit lies inside BUF. -/
def CursorInBounds (s : State) : Prop :=
  s.cursorValid = true → s.bitOffset ≤ s.maxBitOffset ∧ s.maxBitOffset.toNat ≤ 32 * s.params.bufWords

/-- 30_encoding.md R100: every phase but IDLE implies `cursor_valid = 1`. -/
def PhaseHasCursor (s : State) : Prop := s.phase ≠ .idle → s.cursorValid = true

/-- 42_arithmetic_decoder.md R200 (i) and (ii) of one interval width. -/
def RangeAligned (r : Word) : Prop := 0x100 ≤ r ∧ r.toNat % 2 ^ (23 - clz32 r) = 0

/-- 42_arithmetic_decoder.md R200, while the decoder is active or terminated (R181 leaves `range` as it was). -/
def IntervalAligned (s : State) : Prop := decoderReadable s = true → RangeAligned s.range

/-- 42_arithmetic_decoder.md R201: interval containment. -/
def ValueBelowRange (s : State) : Prop := s.value < s.range

/-- 10_state.md R39: the output block's consistency while it is valid. -/
def OutputConsistent (s : State) : Prop :=
  s.outValid = true →
    popcount s.outSig = s.outNLevels.toNat ∧
    (∀ j : Fin 64, j.val < s.outNLevels.toNat → s.outLevel[j] ≠ 0) ∧
    (s.outCbf = false → s.outSig = 0 ∧ s.outNLevels = 0)

/-- BUF is in its canonical form and lies inside its words (20_memory.md R60). -/
def BufCanonical (s : State) : Prop :=
  memWf s.buf = true ∧ ∀ c ∈ s.buf, c.1 < 4 * s.params.bufWords

/-- A safe run: no step of it stops. -/
def RunsFor (k : Nat) (s : State) : Prop := ∃ t, Host.Core.run Sys2Proof.core k s = .next t

end Sys2Proof.Safety
end

