-- ==== Sys2Proof/Certificates/Slice0/Obligations.lean ====
section
/-! DEFINITION. The statements for the provers, from the spec's numbered rules. What is said here of responses, of admission and
of the tables of commands is written out again from the rules, not taken from Machine/. -/

namespace Sys2Proof.Claims

open Sys2Proof.Machine

/-! ## The spec's own words for how a command ends -/

/-- The response of a command that ends with OK (30_encoding.md R93): zero, info 0, status 0, the result. -/
def okWith (result : Word) (t : State) : State := { t with response := some (0#32 ++ result) }

/-- A refused command (60_exceptions.md R280, R281): LASTERR and the response, nothing else. -/
def refusedWith (code info : Byte) (s : State) : State :=
  { s with lastErr := info ++ code, response := some (0#16 ++ info ++ code ++ 0#32) }

/-- A BufferExhausted that aborts the unit and commits nothing (60_exceptions.md R273 grade (b), R280). -/
def abortedWith (info : Byte) (s : State) : State := { refusedWith 1 info s with phase := .failed }

/-- The last command was answered with this status, information byte and result (30_encoding.md R93). -/
def Answered (t : State) (code info : Byte) (result : Word) : Prop :=
  t.response = some (0#16 ++ info ++ code ++ result)

/-- `phase` is READY or DECODING. -/
def Active (s : State) : Prop := s.phase = .ready ∨ s.phase = .decoding

/-- `phase` is IDLE or FAILED. -/
def Inactive (s : State) : Prop := s.phase = .idle ∨ s.phase = .failed

/-- The information byte of BadState: `phase` in bits 2:0, `cursor_valid` in bit 3, `ctx_valid` in bit 4,
`out_valid` in bit 5 (30_encoding.md R100; 10_state.md R31 for the codes). -/
def stateByte (s : State) : Byte :=
  BitVec.ofNat 8
    ((match s.phase with
      | .idle => 0
      | .ready => 1
      | .decoding => 2
      | .terminated => 3
      | .failed => 4) +
      (if s.cursorValid then 8 else 0) + (if s.ctxValid then 16 else 0) + (if s.outValid then 32 else 0))

/-- The admission table (30_encoding.md R100), for RDREG the last column of 10_state.md R43. -/
def Admitted (s : State) : Instr → Prop
  | .nop => True
  | .reset => True
  | .bcOpen _ => True
  | .ctInit _ _ _ _ => True
  | .rdreg .status => True
  | .rdreg .lastErr => True
  | .rdreg .bitOffset => s.cursorValid = true
  | .rdreg .maxBitOffset => s.cursorValid = true
  | .rdreg .range => Active s ∨ s.phase = .terminated
  | .rdreg .value => Active s ∨ s.phase = .terminated
  | .rdreg .unitCfg => s.ctxValid = true
  | .rdreg .outCbf => s.outValid = true
  | .rdreg .outNLevels => s.outValid = true
  | .rdreg .outSigLo => s.outValid = true
  | .rdreg .outSigHi => s.outValid = true
  | .rdreg (.outLevel j) => s.outValid = true ∧ j.val < s.outNLevels.toNat
  | .bcPeek _ => s.cursorValid = true
  | .bcAligned => s.cursorValid = true
  | .bcMore => s.cursorValid = true
  | .bcRdbit => s.cursorValid = true ∧ Inactive s
  | .bcRdbits _ => s.cursorValid = true ∧ Inactive s
  | .bcFlush _ => s.cursorValid = true ∧ Inactive s
  | .ctGet _ => s.ctxValid = true
  | .adInit => s.cursorValid = true
  | .adBin _ => Active s ∧ s.ctxValid = true
  | .rbDecode _ _ _ _ _ => Active s ∧ s.ctxValid = true
  | .adTerm => Active s
  | .adByp => Active s
  | .adBypn _ => Active s
  | .adBypu _ => Active s
  | .adRealign => s.phase = .terminated

/-! ## The spec's tables of commands -/

/-- The twenty opcodes (30_encoding.md R95). -/
def opcodes : List Byte :=
  [0x00, 0x01, 0x02, 0x10, 0x11, 0x12, 0x13, 0x14, 0x15, 0x16, 0x20, 0x21, 0x30, 0x31, 0x32, 0x33, 0x34, 0x35,
    0x36, 0x40]

/-- Per opcode the reserved bits of the word: "mask" of spec/opcode_table.json less the `op` byte
(30_encoding.md R94, R97). -/
def reservedBits : List (Byte × Word64) :=
  [(0x00, 0x00FFFFFFFFFFFFFF), (0x01, 0x00FFFFFFFFFFFFFF), (0x02, 0x00FFFFFFFFFF0000),
    (0x10, 0x00FFFFFF00000000), (0x11, 0x00FFFFFFFFFFFFFF), (0x12, 0x0000FFFFFFFFFFFF),
    (0x13, 0x0000FFFFFFFFFFFF), (0x14, 0x00FFFFFF00000000), (0x15, 0x00FFFFFFFFFFFFFF),
    (0x16, 0x00FFFFFFFFFFFFFF), (0x20, 0x00000000FFFFFFFE), (0x21, 0x00FFFFFFFFFF0000),
    (0x30, 0x00FFFFFFFFFFFFFF), (0x31, 0x00FFFFFFFFFF0000), (0x32, 0x00FFFFFFFFFFFFFF),
    (0x33, 0x00FFFFFFFFFFFFFF), (0x34, 0x0000FFFFFFFFFFFF), (0x35, 0x0000FFFFFFFFFFFF),
    (0x36, 0x00FFFFFFFFFFFFFF), (0x40, 0x0000F0FFFFFFFFFF)]

/-- An operand outside its encoded range (30_encoding.md R98): `a > 32` in BC.RDBITS, BC.PEEK and AD.BYPN,
`a > 5` in RB.DECODE, a register number in RDREG that 10_state.md R43 does not list. -/
def OperandOutOfRange (w : Word64) : Prop :=
  let op := w.extractLsb' 56 8
  let a := (w.extractLsb' 48 8).toNat
  let reg := (w.extractLsb' 0 16).toNat
  ((op = 0x12 ∨ op = 0x13 ∨ op = 0x34) ∧ 32 < a) ∨ (op = 0x40 ∧ 5 < a) ∨
    (op = 0x02 ∧ ¬ (reg ≤ 0x0A ∨ (0x40 ≤ reg ∧ reg ≤ 0x7F)))

/-- Which command can return which status and information byte (60_exceptions.md R278); an OK has information
byte 0 (30_encoding.md R93), and BadState the state's (60_exceptions.md R272). -/
def StatusAllowed (s : State) (op code info : Byte) : Prop :=
  (code = 0 ∧ info = 0 ∧ op ∈ opcodes) ∨
  (code = 4 ∧ info = 0x01 ∧ op ∉ opcodes) ∨
  (code = 4 ∧ info = 0x02 ∧ op ∈ opcodes) ∨
  (code = 4 ∧ info = 0x03 ∧ op ∈ ([0x02, 0x12, 0x13, 0x34, 0x40] : List Byte)) ∨
  (code = 5 ∧ info = stateByte s ∧ op ∈ opcodes ∧ op ∉ ([0x00, 0x01, 0x10, 0x20] : List Byte)) ∨
  (op, code, info) ∈ ([(0x11, 1, 0x01), (0x12, 1, 0x01), (0x14, 1, 0x02), (0x30, 1, 0x03), (0x31, 1, 0x04),
    (0x32, 1, 0x04), (0x33, 1, 0x04), (0x34, 1, 0x04), (0x35, 1, 0x04), (0x40, 1, 0x04), (0x36, 1, 0x05),
    (0x10, 2, 0x10), (0x20, 2, 0x11), (0x20, 2, 0x12), (0x20, 2, 0x13), (0x21, 3, 0x20), (0x31, 3, 0x20),
    (0x40, 3, 0x21)] : List (Byte × Byte × Byte))

/-- The phase after a command, from its status, its result and the phase before (10_state.md R32). -/
def phaseAfter (i : Instr) (code : Byte) (result : Word) (p : Phase) : Phase :=
  match i with
  | .reset => .idle
  | .bcOpen _ => if code = 0 then .idle else p
  | .adInit => if code = 0 then .ready else if code = 1 then .failed else p
  | .adBin _ => if code = 0 then .decoding else if code = 1 then .failed else p
  | .adByp => if code = 0 then .decoding else if code = 1 then .failed else p
  | .adBypn _ => if code = 0 then .decoding else if code = 1 then .failed else p
  | .adBypu _ => if code = 0 then .decoding else if code = 1 then .failed else p
  | .rbDecode _ _ _ _ _ => if code = 0 then .decoding else if code = 1 then .failed else p
  | .adTerm => if code = 0 then (if result = 0 then .decoding else .terminated) else if code = 1 then .failed else p
  | .adRealign => if code = 0 then .idle else if code = 1 then .failed else p
  | .nop => p
  | .rdreg _ => p
  | .bcRdbit => p
  | .bcRdbits _ => p
  | .bcPeek _ => p
  | .bcFlush _ => p
  | .bcAligned => p
  | .bcMore => p
  | .ctInit _ _ _ _ => p
  | .ctGet _ => p

/-- The groups of registers of 10_state.md R21 that have the same writers. -/
inductive RegGroup where
  | bitOffset
  | binding
  | interval
  | phase
  | contexts
  | ctxValid
  | unitCfg
  | outputs
deriving DecidableEq, Repr

/-- The column "written by" of 10_state.md R21, read by command. RESET writes every item (44_system.md R261). -/
def writtenBy : Instr → List RegGroup
  | .nop => []
  | .reset => [.bitOffset, .binding, .interval, .phase, .contexts, .ctxValid, .unitCfg, .outputs]
  | .rdreg _ => []
  | .bcOpen _ => [.bitOffset, .binding, .phase, .ctxValid]
  | .bcRdbit => [.bitOffset]
  | .bcRdbits _ => [.bitOffset]
  | .bcPeek _ => []
  | .bcFlush _ => [.bitOffset]
  | .bcAligned => []
  | .bcMore => []
  | .ctInit _ _ _ _ => [.contexts, .ctxValid, .unitCfg]
  | .ctGet _ => []
  | .adInit => [.bitOffset, .interval, .phase]
  | .adBin _ => [.bitOffset, .interval, .phase, .contexts]
  | .adTerm => [.bitOffset, .interval, .phase]
  | .adByp => [.bitOffset, .interval, .phase]
  | .adBypn _ => [.bitOffset, .interval, .phase]
  | .adBypu _ => [.bitOffset, .interval, .phase]
  | .adRealign => [.bitOffset, .phase]
  | .rbDecode _ _ _ _ _ => [.bitOffset, .interval, .phase, .contexts, .outputs]

/-- The bin commands. -/
def isBinCommand : Instr → Bool
  | .adBin _ => true
  | .adTerm => true
  | .adByp => true
  | .adBypn _ => true
  | .adBypu _ => true
  | .rbDecode _ _ _ _ _ => true
  | _ => false

/-- The BC.* commands but BC.OPEN. -/
def isCursorCommand : Instr → Bool
  | .bcRdbit => true
  | .bcRdbits _ => true
  | .bcPeek _ => true
  | .bcFlush _ => true
  | .bcAligned => true
  | .bcMore => true
  | _ => false

/-- `start` and `last` of a category (43_residual_block.md R221). -/
def scanBounds : BlockCat → Nat × Nat
  | .lumaDC16 => (0, 15)
  | .lumaAC16 => (1, 15)
  | .luma4x4 => (0, 15)
  | .chromaDC => (0, 3)
  | .chromaAC => (1, 15)
  | .luma8x8 => (0, 63)

/-! ## Runs of single-bin commands -/

/-- n AD.BYP commands one after the other, each answered OK: their bins in order and the state after the last. -/
def bypRun : Nat → State → Option (List Bool × State)
  | 0, s => some ([], s)
  | n + 1, s =>
    match exec .adByp s with
    | .next t =>
      if t.response = some 1 then (bypRun n t).map fun (bins, u) => (true :: bins, u)
      else if t.response = some 0 then (bypRun n t).map fun (bins, u) => (false :: bins, u)
      else none
    | .fault _ => none
    | .refused _ => none

/-- AD.BYP commands until one returns 0 or n have returned 1, each answered OK: the ones and the state after the last. -/
def bypUntilZero : Nat → State → Option (Nat × State)
  | 0, s => some (0, s)
  | n + 1, s =>
    match exec .adByp s with
    | .next t =>
      if t.response = some 1 then (bypUntilZero n t).map fun (ones, u) => (ones + 1, u)
      else if t.response = some 0 then some (0, t)
      else none
    | .fault _ => none
    | .refused _ => none

/-- Bins packed first bin most significant. -/
def msbFirst (bins : List Bool) : Nat := bins.foldl (fun v b => 2 * v + b.toNat) 0

/-- Single-bin commands one after the other, each answered OK: their bins in order and the state after the last. -/
def runBins : List Instr → State → Option (List Bool × State)
  | [], s => some ([], s)
  | i :: rest, s =>
    match exec i s with
    | .next t =>
      if t.response = some 1 then (runBins rest t).map fun (bins, u) => (true :: bins, u)
      else if t.response = some 0 then (runBins rest t).map fun (bins, u) => (false :: bins, u)
      else none
    | .fault _ => none
    | .refused _ => none

/-! ## What a block's bins mean (43_residual_block.md R225), over lists, the bins not used handed on -/

/-- A run of ones: up to the first 0, which is used, or up to `cap` ones. -/
def onesOf : Nat → List Bool → Option (Nat × List Bool)
  | 0, bins => some (0, bins)
  | _ + 1, [] => none
  | _ + 1, false :: bins => some (0, bins)
  | cap + 1, true :: bins => (onesOf cap bins).map fun (c, bins) => (c + 1, bins)

/-- n bins as a number, first bin most significant. -/
def numberOf (n : Nat) (bins : List Bool) : Option (Nat × List Bool) :=
  if n ≤ bins.length then some (msbFirst (bins.take n), bins.drop n) else none

/-- A magnitude: a prefix of up to 14 ones, and the suffix behind a full prefix (R229, R230). -/
def magnitudeOf (bins : List Bool) : Option (Nat × List Bool) := do
  let (c, bins) ← onesOf 14 bins
  if c < 14 then some (1 + c, bins)
  else do
    let (k, bins) ← onesOf 20 bins
    let (v, bins) ← numberOf k bins
    some (14 + 2 ^ k + v, bins)

/-- A level: the magnitude, then the sign (R231). -/
def levelOf (bins : List Bool) : Option (Int × List Bool) := do
  let (mag, bins) ← magnitudeOf bins
  let (sign, bins) ← numberOf 1 bins
  some (if sign = 1 then -(mag : Int) else mag, bins)

/-- n levels, in the order of their bins. -/
def levelsOf : Nat → List Bool → Option (List Int × List Bool)
  | 0, bins => some ([], bins)
  | n + 1, bins => do
    let (l, bins) ← levelOf bins
    let (ls, bins) ← levelsOf n bins
    some (l :: ls, bins)

/-- The significant indices from i on, `left` candidates before the last index: each one bin, and behind a 1 the
last-flag bin; the last index where no last-flag bin was 1 (R226, R227). -/
def indicesOf : Nat → Nat → List Bool → Option (List Nat × List Bool)
  | 0, i, bins => some ([i], bins)
  | left + 1, i, false :: bins => indicesOf left (i + 1) bins
  | _ + 1, i, true :: true :: bins => some ([i], bins)
  | left + 1, i, true :: false :: bins => (indicesOf left (i + 1) bins).map fun (l, bins) => (i :: l, bins)
  | _ + 1, _, _ => none

/-- What all bins of a block say: no coefficient, or the significant indices and the levels. -/
def blockOf (cat : BlockCat) (inferred : Bool) (bins : List Bool) : Option (Option (List Nat × List Int)) := do
  let (flag, bins) ← if inferred then some (1, bins) else numberOf 1 bins
  if flag = 0 then (if bins = [] then some none else none)
  else do
    let (indices, bins) ← indicesOf ((scanBounds cat).2 - (scanBounds cat).1) (scanBounds cat).1 bins
    let (levels, bins) ← levelsOf indices.length bins
    if bins = [] then some (some (indices, levels)) else none

/-! ## Which commands a multi-bin command is, as a function of its bins (43_residual_block.md R225, R239)

Each function takes the bins so far and gives the single-bin commands they come from, in order, and behind them the
next command where the bins end before the multi-bin command does. -/

/-- AD.BIN of a context index. -/
def binAt (idx : Nat) : Instr := .adBin (BitVec.ofNat 16 idx)

/-- The column of CTXMAP for a category (41_context_table.md R156). -/
def catColumn : BlockCat → Fin 6
  | .lumaDC16 => 0
  | .lumaAC16 => 1
  | .luma4x4 => 2
  | .chromaDC => 3
  | .chromaAC => 4
  | .luma8x8 => 5

/-- The row of CTXMAP for the frame/field bit (41_context_table.md R156). -/
def fieldRow (fld : Bool) : Fin 2 := if fld then 1 else 0

/-- `CbfCtx` (41_context_table.md R163), none for a base of NONE. -/
def cbfIndex (m : CtxMap) (cat : BlockCat) (left top : Bool) : Option Nat :=
  m.cbfBase[catColumn cat].map fun base => base + 2 * top.toNat + left.toNat

/-- `SigCtx` (41_context_table.md R163). -/
def sigIndex (m : CtxMap) (cat : BlockCat) (fld : Bool) (i : Nat) : Nat :=
  m.sigBase[fieldRow fld][catColumn cat] +
    match cat with
    | .luma8x8 => (m.sigInc8[fieldRow fld].toList[i]?).getD 0
    | _ => i - (scanBounds cat).1

/-- `LastCtx` (41_context_table.md R163). -/
def lastIndex (m : CtxMap) (cat : BlockCat) (fld : Bool) (i : Nat) : Nat :=
  m.lastBase[fieldRow fld][catColumn cat] +
    match cat with
    | .luma8x8 => (m.lastInc8.toList[i]?).getD 0
    | _ => i - (scanBounds cat).1

/-- `AbsCtx0` (41_context_table.md R163). -/
def abs0Index (m : CtxMap) (cat : BlockCat) (eq1 gt1 : Nat) : Nat :=
  m.absBase[catColumn cat] + if gt1 = 0 then min 4 (1 + eq1) else 0

/-- `AbsCtxN` (41_context_table.md R163). -/
def absNIndex (m : CtxMap) (cat : BlockCat) (gt1 : Nat) : Nat :=
  m.absBase[catColumn cat] + 5 + min (if cat = .chromaDC then 3 else 4) gt1

/-- A run of ones, up to the first 0 or `cap` ones: `first` gives the first bin and `later` every other one; `next` goes
on from the count. -/
def onesCommands (later : Instr) (next : Nat → List Bool → List Instr) :
    (cap : Nat) → (first : Instr) → (count : Nat) → List Bool → List Instr
  | 0, _, c, bins => next c bins
  | _ + 1, first, _, [] => [first]
  | _ + 1, first, c, false :: bins => first :: next c bins
  | cap + 1, first, c, true :: bins => first :: onesCommands later next cap later (c + 1) bins

/-- n bypass bins, first bin most significant behind the number v. -/
def numberCommands (next : Nat → List Bool → List Instr) : (n v : Nat) → List Bool → List Instr
  | 0, v, bins => next v bins
  | _ + 1, _, [] => [.adByp]
  | n + 1, v, b :: bins => .adByp :: numberCommands next n (2 * v + b.toNat) bins

/-- A magnitude with the counters `eq1` and `gt1`: a prefix of up to 14 regular bins, behind a full one a bypass run of
up to 20 and as many bypass bins as it has ones (R229, R230). -/
def magnitudeCommands (m : CtxMap) (cat : BlockCat) (eq1 gt1 : Nat) (next : Nat → List Bool → List Instr) :
    List Bool → List Instr :=
  onesCommands (binAt (absNIndex m cat gt1)) (fun c bins =>
    if c < 14 then next (1 + c) bins
    else onesCommands .adByp (fun k bins => numberCommands (fun v bins => next (14 + 2 ^ k + v) bins) k 0 bins)
      20 .adByp 0 bins)
    14 (binAt (abs0Index m cat eq1 gt1)) 0

/-- n levels: a magnitude and one bypass bin each, the counters going on as 43_residual_block.md R236 says. -/
def levelsCommands (m : CtxMap) (cat : BlockCat) : (n eq1 gt1 : Nat) → List Bool → List Instr
  | 0, _, _, _ => []
  | n + 1, eq1, gt1, bins =>
    magnitudeCommands m cat eq1 gt1 (fun mag bins => numberCommands (fun _ bins =>
      if 1 < mag then levelsCommands m cat n eq1 (min 4 (gt1 + 1)) bins
      else if gt1 = 0 then levelsCommands m cat n (min 4 (eq1 + 1)) gt1 bins
      else levelsCommands m cat n eq1 gt1 bins) 1 0 bins) bins

/-- The significance and last-flag bins from index i on, `left` candidates before the last index, `n` indices found
significant so far; then the levels (R226, R227, R228). -/
def indicesCommands (m : CtxMap) (cat : BlockCat) (fld : Bool) : (left i n : Nat) → List Bool → List Instr
  | 0, _, n, bins => levelsCommands m cat (n + 1) 0 0 bins
  | _ + 1, i, _, [] => [binAt (sigIndex m cat fld i)]
  | left + 1, i, n, false :: bins => binAt (sigIndex m cat fld i) :: indicesCommands m cat fld left (i + 1) n bins
  | _ + 1, i, _, [true] => [binAt (sigIndex m cat fld i), binAt (lastIndex m cat fld i)]
  | _ + 1, i, n, true :: true :: bins =>
    binAt (sigIndex m cat fld i) :: binAt (lastIndex m cat fld i) :: levelsCommands m cat (n + 1) 0 0 bins
  | left + 1, i, n, true :: false :: bins =>
    binAt (sigIndex m cat fld i) :: binAt (lastIndex m cat fld i) ::
      indicesCommands m cat fld left (i + 1) (n + 1) bins

/-- A whole block: the coded-block-flag bin unless it is inferred, and behind a flag of 1 the rest (R224, R225). -/
def blockCommands (m : CtxMap) (cat : BlockCat) (left top fld inferred : Bool) (bins : List Bool) : List Instr :=
  let coded := indicesCommands m cat fld ((scanBounds cat).2 - (scanBounds cat).1) (scanBounds cat).1 0
  if inferred then coded bins
  else
    match cbfIndex m cat left top, bins with
    | none, _ => []
    | some idx, true :: bins => binAt idx :: coded bins
    | some idx, _ => [binAt idx]

/-- The single-bin commands of any command that decodes bins: itself, or 42_arithmetic_decoder.md R188 and R189 and
43_residual_block.md R225. -/
def binCommands (m : CtxMap) (i : Instr) (bins : List Bool) : List Instr :=
  match i with
  | .adBypn n => numberCommands (fun _ _ => []) n.toNat 0 bins
  | .adBypu max => onesCommands .adByp (fun _ _ => []) max.toNat .adByp 0 bins
  | .rbDecode cat left top fld inferred => blockCommands m cat left top fld inferred bins
  | i => [i]

end Sys2Proof.Claims

open Sys2Proof Sys2Proof.Machine Sys2Proof.Safety Sys2Proof.Claims

/-! ## Encoding -/

/-- 30_encoding.md R92, R94: no bit of an operand is dropped. -/
def Obligations.DecodeOfEncodeIsTheCommand : Prop :=
  ∀ i : Instr, i.wellFormed = true → decode (encode i) = .ok i

/-- 30_encoding.md R92, R97: a command has one word, and a word that decodes gives a well-formed command. -/
def Obligations.EncodeOfDecodeIsTheWord : Prop :=
  ∀ (w : Word64) (i : Instr), decode w = .ok i → i.wellFormed = true ∧ encode i = w

/-- 30_encoding.md R96: an undefined `op` is IllegalCommand 0x01, nothing but LASTERR changes, and no word but
NOP's own executes as NOP. -/
def Obligations.UndefinedOpcodeIsRefused : Prop :=
  (∀ (w : Word64) (s : State), w.extractLsb' 56 8 ∉ opcodes → runCommand w s = .next (refusedWith 4 0x01 s)) ∧
  ∀ w : Word64, decode w = .ok .nop → w = 0

/-- 30_encoding.md R97: a defined `op` with a nonzero reserved bit is IllegalCommand 0x02. -/
def Obligations.ReservedBitsMustBeZero : Prop :=
  ∀ (row : Byte × Word64) (w : Word64) (s : State), row ∈ reservedBits → w.extractLsb' 56 8 = row.1 →
    w &&& row.2 ≠ 0 → runCommand w s = .next (refusedWith 4 0x02 s)

/-- 30_encoding.md R98: with the reserved bits zero, exactly the operands outside their encoded range are
IllegalCommand 0x03; every other word of a defined `op` is a command. The last clause, exec of a term with a count above
32, which no word decodes to, is the model's choice (DEDUCED, notes/assumptions/15.md). -/
def Obligations.EncodedRangesAreChecked : Prop :=
  (∀ (row : Byte × Word64) (w : Word64), row ∈ reservedBits → w.extractLsb' 56 8 = row.1 → w &&& row.2 = 0 →
    (OperandOutOfRange w → ∀ s, runCommand w s = .next (refusedWith 4 0x03 s)) ∧
    (¬ OperandOutOfRange w → ∃ i, decode w = .ok i)) ∧
  ∀ (n : Byte) (s : State), 32 < n.toNat →
    exec (.bcRdbits n) s = .next (refusedWith 4 0x03 s) ∧ exec (.bcPeek n) s = .next (refusedWith 4 0x03 s) ∧
    exec (.adBypn n) s = .next (refusedWith 4 0x03 s)

/-- Words of 96_test_vectors_families.md section 3.1, one per family, written from the encoding of 30_encoding.md R94. -/
def Obligations.SampleWordsDecode : Prop :=
  decode 0x0200000000000043 = .ok (.rdreg (.outLevel 3)) ∧
  decode 0x1220000000000000 = .ok (.bcRdbits 32) ∧
  decode 0x2002023300000001 = .ok (.ctInit 2 2 51 true) ∧
  decode 0x31000000000000E3 = .ok (.adBin 227) ∧
  decode 0x4003020000000000 = .ok (.rbDecode .chromaDC false true false false)

/-! ## The step and the host -/

/-- 10_state.md R22, 30_encoding.md R90: when the host's next action is a command word that decodes to i, the
step is exec of i with the host's index moved on by one. 30_encoding.md R96, R97, R98, 60_exceptions.md R277: a word that
decodes to nothing is answered with IllegalCommand, its information byte that of what the decoder found wrong, and only
LASTERR changes. -/
def Obligations.StepRunsTheDecodedCommand : Prop :=
  ∀ (s : State) (w : Word64), s.program[s.programIndex]? = some (.command w) →
    (∀ i, decode w = .ok i → step s = exec i { s with programIndex := s.programIndex + 1 }) ∧
    (decode w = .error .undefinedOp →
      step s = .next (refusedWith 4 0x01 { s with programIndex := s.programIndex + 1 })) ∧
    (decode w = .error .reservedNonzero →
      step s = .next (refusedWith 4 0x02 { s with programIndex := s.programIndex + 1 })) ∧
    (decode w = .error .operandRange →
      step s = .next (refusedWith 4 0x03 { s with programIndex := s.programIndex + 1 }))

/-- 10_state.md R22: the host's index advances by one on every command, whatever the status, and nothing in the core
changes it. Two clauses are the model's choice (DESIGN CHOICE): that the index also advances by one on a BUF write and
on a hardware reset, of which R22 does not speak (notes/assumptions/19.md), and that a step with no action left keeps
the state (notes/assumptions/13.md, after 60_exceptions.md R288, R293). -/
def Obligations.OnlyTheHostMovesTheProgramIndex : Prop :=
  (∀ s, s.program[s.programIndex]? = none → step s = .next s) ∧
  (∀ s a t, s.program[s.programIndex]? = some a → step s = .next t →
    t.program = s.program ∧ t.programIndex = s.programIndex + 1) ∧
  ∀ i s t, exec i s = .next t → t.program = s.program ∧ t.programIndex = s.programIndex

/-- 60_exceptions.md R285: no command and no error stops the core. The one thing that stops a step is a host that writes a
byte address which 20_memory.md R60 does not give BUF: the rule says nothing of such a write, and that it is the fault
`hostWriteOutsideBuf` is the model's choice (DESIGN CHOICE, notes/assumptions/9.md). -/
def Obligations.NoCommandStopsTheCore : Prop :=
  (∀ i s, ∃ t, exec i s = .next t) ∧
  ∀ s, (∃ t, step s = .next t) ∨
    ∃ k b, s.program[s.programIndex]? = some (.writeBuf k b) ∧ 4 * s.params.bufWords ≤ k ∧
      step s = .fault .hostWriteOutsideBuf

/-- 70_reset_and_hazards.md R300, R301; 10_state.md R44: hardware reset between two commands. BUF and the
parameters are not changed. That no response stands after it is the model's choice where no command was executing
(DESIGN CHOICE, notes/assumptions/12.md, 19.md). -/
def Obligations.HardwareResetClearsTheCore : Prop :=
  ∀ s : State, s.program[s.programIndex]? = some .hardwareReset →
    ∃ t, step s = .next t ∧ t.phase = .idle ∧ t.cursorValid = false ∧ t.ctxValid = false ∧ t.outValid = false ∧
      t.bitOffset = 0 ∧ t.maxBitOffset = 0 ∧ t.lastErr = 0 ∧ t.buf = s.buf ∧ t.params = s.params ∧
      t.program = s.program ∧ t.response = none

/-- 10_state.md R44: the registers the spec gives a reset value. -/
def Obligations.ResetStateHoldsTheResetValues : Prop :=
  State.reset.phase = .idle ∧ State.reset.cursorValid = false ∧ State.reset.ctxValid = false ∧
  State.reset.outValid = false ∧ State.reset.bitOffset = 0 ∧ State.reset.maxBitOffset = 0 ∧
  State.reset.lastErr = 0

/-- The invariants stated below hold at reset, and the parameters reset stands with are well formed. The
parameters are the model's choice (notes/assumptions/5.md; tables of 42_arithmetic_decoder.md R173 and
41_context_table.md R157). -/
def Obligations.ResetStateMeetsTheInvariants : Prop :=
  CursorInBounds State.reset ∧ PhaseHasCursor State.reset ∧ IntervalAligned State.reset ∧
  OutputConsistent State.reset ∧ BufCanonical State.reset ∧ paramsWf State.reset.params

/-- 20_memory.md R73, R65: a byte the host writes before BC.OPEN is seen by every read of that unit, every other
byte as before. -/
def Obligations.HostWriteIsSeenByTheNextUnit : Prop :=
  ∀ (s t u : State) (k : Nat) (b : Byte) (max : Word), act (.writeBuf k b) s = .next t →
    max.toNat ≤ 32 * s.params.bufWords → exec (.bcOpen max) t = .next u →
    ∀ j, j < 4 * s.params.bufWords →
      bitsAt u (8 * j) 8 = (if j = k then b else bufByte s j).setWidth 32

/-- 20_memory.md R66 (marked derived there): no command writes memory; the parameters do not change either (10_state.md R47). -/
def Obligations.CommandsNeverWriteBuf : Prop :=
  ∀ i s t, exec i s = .next t → t.buf = s.buf ∧ t.params = s.params ∧ ∀ k, bufByte t k = bufByte s k

/-- 20_memory.md R60: BUF stays in its canonical form and inside its words. -/
def Obligations.StepKeepsBufCanonical : Prop :=
  ∀ s t, BufCanonical s → step s = .next t → BufCanonical t

/-- 60_exceptions.md R292, 20_memory.md R78: a step of one instance leaves every other instance as it was. That
a platform is a list of states, one step of one instance at a time, is the model's form (DESIGN CHOICE,
notes/assumptions/17.md). -/
def Obligations.InstancesDoNotInteract : Prop :=
  ∀ (p p' : Platform) (k : Nat), platformStep k p = some p' →
    p'.length = p.length ∧ (∀ j, j ≠ k → p'[j]? = p[j]?) ∧
    ∃ s t, p[k]? = some s ∧ step s = .next t ∧ p'[k]? = some t

/-! ## System commands -/

/-- 44_system.md R260: NOP writes no state, not even LASTERR. -/
def Obligations.NopChangesNothing : Prop := ∀ s : State, exec .nop s = .next (okWith 0 s)

/-- 44_system.md R261: RESET from any state; BUF, parameters and the host's side are not touched. -/
def Obligations.ResetCommandCompletes : Prop :=
  ∀ s : State, ∃ t, exec .reset s = .next t ∧ Answered t 0 0 0 ∧ t.phase = .idle ∧ t.cursorValid = false ∧
    t.ctxValid = false ∧ t.outValid = false ∧ t.bitOffset = 0 ∧ t.maxBitOffset = 0 ∧ t.lastErr = 0 ∧
    t.buf = s.buf ∧ t.params = s.params ∧ t.program = s.program ∧ t.programIndex = s.programIndex

/-- 44_system.md R263, 10_state.md R42, R43: RDREG of each readable register, layout written out; nothing is written. -/
def Obligations.RdregReturnsTheRegister : Prop :=
  ∀ s : State,
    exec (.rdreg .status) s = .next (okWith ((stateByte s).setWidth 32) s) ∧
    exec (.rdreg .lastErr) s = .next (okWith (0#16 ++ s.lastErr) s) ∧
    (s.cursorValid = true → exec (.rdreg .bitOffset) s = .next (okWith s.bitOffset s) ∧
      exec (.rdreg .maxBitOffset) s = .next (okWith s.maxBitOffset s)) ∧
    (Active s ∨ s.phase = .terminated → exec (.rdreg .range) s = .next (okWith s.range s) ∧
      exec (.rdreg .value) s = .next (okWith s.value s)) ∧
    (s.ctxValid = true → exec (.rdreg .unitCfg) s = .next (okWith (0#15 ++ s.unitCfg) s)) ∧
    (s.outValid = true →
      exec (.rdreg .outCbf) s = .next (okWith (if s.outCbf then 1 else 0) s) ∧
      exec (.rdreg .outNLevels) s = .next (okWith (0#25 ++ s.outNLevels) s) ∧
      exec (.rdreg .outSigLo) s = .next (okWith (s.outSig.extractLsb' 0 32) s) ∧
      exec (.rdreg .outSigHi) s = .next (okWith (s.outSig.extractLsb' 32 32) s) ∧
      ∀ j : Fin 64, j.val < s.outNLevels.toNat →
        exec (.rdreg (.outLevel j)) s = .next (okWith s.outLevel[j] s))

/-! ## BitCursor -/

/-- 40_bitcursor.md R121: BC.OPEN from any state. That a host's earlier write during the old unit no longer
matters (`bufRewritten`) is the model's field (notes/assumptions/3.md). -/
def Obligations.BcOpenBindsTheCursor : Prop :=
  ∀ (s : State) (max : Word),
    (max.toNat ≤ 32 * s.params.bufWords → exec (.bcOpen max) s = .next (okWith 0 { s with
      bitOffset := 0, maxBitOffset := max, cursorValid := true, ctxValid := false, phase := .idle,
      bufRewritten := false })) ∧
    (32 * s.params.bufWords < max.toNat → exec (.bcOpen max) s = .next (refusedWith 2 0x10 s))

/-- 40_bitcursor.md R122, R123, R124: BC.RDBIT and BC.RDBITS return the bits at the cursor and move it, or leave it
where it is; the sum is not wrapped. -/
def Obligations.BcReadsConsumeBits : Prop :=
  ∀ s : State, s.cursorValid = true → Inactive s →
    (s.bitOffset.toNat + 1 ≤ s.maxBitOffset.toNat → exec .bcRdbit s = .next (okWith (bitsAt s s.bitOffset.toNat 1)
      { s with bitOffset := s.bitOffset + 1, draws := drawsAfter s s.bitOffset.toNat 1 })) ∧
    (s.maxBitOffset.toNat < s.bitOffset.toNat + 1 → exec .bcRdbit s = .next (refusedWith 1 0x01 s)) ∧
    ∀ n : Byte, n.toNat ≤ 32 →
      (s.bitOffset.toNat + n.toNat ≤ s.maxBitOffset.toNat →
        exec (.bcRdbits n) s = .next (okWith (bitsAt s s.bitOffset.toNat n.toNat)
          { s with bitOffset := s.bitOffset + n.setWidth 32, draws := drawsAfter s s.bitOffset.toNat n.toNat })) ∧
      (s.maxBitOffset.toNat < s.bitOffset.toNat + n.toNat → exec (.bcRdbits n) s = .next (refusedWith 1 0x01 s))

/-- 40_bitcursor.md R122, R126: BC.FLUSH. -/
def Obligations.BcFlushMovesTheCursor : Prop :=
  ∀ (s : State) (n : Word), s.cursorValid = true → Inactive s →
    (s.bitOffset.toNat + n.toNat ≤ s.maxBitOffset.toNat →
      exec (.bcFlush n) s = .next (okWith 0 { s with bitOffset := s.bitOffset + n })) ∧
    (s.maxBitOffset.toNat < s.bitOffset.toNat + n.toNat → exec (.bcFlush n) s = .next (refusedWith 1 0x02 s))

/-- 40_bitcursor.md R125, R127, R128: BC.PEEK, BC.ALIGNED and BC.MORE answer in any phase and move nothing. -/
def Obligations.BcQueriesAnswer : Prop :=
  ∀ s : State, s.cursorValid = true →
    (∀ n : Byte, n.toNat ≤ 32 → exec (.bcPeek n) s = .next (okWith (bitsAt s s.bitOffset.toNat n.toNat)
      { s with draws := drawsAfter s s.bitOffset.toNat n.toNat })) ∧
    exec .bcAligned s = .next (okWith (if 8 ∣ s.bitOffset.toNat then 1 else 0) s) ∧
    exec .bcMore s = .next (okWith (if s.bitOffset.toNat < s.maxBitOffset.toNat then 1 else 0) s)

/-- 20_memory.md R64: the bit at p is the most significant of the field, the field is zero-extended, and inside
BUF the field is the word-level form. -/
def Obligations.BitsAtIsMsbFirst : Prop :=
  ∀ (s : State) (p n : Nat), n ≤ 32 →
    (∀ j, j < n → (bitsAt s p n).getLsbD (n - 1 - j) = bitAt s (p + j) j) ∧
    (∀ j, n ≤ j → (bitsAt s p n).getLsbD j = false) ∧
    (1 ≤ n → s.bufRewritten = false → p + n ≤ 32 * s.params.bufWords →
      ∀ w1 : Word, (n ≤ 32 - p % 32 → w1 = 0) → (¬ n ≤ 32 - p % 32 → w1 = bufWord s (p / 32 + 1)) →
        bitsAt s p n = ((bufWord s (p / 32) ++ w1).extractLsb' (64 - p % 32 - n) n).setWidth 32)

/-- 20_memory.md R62 (section 1), R65 (section 2): stream position p is bit `7 - (p mod 8)` of byte `floor(p / 8)`, and
whole bytes and words read as they are stored. R63 (section 1), R71 (section 4): `max_bit_offset` plays no part in a
read. -/
def Obligations.StreamIsBigEndian : Prop :=
  ∀ s : State, s.bufRewritten = false →
    (∀ p k, p < 32 * s.params.bufWords → bitAt s p k = (bufByte s (p / 8)).getLsbD (7 - p % 8)) ∧
    (∀ k, 8 * k + 8 ≤ 32 * s.params.bufWords → bitsAt s (8 * k) 8 = (bufByte s k).setWidth 32) ∧
    (∀ w, w < s.params.bufWords → bitsAt s (32 * w) 32 = bufWord s w) ∧
    (∀ k, bufByte s k = (bufWord s (k / 4)).extractLsb' (24 - 8 * (k % 4)) 8) ∧
    ∀ (m : Word) p n, bitsAt { s with maxBitOffset := m } p n = bitsAt s p n

/-- 40_bitcursor.md R129 (marked derived there): after an OK the cursor is at most `max_bit_offset`, after BufferExhausted where it was;
neither `phase` nor `cursor_valid` changes. BC.PEEK, BC.ALIGNED and BC.MORE move nothing, so the premise that the
cursor is in bounds (an invariant, stated below) is needed of states that no run reaches. -/
def Obligations.CursorCommandsKeepTheBound : Prop :=
  ∀ i s t code info r, isCursorCommand i = true ∨ (∃ max, i = .bcOpen max) → s.cursorValid = true →
    CursorInBounds s → exec i s = .next t → Answered t code info r →
    (code = 0 → t.bitOffset ≤ t.maxBitOffset) ∧
    (code = 1 → t.bitOffset = s.bitOffset ∧ t.phase = s.phase ∧ t.cursorValid = s.cursorValid)

/-- 40_bitcursor.md R120: a BC.* command other than BC.OPEN writes no state but `bit_offset`, and a refused or
failing one only LASTERR. The response and the draws are not registers of the core. -/
def Obligations.CursorCommandsWriteOnlyTheCursor : Prop :=
  ∀ i s t, isCursorCommand i = true → exec i s = .next t →
    (∃ r, Answered t 0 0 r ∧
      t = { s with bitOffset := t.bitOffset, response := t.response, draws := t.draws }) ∨
    (∃ code info, code ≠ 0 ∧ t = refusedWith code info s)

/-! ## ContextTable -/

/-- 41_context_table.md R159, 10_state.md R35: CT.INIT in any phase writes all 460 entries, UNITCFG and `ctx_valid`,
or is refused by the first check that fails; the table does not depend on what was there before (R154). -/
def Obligations.CtInitOverwritesTheTable : Prop :=
  (∀ (s : State) (cl ip qp : Byte) (aux : Bool),
    (cl.toNat < 3 → ip.toNat < s.params.nInitParam → qp.toNat ≤ 51 →
      exec (.ctInit cl ip qp aux) s = .next (okWith 0 { s with
        ctx := ctxInit s.params ⟨cl, ip, aux, qp⟩
        unitCfg := BitVec.ofNat 17 (cl.toNat + ip.toNat * 2 ^ 2 + qp.toNat * 2 ^ 10 + aux.toNat * 2 ^ 16)
        ctxValid := true })) ∧
    (3 ≤ cl.toNat → exec (.ctInit cl ip qp aux) s = .next (refusedWith 2 0x11 s)) ∧
    (cl.toNat < 3 → s.params.nInitParam ≤ ip.toNat →
      exec (.ctInit cl ip qp aux) s = .next (refusedWith 2 0x12 s)) ∧
    (cl.toNat < 3 → ip.toNat < s.params.nInitParam → 51 < qp.toNat →
      exec (.ctInit cl ip qp aux) s = .next (refusedWith 2 0x13 s))) ∧
  ∀ (s s' t t' : State) (cl ip qp : Byte) (aux : Bool), s'.params = s.params →
    exec (.ctInit cl ip qp aux) s = .next t → exec (.ctInit cl ip qp aux) s' = .next t' →
    t.response = some 0 → t'.ctx = t.ctx

/-- 41_context_table.md R160, R161: CT.GET. -/
def Obligations.CtGetReturnsTheEntry : Prop :=
  ∀ (s : State) (idx : BitVec 16), s.ctxValid = true →
    (∀ h : idx.toNat < 460, exec (.ctGet idx) s =
      .next (okWith (0#25 ++ BitVec.ofBool s.ctx[idx.toNat].mps ++ s.ctx[idx.toNat].stateIndex) s)) ∧
    (460 ≤ idx.toNat → exec (.ctGet idx) s = .next (refusedWith 3 0x20 s))

/-! ## ArithmeticDecoder: results -/

/-- 42_arithmetic_decoder.md R175: AD.INIT in any phase. -/
def Obligations.AdInitPrimesTheRegisters : Prop :=
  ∀ s : State, s.cursorValid = true →
    (s.bitOffset.toNat + 9 ≤ s.maxBitOffset.toNat → exec .adInit s = .next (okWith 0 { s with
      range := 0xFF000000
      value := bitsAt s s.bitOffset.toNat 32
      bitOffset := s.bitOffset + 9
      phase := .ready
      draws := drawsAfter s s.bitOffset.toNat 32 })) ∧
    (s.maxBitOffset.toNat < s.bitOffset.toNat + 9 → exec .adInit s = .next (abortedWith 0x03 s))

/-- 42_arithmetic_decoder.md R176, R177, R179, R180: AD.BIN, both branches, with and without renormalisation, and where
renormalisation fails, and an index of 460 or more. `z <= 23` is R200's (an invariant, stated below), a nonzero `rng`
to renormalise is R180's condition (it holds where TRANS is well formed, R172); the step of the entry is R178's, which
the spec decides (D14). -/
def Obligations.AdBinDecodesARegularBin : Prop :=
  (∀ (s : State) (idx : BitVec 16), Active s → s.ctxValid = true → 460 ≤ idx.toNat →
    exec (.adBin idx) s = .next (refusedWith 3 0x20 s)) ∧
  ∀ (s : State) (idx : BitVec 16) (e : ContextEntry) (tr : TransEntry) (taken sym : Bool) (rng val : Word)
    (e' : ContextEntry),
    Active s → s.ctxValid = true → clz32 s.range ≤ 23 →
    s.ctx[idx.toNat]? = some e →
    s.params.trans[4 * e.stateIndex.toNat + ((s.range <<< clz32 s.range) >>> 29).toNat % 4]? = some tr →
    (taken = true ↔ s.range - tr.lps8.setWidth 32 <<< (23 - clz32 s.range) ≤ s.value) →
    sym = (if taken then !e.mps else e.mps) →
    rng = (if taken then tr.lps8.setWidth 32 <<< (23 - clz32 s.range)
      else s.range - tr.lps8.setWidth 32 <<< (23 - clz32 s.range)) →
    val = (if taken then s.value - (s.range - tr.lps8.setWidth 32 <<< (23 - clz32 s.range)) else s.value) →
    e' = (if taken then ⟨tr.nextLps, if e.stateIndex = 0 then !e.mps else e.mps⟩ else ⟨tr.nextMps, e.mps⟩) →
    (0x100 ≤ rng.toNat → exec (.adBin idx) s = .next (okWith (if sym then 1 else 0) { s with
      range := rng, value := val, ctx := s.ctx.setIfInBounds idx.toNat e', phase := .decoding })) ∧
    (rng ≠ 0 → rng.toNat < 0x100 → s.bitOffset.toNat + clz32 rng ≤ s.maxBitOffset.toNat →
      exec (.adBin idx) s = .next (okWith (if sym then 1 else 0) { s with
        range := rng <<< clz32 rng
        value := val <<< clz32 rng ||| bitsAt s (s.bitOffset.toNat + 23) (clz32 rng)
        bitOffset := s.bitOffset + BitVec.ofNat 32 (clz32 rng)
        ctx := s.ctx.setIfInBounds idx.toNat e'
        phase := .decoding
        draws := drawsAfter s (s.bitOffset.toNat + 23) (clz32 rng) })) ∧
    (rng ≠ 0 → rng.toNat < 0x100 → s.maxBitOffset.toNat < s.bitOffset.toNat + clz32 rng →
      exec (.adBin idx) s = .next (abortedWith 0x04 s))

/-- 42_arithmetic_decoder.md R178, R176 steps 2, 3 and 7: the entry takes TRANS's next state at the quantized range, bits
30:29 of the left-aligned `range`, `mps` inverts exactly on an LPS outcome at
state 0, no other entry changes, and no terminal or bypass bin changes any. -/
def Obligations.ContextsAdaptOncePerRegularBin : Prop :=
  (∀ (s t : State) (idx : BitVec 16) (sym : Bool) (h : idx.toNat < 460),
    exec (.adBin idx) s = .next t → t.response = some (if sym then 1 else 0) →
    (t.ctx[idx.toNat].mps ≠ s.ctx[idx.toNat].mps ↔
      sym ≠ s.ctx[idx.toNat].mps ∧ s.ctx[idx.toNat].stateIndex = 0) ∧
    (∃ tr, s.params.trans[4 * s.ctx[idx.toNat].stateIndex.toNat +
        ((s.range <<< clz32 s.range) >>> 29).toNat % 4]? = some tr ∧
      t.ctx[idx.toNat].stateIndex = if sym = s.ctx[idx.toNat].mps then tr.nextMps else tr.nextLps) ∧
    ∀ j : Fin 460, j.val ≠ idx.toNat → t.ctx[j] = s.ctx[j]) ∧
  ∀ (s t : State) (n : Byte), (exec .adTerm s = .next t ∨ exec .adByp s = .next t ∨
    exec (.adBypn n) s = .next t ∨ exec (.adBypu n) s = .next t) → t.ctx = s.ctx

/-- 42_arithmetic_decoder.md R181, R182: AD.TERM. `z <= 23` is R200's (an invariant, stated below). -/
def Obligations.AdTermDecodesATerminalBin : Prop :=
  ∀ (s : State) (rng : Word), Active s → clz32 s.range ≤ 23 →
    rng = s.range - 2#32 <<< (23 - clz32 s.range) →
    (rng.toNat ≤ s.value.toNat → exec .adTerm s = .next (okWith 1 { s with phase := .terminated })) ∧
    (s.value.toNat < rng.toNat → 0x100 ≤ rng.toNat →
      exec .adTerm s = .next (okWith 0 { s with range := rng, phase := .decoding })) ∧
    (s.value.toNat < rng.toNat → rng.toNat < 0x100 → s.bitOffset.toNat + clz32 rng ≤ s.maxBitOffset.toNat →
      exec .adTerm s = .next (okWith 0 { s with
        range := rng <<< clz32 rng
        value := s.value <<< clz32 rng ||| bitsAt s (s.bitOffset.toNat + 23) (clz32 rng)
        bitOffset := s.bitOffset + BitVec.ofNat 32 (clz32 rng)
        phase := .decoding
        draws := drawsAfter s (s.bitOffset.toNat + 23) (clz32 rng) })) ∧
    (s.value.toNat < rng.toNat → rng.toNat < 0x100 → s.maxBitOffset.toNat < s.bitOffset.toNat + clz32 rng →
      exec .adTerm s = .next (abortedWith 0x04 s))

/-- 42_arithmetic_decoder.md R186, R187: AD.BYP; below `BYPASS_T` the pair is first renormalised by `clz32(range)`, 23 bits.
A nonzero `range` is R180's condition (R200 has `range >= 0x100` in both phases, an invariant, stated below). -/
def Obligations.AdBypDecodesABypassBin : Prop :=
  ∀ (s : State) (rng val : Word) (off : Word) (d : Nat), Active s → s.range ≠ 0 →
    (0x200 ≤ s.range.toNat → rng = s.range ∧ val = s.value ∧ off = s.bitOffset ∧ d = s.draws) →
    (s.range.toNat < 0x200 → rng = s.range <<< clz32 s.range ∧
      val = s.value <<< clz32 s.range ||| bitsAt s (s.bitOffset.toNat + 23) (clz32 s.range) ∧
      off = s.bitOffset + BitVec.ofNat 32 (clz32 s.range) ∧
      d = drawsAfter s (s.bitOffset.toNat + 23) (clz32 s.range)) →
    (0x200 ≤ s.range.toNat ∨ s.bitOffset.toNat + clz32 s.range ≤ s.maxBitOffset.toNat →
      exec .adByp s =
        if rng.toNat / 2 ≤ val.toNat then .next (okWith 1 { s with
          range := rng >>> 1, value := val - rng >>> 1, bitOffset := off, draws := d, phase := .decoding })
        else .next (okWith 0 { s with
          range := rng >>> 1, value := val, bitOffset := off, draws := d, phase := .decoding })) ∧
    (s.range.toNat < 0x200 → s.maxBitOffset.toNat < s.bitOffset.toNat + clz32 s.range →
      exec .adByp s = .next (abortedWith 0x04 s)) ∧
    (0x100 ≤ s.range.toNat → s.range.toNat < 0x200 → clz32 s.range = 23)

/-- 42_arithmetic_decoder.md R188: AD.BYPN is n AD.BYP, its result their bins packed first bin most significant. -/
def Obligations.AdBypnIsRepeatedAdByp : Prop :=
  ∀ (s u : State) (n : Byte) (bins : List Bool), Active s → n.toNat ≤ 32 →
    bypRun n.toNat s = some (bins, u) →
    exec (.adBypn n) s = .next (okWith (BitVec.ofNat 32 (msbFirst bins)) { u with phase := .decoding })

/-- 42_arithmetic_decoder.md R189: AD.BYPU is AD.BYP until a 0 or until max ones, its result the ones seen. -/
def Obligations.AdBypuIsAdBypUntilZero : Prop :=
  ∀ (s u : State) (max : Byte) (ones : Nat), Active s → bypUntilZero max.toNat s = some (ones, u) →
    ones ≤ max.toNat ∧
    exec (.adBypu max) s = .next (okWith (BitVec.ofNat 32 ones) { u with phase := .decoding })

/-- 42_arithmetic_decoder.md R188, R189: where the valid bits suffice for a renormalisation at every bin, AD.BYPN and
AD.BYPU complete, with a result of n bits or of at most max, and write nothing but the interval, the cursor and the phase. -/
def Obligations.BypassLoopsComplete : Prop :=
  ∀ (s : State) (n : Byte), Active s → s.bitOffset.toNat + 32 * n.toNat ≤ s.maxBitOffset.toNat →
    (n.toNat ≤ 32 → ∃ t v, exec (.adBypn n) s = .next t ∧ Answered t 0 0 v ∧ v.toNat < 2 ^ n.toNat ∧
      t = { s with
        range := t.range, value := t.value, bitOffset := t.bitOffset, draws := t.draws,
        response := t.response, phase := .decoding }) ∧
    (∃ t c, exec (.adBypu n) s = .next t ∧ Answered t 0 0 c ∧ c.toNat ≤ n.toNat ∧
      t = { s with
        range := t.range, value := t.value, bitOffset := t.bitOffset, draws := t.draws,
        response := t.response, phase := .decoding })

/-- 42_arithmetic_decoder.md R183: AD.REALIGN. -/
def Obligations.AdRealignMovesToTheTruePosition : Prop :=
  ∀ s : State, s.phase = .terminated →
    (s.bitOffset.toNat + clz32 s.range ≤ s.maxBitOffset.toNat →
      exec .adRealign s = .next (okWith (BitVec.ofNat 32 (clz32 s.range))
        { s with bitOffset := s.bitOffset + BitVec.ofNat 32 (clz32 s.range), phase := .idle })) ∧
    (s.maxBitOffset.toNat < s.bitOffset.toNat + clz32 s.range → exec .adRealign s = .next (abortedWith 0x05 s))

/-- 42_arithmetic_decoder.md R180, R203: a renormalisation that fits leaves `clz32` 0, scales `range` exactly, splices the
new bits under a `value` that lost none of its own where it was below `range`, keeps it below `range`, and leaves the
true position where it was. -/
def Obligations.RenormalisationIsExact : Prop :=
  ∀ (s : State) (rng val : Word), rng ≠ 0 → s.bitOffset.toNat + clz32 rng ≤ s.maxBitOffset.toNat →
    ∃ r, renorm rng val s = .ok r ∧ clz32 r.range = 0 ∧ r.range.toNat = rng.toNat * 2 ^ clz32 rng ∧
      r.adv = clz32 rng ∧
      (val < rng → r.value.toNat =
        val.toNat * 2 ^ clz32 rng + (bitsAt s (s.bitOffset.toNat + 23) (clz32 rng)).toNat ∧ r.value < r.range) ∧
      (s.bitOffset + BitVec.ofNat 32 r.adv).toNat + clz32 r.range = s.bitOffset.toNat + clz32 rng

/-! ## Invariants -/

/-- 10_state.md R23, R24: the cursor does not pass the last valid bit. That the last valid bit lies inside BUF is the
check of BC.OPEN, 40_bitcursor.md R121. -/
def Obligations.StepKeepsCursorInBounds : Prop :=
  ∀ s t, CursorInBounds s → step s = .next t → CursorInBounds t

/-- 30_encoding.md R100: every phase but IDLE implies a bound cursor. -/
def Obligations.StepKeepsPhaseHasCursor : Prop :=
  ∀ s t, PhaseHasCursor s → step s = .next t → PhaseHasCursor t

/-- 42_arithmetic_decoder.md R200 (marked derived there): with a well-formed TRANS, `range >= 0x100` and its low `23 - z` bits are zero,
between commands and between the bins of one command; so `range` is a 9-bit number shifted. -/
def Obligations.StepKeepsIntervalAligned : Prop :=
  (∀ s t, transWf s.params → IntervalAligned s → step s = .next t → IntervalAligned t) ∧
  (∀ (s t : State) (b : Bool), transWf s.params → RangeAligned s.range →
    (∃ idx site, decodeRegular idx site s = .ok b t) ∨ decodeTerminal s = .ok b t ∨ decodeBypass s = .ok b t →
    RangeAligned t.range) ∧
  ∀ r : Word, RangeAligned r → ∃ r9, 256 ≤ r9 ∧ r9 ≤ 511 ∧ r.toNat = r9 * 2 ^ (23 - clz32 r)

/-- 42_arithmetic_decoder.md R201 (marked derived there): AD.INIT leaves `value < range` exactly where the first 9 bits
are at most 509; it then survives every bin command, the terminal bin that returns 1 included, and every single bin. -/
def Obligations.BinCommandsKeepValueBelowRange : Prop :=
  (∀ s t, exec .adInit s = .next t → Answered t 0 0 0 →
    (ValueBelowRange t ↔ (bitsAt s s.bitOffset.toNat 9).toNat ≤ 509)) ∧
  (∀ i s t, isBinCommand i = true → transWf s.params → RangeAligned s.range → ValueBelowRange s →
    exec i s = .next t → ValueBelowRange t) ∧
  ∀ (s t : State) (b : Bool), transWf s.params → RangeAligned s.range → ValueBelowRange s →
    (∃ idx site, decodeRegular idx site s = .ok b t) ∨ decodeTerminal s = .ok b t ∨ decodeBypass s = .ok b t →
    ValueBelowRange t

/-- 10_state.md R39 (marked derived there): the output block's consistency. -/
def Obligations.StepKeepsOutputConsistent : Prop :=
  ∀ s t, OutputConsistent s → step s = .next t → OutputConsistent t

/-- 10_state.md R45 (marked derived there): while the decoder is active the read-ahead bits of `value` are the stream's: bit j of `value`,
below the `23 - z` bits not yet used, is the stream bit at `bit_offset + 22 - j`, where that lies in BUF and the host
has not written BUF during the unit. -/
def Obligations.StepKeepsTheReadAhead : Prop :=
  let Mirrors : State → Prop := fun s =>
    decoderReadable s = true → s.bufRewritten = false →
      ∀ j, j < 23 - clz32 s.range → s.bitOffset.toNat + 22 - j < 32 * s.params.bufWords →
        s.value.getLsbD j = bitAt s (s.bitOffset.toNat + 22 - j) 0
  ∀ s t, transWf s.params → PhaseHasCursor s → CursorInBounds s → IntervalAligned s → Mirrors s →
    step s = .next t → Mirrors t

/-! ## Rules over all commands -/

/-- 30_encoding.md R100: a command the state does not let through is refused with BadState and changes nothing but
LASTERR; an admitted one never returns BadState. -/
def Obligations.AdmissionFollowsTheTable : Prop :=
  ∀ (i : Instr) (s : State), i.wellFormed = true →
    (¬ Admitted s i → exec i s = .next (refusedWith 5 (stateByte s) s)) ∧
    (Admitted s i → ∃ t code info r, exec i s = .next t ∧ Answered t code info r ∧ code ≠ 5)

/-- 10_state.md R32: the phase after every command and outcome, and after a hardware reset. -/
def Obligations.PhaseFollowsTheTable : Prop :=
  (∀ i s t, exec i s = .next t →
    ∃ code info r, Answered t code info r ∧ t.phase = phaseAfter i code r s.phase) ∧
  (∀ w d s t, decode w = .error d → runCommand w s = .next t → t.phase = s.phase) ∧
  ∀ s t, act .hardwareReset s = .next t → t.phase = .idle

/-- 60_exceptions.md R278 (marked derived there): which command can return which status and information byte. -/
def Obligations.StatusesFollowTheTable : Prop :=
  ∀ (w : Word64) (s t : State), runCommand w s = .next t →
    ∃ code info r, Answered t code info r ∧ StatusAllowed s (w.extractLsb' 56 8) code info

/-- 60_exceptions.md R273, R280, R281: what an error records, and that it changes nothing else: LASTERR and the
response for the refusals and the cursor's own BufferExhausted; for a BufferExhausted that aborts the unit also
`phase`. The bins before the failing one stay committed and the failing one commits nothing (42_arithmetic_decoder.md
R174, R188, 43_residual_block.md R237): the state u after the single-bin commands of those bins, each answered OK, is
left as the failing single-bin command leaves it, after RB.DECODE with unreadable outputs. OK does not change LASTERR. -/
def Obligations.ErrorsChangeOnlyTheRecord : Prop :=
  ∀ i s t code info r, exec i s = .next t → Answered t code info r →
    (code = 0 → i ≠ .reset → t.lastErr = s.lastErr) ∧
    (code ≠ 0 → r = 0 ∧ t.lastErr = info ++ code ∧
      (¬ (code = 1 ∧ (info = 0x03 ∨ info = 0x04 ∨ info = 0x05)) → t = refusedWith code info s) ∧
      (code = 1 ∧ (info = 0x03 ∨ info = 0x04 ∨ info = 0x05) →
        t.phase = .failed ∧ t.maxBitOffset = s.maxBitOffset ∧ t.cursorValid = s.cursorValid ∧
        t.ctxValid = s.ctxValid ∧ t.unitCfg = s.unitCfg ∧
        (i = .adInit ∨ i = .adRealign ∨ i = .adTerm ∨ i = .adByp ∨ (∃ idx, i = .adBin idx) →
          t = abortedWith info s) ∧
        (info = 0x04 → ∃ (bins : List Bool) (u : State) (c : Instr),
          runBins ((binCommands s.params.ctxMap i bins).take bins.length) s = some (bins, u) ∧
          (binCommands s.params.ctxMap i bins)[bins.length]? = some c ∧
          exec c u = .next (abortedWith 0x04 u) ∧
          (¬ (∃ cat left top fld inf, i = .rbDecode cat left top fld inf) → t = abortedWith 0x04 u) ∧
          ((∃ cat left top fld inf, i = .rbDecode cat left top fld inf) → t = { abortedWith 0x04 u with
            outCbf := t.outCbf, outNLevels := t.outNLevels, outSig := t.outSig, outLevel := t.outLevel,
            outValid := false, draws := t.draws }))))

/-- 10_state.md R21, the column "written by": a command writes no register it is not listed for. -/
def Obligations.RegistersChangeOnlyByTheirWriters : Prop :=
  ∀ i s t, exec i s = .next t →
    (.bitOffset ∉ writtenBy i → t.bitOffset = s.bitOffset) ∧
    (.binding ∉ writtenBy i → t.maxBitOffset = s.maxBitOffset ∧ t.cursorValid = s.cursorValid) ∧
    (.interval ∉ writtenBy i → t.range = s.range ∧ t.value = s.value) ∧
    (.phase ∉ writtenBy i → t.phase = s.phase) ∧
    (.contexts ∉ writtenBy i → t.ctx = s.ctx) ∧
    (.ctxValid ∉ writtenBy i → t.ctxValid = s.ctxValid) ∧
    (.unitCfg ∉ writtenBy i → t.unitCfg = s.unitCfg) ∧
    (.outputs ∉ writtenBy i → t.outCbf = s.outCbf ∧ t.outNLevels = s.outNLevels ∧ t.outSig = s.outSig ∧
      t.outLevel = s.outLevel ∧ t.outValid = s.outValid)

/-- 70_reset_and_hazards.md R302 (marked derived there): right after reset NOP, RESET, RDREG STATUS, RDREG LASTERR, BC.OPEN and CT.INIT are
admitted, every other command is refused with BadState, information byte 0. -/
def Obligations.AfterResetOnlySixCommandsAreAdmitted : Prop :=
  ∀ (i : Instr) (s : State), i.wellFormed = true → s.phase = .idle → s.cursorValid = false →
    s.ctxValid = false → s.outValid = false →
    (i = .nop ∨ i = .reset ∨ i = .rdreg .status ∨ i = .rdreg .lastErr ∨ (∃ max, i = .bcOpen max) ∨
      (∃ cl ip qp aux, i = .ctInit cl ip qp aux) →
      ∃ t code info r, exec i s = .next t ∧ Answered t code info r ∧ code ≠ 5) ∧
    (¬ (i = .nop ∨ i = .reset ∨ i = .rdreg .status ∨ i = .rdreg .lastErr ∨ (∃ max, i = .bcOpen max) ∨
      (∃ cl ip qp aux, i = .ctInit cl ip qp aux)) →
      exec i s = .next (refusedWith 5 0x00 s))

/-- 70_reset_and_hazards.md R312: with a spare word after the last valid bit, and a host that does not write BUF
during the unit, no bit of any read is drawn. RESET and RB.DECODE use one free value of their own
(notes/assumptions/2.md): RB.DECODE's bins draw none. -/
def Obligations.SpareWordLeavesNothingToDraw : Prop :=
  ∀ i s t, PhaseHasCursor s → CursorInBounds s → s.bufRewritten = false →
    s.maxBitOffset.toNat + 32 ≤ 32 * s.params.bufWords → exec i s = .next t →
    (i ≠ .reset → (∀ cat left top fld inf, i ≠ .rbDecode cat left top fld inf) → t.draws = s.draws) ∧
    ((∃ cat left top fld inf, i = .rbDecode cat left top fld inf) → t.draws ≤ s.draws + 1)

/-- 42_arithmetic_decoder.md R202 (marked derived there): the low `23 - z` bits of `value`, the read-ahead, decide no
regular and no terminal symbol. A bypass symbol looks one bit further, its halved range having one leading zero more:
there the low `22 - z` bits decide nothing, none where `z = 23` and the bin renormalises (DEDUCED,
notes/assumptions/14.md). -/
def Obligations.SymbolsIgnoreTheReadAhead : Prop :=
  ∀ (s t t' : State) (v : Word), RangeAligned s.range → transWf s.params →
    (∀ i, ((∃ idx, i = .adBin idx) ∨ i = .adTerm) →
      s.value >>> (23 - clz32 s.range) = v >>> (23 - clz32 s.range) →
      exec i s = .next t → exec i { s with value := v } = .next t' →
      t'.response = t.response ∧ t'.range = t.range ∧ t'.bitOffset = t.bitOffset ∧ t'.ctx = t.ctx ∧
      t'.phase = t.phase ∧ t'.lastErr = t.lastErr) ∧
    (s.value >>> (22 - clz32 s.range) = v >>> (22 - clz32 s.range) →
      exec .adByp s = .next t → exec .adByp { s with value := v } = .next t' →
      t'.response = t.response ∧ t'.range = t.range ∧ t'.bitOffset = t.bitOffset ∧ t'.phase = t.phase)

/-! ## ResidualBlockDecoder -/

/-- 43_residual_block.md R223: the check before execution. A category without coded-block-flag contexts decoded with
`inferred_cbf = 0`, or any index of 460 or more, refuses the command before anything changes. -/
def Obligations.RbDecodeChecksItsIndices : Prop :=
  ∀ (s : State) (cat : BlockCat) (left top fld inf : Bool), Active s → s.ctxValid = true →
    ((inf = false ∧ cbfCtx s.params.ctxMap cat left top = none) ∨
      (inf = false ∧ ∃ c, cbfCtx s.params.ctxMap cat left top = some c ∧ 460 ≤ c) ∨
      (∃ i, (scanBounds cat).1 ≤ i ∧ i < (scanBounds cat).2 ∧
        (460 ≤ sigCtx s.params.ctxMap cat fld i ∨ 460 ≤ lastCtx s.params.ctxMap cat fld i)) ∨
      460 ≤ s.params.ctxMap.absBase[catIndex cat] + 9) →
    exec (.rbDecode cat left top fld inf) s = .next (refusedWith 3 0x21 s)

/-- 43_residual_block.md R225, R91 of 30_encoding.md: where the indices are good and the valid bits suffice for a
renormalisation at each of the at most 3647 bins, RB.DECODE completes: OK, a readable output block, and nothing
written but what R225 lists. -/
def Obligations.RbDecodeCompletes : Prop :=
  ∀ (s : State) (cat : BlockCat) (left top fld inf : Bool), Active s → s.ctxValid = true →
    blockIndicesOk s.params.ctxMap cat left top fld inf = true →
    s.bitOffset.toNat + 32 * 3647 ≤ s.maxBitOffset.toNat →
    ∃ t v, exec (.rbDecode cat left top fld inf) s = .next t ∧ Answered t 0 0 v ∧ t.outValid = true ∧
      t.phase = .decoding ∧ t.bitOffset.toNat ≤ s.bitOffset.toNat + 32 * 3647 ∧
      t = { s with
        range := t.range, value := t.value, bitOffset := t.bitOffset, ctx := t.ctx, phase := .decoding,
        outCbf := t.outCbf, outNLevels := t.outNLevels, outSig := t.outSig, outLevel := t.outLevel,
        outValid := true, response := t.response, draws := t.draws }

/-- 43_residual_block.md R221, R227, R232, R235, R240: the output block and the result word of every RB.DECODE that
returns OK. -/
def Obligations.RbDecodeOutputsAreConsistent : Prop :=
  ∀ (s t : State) (cat : BlockCat) (left top fld inf : Bool) (v : Word),
    exec (.rbDecode cat left top fld inf) s = .next t → Answered t 0 0 v →
    t.outValid = true ∧
    v = BitVec.ofNat 32 (256 * t.outNLevels.toNat + t.outCbf.toNat) ∧
    popcount t.outSig = t.outNLevels.toNat ∧
    (∀ i, t.outSig.getLsbD i = true → (scanBounds cat).1 ≤ i ∧ i ≤ (scanBounds cat).2) ∧
    (t.outCbf = false → t.outSig = 0 ∧ t.outNLevels = 0) ∧
    (t.outCbf = true → 1 ≤ t.outNLevels.toNat) ∧
    (inf = true → t.outCbf = true) ∧
    ∀ j : Fin 64, j.val < t.outNLevels.toNat →
      1 ≤ t.outLevel[j].toInt.natAbs ∧ t.outLevel[j].toInt.natAbs ≤ 2097165

/-- 43_residual_block.md R238 (marked derived there): a coded-block-flag bin of 0 gives an empty block and exactly that one regular bin. -/
def Obligations.RbDecodeOfAnEmptyBlock : Prop :=
  ∀ (s u : State) (cat : BlockCat) (left top fld : Bool) (idx : BitVec 16),
    blockIndicesOk s.params.ctxMap cat left top fld false = true →
    cbfCtx s.params.ctxMap cat left top = some idx.toNat →
    exec (.adBin idx) s = .next u → Answered u 0 0 0 →
    ∃ t, exec (.rbDecode cat left top fld false) s = .next t ∧ Answered t 0 0 0 ∧
      t.outCbf = false ∧ t.outSig = 0 ∧ t.outNLevels = 0 ∧ t.outValid = true ∧
      t.range = u.range ∧ t.value = u.value ∧ t.bitOffset = u.bitOffset ∧ t.ctx = u.ctx ∧ t.phase = u.phase

/-- 43_residual_block.md R237: a BufferExhausted inside RB.DECODE, and that the outputs are then unreadable. -/
def Obligations.RbDecodeFailureHidesTheOutputs : Prop :=
  ∀ (s t : State) (cat : BlockCat) (left top fld inf : Bool) (info : Byte) (r : Word),
    exec (.rbDecode cat left top fld inf) s = .next t → Answered t 1 info r →
    info = 0x04 ∧ r = 0 ∧ t.phase = .failed ∧ t.outValid = false ∧ t.lastErr = 0x0401 ∧
    ∀ reg, (reg = .outCbf ∨ reg = .outNLevels ∨ reg = .outSigLo ∨ reg = .outSigHi ∨ ∃ j, reg = .outLevel j) →
      exec (.rdreg reg) t = .next (refusedWith 5 (stateByte t) t)

/-- 43_residual_block.md R239, R225 with R226, R229, R236 and 41_context_table.md R163, 30_encoding.md R91: the effect of
RB.DECODE on `range`, `value`, `bit_offset`, CTX and `phase` is that of at most 3647 AD.BIN and AD.BYP commands, the ones
that R225 gives for their bins, with its context indices in its order, and its outputs are what the bins say. -/
def Obligations.RbDecodeIsASequenceOfBins : Prop :=
  ∀ (s t : State) (cat : BlockCat) (left top fld inf : Bool) (v : Word),
    exec (.rbDecode cat left top fld inf) s = .next t → Answered t 0 0 v →
    ∃ (bins : List Bool) (u : State), bins.length ≤ 3647 ∧
      runBins (blockCommands s.params.ctxMap cat left top fld inf bins) s = some (bins, u) ∧ u.range = t.range ∧ u.value = t.value ∧ u.bitOffset = t.bitOffset ∧
      u.ctx = t.ctx ∧ u.phase = t.phase ∧
      ((t.outCbf = false ∧ blockOf cat inf bins = some none) ∨
        ∃ indices levels, blockOf cat inf bins = some (some (indices, levels)) ∧ t.outCbf = true ∧
          (∀ i, t.outSig.getLsbD i = true ↔ i ∈ indices) ∧ t.outNLevels.toNat = levels.length ∧
          ∀ j : Fin 64, ∀ l, levels[j.val]? = some l → t.outLevel[j].toInt = l)

/-- 43_residual_block.md R230, R231: the suffix of an escaped magnitude combines the run k and the k bits as
`14 + (1 << k) + v`, 15 to 2097165, and the level is the magnitude or its two's-complement negation, which does not
overflow. -/
def Obligations.EscapedMagnitudesCombineRunAndBits : Prop :=
  (∀ (s u w : State) (k : Nat) (v : Word), bypassUnary 20 0 s = .ok k u → bypassBits k 0 u = .ok v w →
    ∃ mag, magnitudeSuffix s = .ok mag w ∧ mag.toNat = 14 + 2 ^ k + v.toNat ∧ 15 ≤ mag.toNat ∧
      mag.toNat ≤ 2097165) ∧
  ∀ (l : LevelScan) (mag : Word), 1 ≤ mag.toNat → mag.toNat ≤ 2097165 →
    ∃ a b, (nextLevel l mag false).levels = a :: l.levels ∧ (nextLevel l mag true).levels = b :: l.levels ∧
      a.toInt = mag.toNat ∧ b.toInt = -(mag.toNat : Int)
end

