-- ==== Sys2Proof/Laws/Decode.lean ====
section
/-! SUPPORT. The fields of format C: taking a word apart gives the fields it was put together from, and back. -/

namespace Sys2Proof

@[simp] theorem opField_formatC (op a b c : Byte) (imm : Word) : opField (formatC op a b c imm) = op := by
  apply BitVec.eq_of_getLsbD_eq; intro i hi
  simp only [opField, formatC, BitVec.getLsbD_extractLsb', BitVec.getLsbD_append]
  simp [show ¬ 56 + i < 32 by omega, show ¬ 56 + i - 32 < 8 by omega, show ¬ 56 + i - 32 - 8 < 8 by omega,
    show ¬ 56 + i - 32 - 8 - 8 < 8 by omega, show 56 + i - 32 - 8 - 8 - 8 = i by omega, hi]

@[simp] theorem aField_formatC (op a b c : Byte) (imm : Word) : aField (formatC op a b c imm) = a := by
  apply BitVec.eq_of_getLsbD_eq; intro i hi
  simp only [aField, formatC, BitVec.getLsbD_extractLsb', BitVec.getLsbD_append]
  simp [show ¬ 48 + i < 32 by omega, show ¬ 48 + i - 32 < 8 by omega, show ¬ 48 + i - 32 - 8 < 8 by omega,
    show 48 + i - 32 - 8 - 8 = i by omega, hi]

@[simp] theorem bField_formatC (op a b c : Byte) (imm : Word) : bField (formatC op a b c imm) = b := by
  apply BitVec.eq_of_getLsbD_eq; intro i hi
  simp only [bField, formatC, BitVec.getLsbD_extractLsb', BitVec.getLsbD_append]
  simp [show ¬ 40 + i < 32 by omega, show ¬ 40 + i - 32 < 8 by omega, show 40 + i - 32 - 8 = i by omega, hi]

@[simp] theorem cField_formatC (op a b c : Byte) (imm : Word) : cField (formatC op a b c imm) = c := by
  apply BitVec.eq_of_getLsbD_eq; intro i hi
  simp only [cField, formatC, BitVec.getLsbD_extractLsb', BitVec.getLsbD_append]
  simp [show ¬ 32 + i < 32 by omega, show 32 + i - 32 = i by omega, hi]

@[simp] theorem immField_formatC (op a b c : Byte) (imm : Word) : immField (formatC op a b c imm) = imm := by
  apply BitVec.eq_of_getLsbD_eq; intro i hi
  simp only [immField, formatC, BitVec.getLsbD_extractLsb', BitVec.getLsbD_append]
  simp [hi]

/-- A word is its five fields (30_encoding.md R92). -/
theorem formatC_fields (w : Word64) : formatC (opField w) (aField w) (bField w) (cField w) (immField w) = w := by
  apply BitVec.eq_of_getLsbD_eq; intro i hi
  simp only [formatC, opField, aField, bField, cField, immField, BitVec.getLsbD_append,
    BitVec.getLsbD_extractLsb']
  by_cases h1 : i < 32
  · simp [h1]
  by_cases h2 : i - 32 < 8
  · simp [h1, h2, show 32 + (i - 32) = i by omega]
  by_cases h3 : i - 32 - 8 < 8
  · simp [h1, h2, h3, show 40 + (i - 32 - 8) = i by omega]
  by_cases h4 : i - 32 - 8 - 8 < 8
  · simp [h1, h2, h3, h4, show 48 + (i - 32 - 8 - 8) = i by omega]
  · simp [h1, h2, h3, h4, show 56 + (i - 32 - 8 - 8 - 8) = i by omega, show i - 32 - 8 - 8 - 8 < 8 by omega]

/-- What decoding the word of five fields is. -/
theorem decode_formatC (op a b c : Byte) (imm : Word) :
    decode (formatC op a b c imm) = decodeFields op a b c imm := by simp [decode]

@[simp] theorem catOfNumber_catNumber (cat : BlockCat) : catOfNumber (catNumber cat) = some cat := by
  cases cat <;> rfl

@[simp] theorem regOfNumber_regNumber (r : Reg) : regOfNumber (regNumber r) = some r := by
  cases r with
  | outLevel j => revert j; decide
  | _ => rfl

end Sys2Proof
end

