-- ==== Sys2Proof/Laws/State.lean ====
section
/-! SUPPORT. One lemma per field per named update of State, all by rfl, so that no proof unfolds a record update. -/

namespace Sys2Proof.Machine

/-! ## complete -/

@[simp] theorem complete_bitOffset (v : Word) (s : State) : (complete v s).bitOffset = s.bitOffset := rfl
@[simp] theorem complete_maxBitOffset (v : Word) (s : State) : (complete v s).maxBitOffset = s.maxBitOffset := rfl
@[simp] theorem complete_cursorValid (v : Word) (s : State) : (complete v s).cursorValid = s.cursorValid := rfl
@[simp] theorem complete_range (v : Word) (s : State) : (complete v s).range = s.range := rfl
@[simp] theorem complete_value (v : Word) (s : State) : (complete v s).value = s.value := rfl
@[simp] theorem complete_phase (v : Word) (s : State) : (complete v s).phase = s.phase := rfl
@[simp] theorem complete_ctx (v : Word) (s : State) : (complete v s).ctx = s.ctx := rfl
@[simp] theorem complete_ctxValid (v : Word) (s : State) : (complete v s).ctxValid = s.ctxValid := rfl
@[simp] theorem complete_unitCfg (v : Word) (s : State) : (complete v s).unitCfg = s.unitCfg := rfl
@[simp] theorem complete_outCbf (v : Word) (s : State) : (complete v s).outCbf = s.outCbf := rfl
@[simp] theorem complete_outNLevels (v : Word) (s : State) : (complete v s).outNLevels = s.outNLevels := rfl
@[simp] theorem complete_outSig (v : Word) (s : State) : (complete v s).outSig = s.outSig := rfl
@[simp] theorem complete_outLevel (v : Word) (s : State) : (complete v s).outLevel = s.outLevel := rfl
@[simp] theorem complete_outValid (v : Word) (s : State) : (complete v s).outValid = s.outValid := rfl
@[simp] theorem complete_lastErr (v : Word) (s : State) : (complete v s).lastErr = s.lastErr := rfl
@[simp] theorem complete_buf (v : Word) (s : State) : (complete v s).buf = s.buf := rfl
@[simp] theorem complete_params (v : Word) (s : State) : (complete v s).params = s.params := rfl
@[simp] theorem complete_program (v : Word) (s : State) : (complete v s).program = s.program := rfl
@[simp] theorem complete_programIndex (v : Word) (s : State) : (complete v s).programIndex = s.programIndex := rfl
@[simp] theorem complete_response (v : Word) (s : State) : (complete v s).response = some (responseWord 0 (statusCode .ok) v) := rfl
@[simp] theorem complete_draws (v : Word) (s : State) : (complete v s).draws = s.draws := rfl
@[simp] theorem complete_bufRewritten (v : Word) (s : State) : (complete v s).bufRewritten = s.bufRewritten := rfl

/-! ## raiseError -/

@[simp] theorem raiseError_bitOffset (e : CmdError) (s : State) : (raiseError e s).bitOffset = s.bitOffset := rfl
@[simp] theorem raiseError_maxBitOffset (e : CmdError) (s : State) : (raiseError e s).maxBitOffset = s.maxBitOffset := rfl
@[simp] theorem raiseError_cursorValid (e : CmdError) (s : State) : (raiseError e s).cursorValid = s.cursorValid := rfl
@[simp] theorem raiseError_range (e : CmdError) (s : State) : (raiseError e s).range = s.range := rfl
@[simp] theorem raiseError_value (e : CmdError) (s : State) : (raiseError e s).value = s.value := rfl
@[simp] theorem raiseError_phase (e : CmdError) (s : State) : (raiseError e s).phase = (if abortsUnit e then .failed else s.phase) := rfl
@[simp] theorem raiseError_ctx (e : CmdError) (s : State) : (raiseError e s).ctx = s.ctx := rfl
@[simp] theorem raiseError_ctxValid (e : CmdError) (s : State) : (raiseError e s).ctxValid = s.ctxValid := rfl
@[simp] theorem raiseError_unitCfg (e : CmdError) (s : State) : (raiseError e s).unitCfg = s.unitCfg := rfl
@[simp] theorem raiseError_outCbf (e : CmdError) (s : State) : (raiseError e s).outCbf = s.outCbf := rfl
@[simp] theorem raiseError_outNLevels (e : CmdError) (s : State) : (raiseError e s).outNLevels = s.outNLevels := rfl
@[simp] theorem raiseError_outSig (e : CmdError) (s : State) : (raiseError e s).outSig = s.outSig := rfl
@[simp] theorem raiseError_outLevel (e : CmdError) (s : State) : (raiseError e s).outLevel = s.outLevel := rfl
@[simp] theorem raiseError_outValid (e : CmdError) (s : State) : (raiseError e s).outValid = s.outValid := rfl
@[simp] theorem raiseError_lastErr (e : CmdError) (s : State) : (raiseError e s).lastErr = e.info ++ statusCode e.status := rfl
@[simp] theorem raiseError_buf (e : CmdError) (s : State) : (raiseError e s).buf = s.buf := rfl
@[simp] theorem raiseError_params (e : CmdError) (s : State) : (raiseError e s).params = s.params := rfl
@[simp] theorem raiseError_program (e : CmdError) (s : State) : (raiseError e s).program = s.program := rfl
@[simp] theorem raiseError_programIndex (e : CmdError) (s : State) : (raiseError e s).programIndex = s.programIndex := rfl
@[simp] theorem raiseError_response (e : CmdError) (s : State) : (raiseError e s).response = some (responseWord e.info (statusCode e.status) 0) := rfl
@[simp] theorem raiseError_draws (e : CmdError) (s : State) : (raiseError e s).draws = s.draws := rfl
@[simp] theorem raiseError_bufRewritten (e : CmdError) (s : State) : (raiseError e s).bufRewritten = s.bufRewritten := rfl

/-! ## moveCursor -/

@[simp] theorem moveCursor_bitOffset (s : State) (n : Nat) : (moveCursor s n).bitOffset = s.bitOffset + BitVec.ofNat 32 n := rfl
@[simp] theorem moveCursor_maxBitOffset (s : State) (n : Nat) : (moveCursor s n).maxBitOffset = s.maxBitOffset := rfl
@[simp] theorem moveCursor_cursorValid (s : State) (n : Nat) : (moveCursor s n).cursorValid = s.cursorValid := rfl
@[simp] theorem moveCursor_range (s : State) (n : Nat) : (moveCursor s n).range = s.range := rfl
@[simp] theorem moveCursor_value (s : State) (n : Nat) : (moveCursor s n).value = s.value := rfl
@[simp] theorem moveCursor_phase (s : State) (n : Nat) : (moveCursor s n).phase = s.phase := rfl
@[simp] theorem moveCursor_ctx (s : State) (n : Nat) : (moveCursor s n).ctx = s.ctx := rfl
@[simp] theorem moveCursor_ctxValid (s : State) (n : Nat) : (moveCursor s n).ctxValid = s.ctxValid := rfl
@[simp] theorem moveCursor_unitCfg (s : State) (n : Nat) : (moveCursor s n).unitCfg = s.unitCfg := rfl
@[simp] theorem moveCursor_outCbf (s : State) (n : Nat) : (moveCursor s n).outCbf = s.outCbf := rfl
@[simp] theorem moveCursor_outNLevels (s : State) (n : Nat) : (moveCursor s n).outNLevels = s.outNLevels := rfl
@[simp] theorem moveCursor_outSig (s : State) (n : Nat) : (moveCursor s n).outSig = s.outSig := rfl
@[simp] theorem moveCursor_outLevel (s : State) (n : Nat) : (moveCursor s n).outLevel = s.outLevel := rfl
@[simp] theorem moveCursor_outValid (s : State) (n : Nat) : (moveCursor s n).outValid = s.outValid := rfl
@[simp] theorem moveCursor_lastErr (s : State) (n : Nat) : (moveCursor s n).lastErr = s.lastErr := rfl
@[simp] theorem moveCursor_buf (s : State) (n : Nat) : (moveCursor s n).buf = s.buf := rfl
@[simp] theorem moveCursor_params (s : State) (n : Nat) : (moveCursor s n).params = s.params := rfl
@[simp] theorem moveCursor_program (s : State) (n : Nat) : (moveCursor s n).program = s.program := rfl
@[simp] theorem moveCursor_programIndex (s : State) (n : Nat) : (moveCursor s n).programIndex = s.programIndex := rfl
@[simp] theorem moveCursor_response (s : State) (n : Nat) : (moveCursor s n).response = s.response := rfl
@[simp] theorem moveCursor_draws (s : State) (n : Nat) : (moveCursor s n).draws = s.draws := rfl
@[simp] theorem moveCursor_bufRewritten (s : State) (n : Nat) : (moveCursor s n).bufRewritten = s.bufRewritten := rfl

/-! ## commit -/

@[simp] theorem commit_bitOffset (r : Interval) (s : State) : (commit r s).bitOffset = s.bitOffset + BitVec.ofNat 32 r.adv := rfl
@[simp] theorem commit_maxBitOffset (r : Interval) (s : State) : (commit r s).maxBitOffset = s.maxBitOffset := rfl
@[simp] theorem commit_cursorValid (r : Interval) (s : State) : (commit r s).cursorValid = s.cursorValid := rfl
@[simp] theorem commit_range (r : Interval) (s : State) : (commit r s).range = r.range := rfl
@[simp] theorem commit_value (r : Interval) (s : State) : (commit r s).value = r.value := rfl
@[simp] theorem commit_phase (r : Interval) (s : State) : (commit r s).phase = s.phase := rfl
@[simp] theorem commit_ctx (r : Interval) (s : State) : (commit r s).ctx = s.ctx := rfl
@[simp] theorem commit_ctxValid (r : Interval) (s : State) : (commit r s).ctxValid = s.ctxValid := rfl
@[simp] theorem commit_unitCfg (r : Interval) (s : State) : (commit r s).unitCfg = s.unitCfg := rfl
@[simp] theorem commit_outCbf (r : Interval) (s : State) : (commit r s).outCbf = s.outCbf := rfl
@[simp] theorem commit_outNLevels (r : Interval) (s : State) : (commit r s).outNLevels = s.outNLevels := rfl
@[simp] theorem commit_outSig (r : Interval) (s : State) : (commit r s).outSig = s.outSig := rfl
@[simp] theorem commit_outLevel (r : Interval) (s : State) : (commit r s).outLevel = s.outLevel := rfl
@[simp] theorem commit_outValid (r : Interval) (s : State) : (commit r s).outValid = s.outValid := rfl
@[simp] theorem commit_lastErr (r : Interval) (s : State) : (commit r s).lastErr = s.lastErr := rfl
@[simp] theorem commit_buf (r : Interval) (s : State) : (commit r s).buf = s.buf := rfl
@[simp] theorem commit_params (r : Interval) (s : State) : (commit r s).params = s.params := rfl
@[simp] theorem commit_program (r : Interval) (s : State) : (commit r s).program = s.program := rfl
@[simp] theorem commit_programIndex (r : Interval) (s : State) : (commit r s).programIndex = s.programIndex := rfl
@[simp] theorem commit_response (r : Interval) (s : State) : (commit r s).response = s.response := rfl
@[simp] theorem commit_draws (r : Interval) (s : State) : (commit r s).draws = r.draws := rfl
@[simp] theorem commit_bufRewritten (r : Interval) (s : State) : (commit r s).bufRewritten = s.bufRewritten := rfl

/-! ## setCtx -/

@[simp] theorem setCtx_bitOffset (idx : Nat) (e : ContextEntry) (s : State) : (setCtx idx e s).bitOffset = s.bitOffset := rfl
@[simp] theorem setCtx_maxBitOffset (idx : Nat) (e : ContextEntry) (s : State) : (setCtx idx e s).maxBitOffset = s.maxBitOffset := rfl
@[simp] theorem setCtx_cursorValid (idx : Nat) (e : ContextEntry) (s : State) : (setCtx idx e s).cursorValid = s.cursorValid := rfl
@[simp] theorem setCtx_range (idx : Nat) (e : ContextEntry) (s : State) : (setCtx idx e s).range = s.range := rfl
@[simp] theorem setCtx_value (idx : Nat) (e : ContextEntry) (s : State) : (setCtx idx e s).value = s.value := rfl
@[simp] theorem setCtx_phase (idx : Nat) (e : ContextEntry) (s : State) : (setCtx idx e s).phase = s.phase := rfl
@[simp] theorem setCtx_ctx (idx : Nat) (e : ContextEntry) (s : State) : (setCtx idx e s).ctx = s.ctx.setIfInBounds idx e := rfl
@[simp] theorem setCtx_ctxValid (idx : Nat) (e : ContextEntry) (s : State) : (setCtx idx e s).ctxValid = s.ctxValid := rfl
@[simp] theorem setCtx_unitCfg (idx : Nat) (e : ContextEntry) (s : State) : (setCtx idx e s).unitCfg = s.unitCfg := rfl
@[simp] theorem setCtx_outCbf (idx : Nat) (e : ContextEntry) (s : State) : (setCtx idx e s).outCbf = s.outCbf := rfl
@[simp] theorem setCtx_outNLevels (idx : Nat) (e : ContextEntry) (s : State) : (setCtx idx e s).outNLevels = s.outNLevels := rfl
@[simp] theorem setCtx_outSig (idx : Nat) (e : ContextEntry) (s : State) : (setCtx idx e s).outSig = s.outSig := rfl
@[simp] theorem setCtx_outLevel (idx : Nat) (e : ContextEntry) (s : State) : (setCtx idx e s).outLevel = s.outLevel := rfl
@[simp] theorem setCtx_outValid (idx : Nat) (e : ContextEntry) (s : State) : (setCtx idx e s).outValid = s.outValid := rfl
@[simp] theorem setCtx_lastErr (idx : Nat) (e : ContextEntry) (s : State) : (setCtx idx e s).lastErr = s.lastErr := rfl
@[simp] theorem setCtx_buf (idx : Nat) (e : ContextEntry) (s : State) : (setCtx idx e s).buf = s.buf := rfl
@[simp] theorem setCtx_params (idx : Nat) (e : ContextEntry) (s : State) : (setCtx idx e s).params = s.params := rfl
@[simp] theorem setCtx_program (idx : Nat) (e : ContextEntry) (s : State) : (setCtx idx e s).program = s.program := rfl
@[simp] theorem setCtx_programIndex (idx : Nat) (e : ContextEntry) (s : State) : (setCtx idx e s).programIndex = s.programIndex := rfl
@[simp] theorem setCtx_response (idx : Nat) (e : ContextEntry) (s : State) : (setCtx idx e s).response = s.response := rfl
@[simp] theorem setCtx_draws (idx : Nat) (e : ContextEntry) (s : State) : (setCtx idx e s).draws = s.draws := rfl
@[simp] theorem setCtx_bufRewritten (idx : Nat) (e : ContextEntry) (s : State) : (setCtx idx e s).bufRewritten = s.bufRewritten := rfl

/-! ## setDecoding -/

@[simp] theorem setDecoding_bitOffset (s : State) : (setDecoding s).bitOffset = s.bitOffset := rfl
@[simp] theorem setDecoding_maxBitOffset (s : State) : (setDecoding s).maxBitOffset = s.maxBitOffset := rfl
@[simp] theorem setDecoding_cursorValid (s : State) : (setDecoding s).cursorValid = s.cursorValid := rfl
@[simp] theorem setDecoding_range (s : State) : (setDecoding s).range = s.range := rfl
@[simp] theorem setDecoding_value (s : State) : (setDecoding s).value = s.value := rfl
@[simp] theorem setDecoding_phase (s : State) : (setDecoding s).phase = .decoding := rfl
@[simp] theorem setDecoding_ctx (s : State) : (setDecoding s).ctx = s.ctx := rfl
@[simp] theorem setDecoding_ctxValid (s : State) : (setDecoding s).ctxValid = s.ctxValid := rfl
@[simp] theorem setDecoding_unitCfg (s : State) : (setDecoding s).unitCfg = s.unitCfg := rfl
@[simp] theorem setDecoding_outCbf (s : State) : (setDecoding s).outCbf = s.outCbf := rfl
@[simp] theorem setDecoding_outNLevels (s : State) : (setDecoding s).outNLevels = s.outNLevels := rfl
@[simp] theorem setDecoding_outSig (s : State) : (setDecoding s).outSig = s.outSig := rfl
@[simp] theorem setDecoding_outLevel (s : State) : (setDecoding s).outLevel = s.outLevel := rfl
@[simp] theorem setDecoding_outValid (s : State) : (setDecoding s).outValid = s.outValid := rfl
@[simp] theorem setDecoding_lastErr (s : State) : (setDecoding s).lastErr = s.lastErr := rfl
@[simp] theorem setDecoding_buf (s : State) : (setDecoding s).buf = s.buf := rfl
@[simp] theorem setDecoding_params (s : State) : (setDecoding s).params = s.params := rfl
@[simp] theorem setDecoding_program (s : State) : (setDecoding s).program = s.program := rfl
@[simp] theorem setDecoding_programIndex (s : State) : (setDecoding s).programIndex = s.programIndex := rfl
@[simp] theorem setDecoding_response (s : State) : (setDecoding s).response = s.response := rfl
@[simp] theorem setDecoding_draws (s : State) : (setDecoding s).draws = s.draws := rfl
@[simp] theorem setDecoding_bufRewritten (s : State) : (setDecoding s).bufRewritten = s.bufRewritten := rfl

/-! ## openUnit -/

@[simp] theorem openUnit_bitOffset (max : Word) (s : State) : (openUnit max s).bitOffset = 0 := rfl
@[simp] theorem openUnit_maxBitOffset (max : Word) (s : State) : (openUnit max s).maxBitOffset = max := rfl
@[simp] theorem openUnit_cursorValid (max : Word) (s : State) : (openUnit max s).cursorValid = true := rfl
@[simp] theorem openUnit_range (max : Word) (s : State) : (openUnit max s).range = s.range := rfl
@[simp] theorem openUnit_value (max : Word) (s : State) : (openUnit max s).value = s.value := rfl
@[simp] theorem openUnit_phase (max : Word) (s : State) : (openUnit max s).phase = .idle := rfl
@[simp] theorem openUnit_ctx (max : Word) (s : State) : (openUnit max s).ctx = s.ctx := rfl
@[simp] theorem openUnit_ctxValid (max : Word) (s : State) : (openUnit max s).ctxValid = false := rfl
@[simp] theorem openUnit_unitCfg (max : Word) (s : State) : (openUnit max s).unitCfg = s.unitCfg := rfl
@[simp] theorem openUnit_outCbf (max : Word) (s : State) : (openUnit max s).outCbf = s.outCbf := rfl
@[simp] theorem openUnit_outNLevels (max : Word) (s : State) : (openUnit max s).outNLevels = s.outNLevels := rfl
@[simp] theorem openUnit_outSig (max : Word) (s : State) : (openUnit max s).outSig = s.outSig := rfl
@[simp] theorem openUnit_outLevel (max : Word) (s : State) : (openUnit max s).outLevel = s.outLevel := rfl
@[simp] theorem openUnit_outValid (max : Word) (s : State) : (openUnit max s).outValid = s.outValid := rfl
@[simp] theorem openUnit_lastErr (max : Word) (s : State) : (openUnit max s).lastErr = s.lastErr := rfl
@[simp] theorem openUnit_buf (max : Word) (s : State) : (openUnit max s).buf = s.buf := rfl
@[simp] theorem openUnit_params (max : Word) (s : State) : (openUnit max s).params = s.params := rfl
@[simp] theorem openUnit_program (max : Word) (s : State) : (openUnit max s).program = s.program := rfl
@[simp] theorem openUnit_programIndex (max : Word) (s : State) : (openUnit max s).programIndex = s.programIndex := rfl
@[simp] theorem openUnit_response (max : Word) (s : State) : (openUnit max s).response = s.response := rfl
@[simp] theorem openUnit_draws (max : Word) (s : State) : (openUnit max s).draws = s.draws := rfl
@[simp] theorem openUnit_bufRewritten (max : Word) (s : State) : (openUnit max s).bufRewritten = false := rfl

/-! ## resetCore -/

@[simp] theorem resetCore_bitOffset (s : State) : (resetCore s).bitOffset = 0 := rfl
@[simp] theorem resetCore_maxBitOffset (s : State) : (resetCore s).maxBitOffset = 0 := rfl
@[simp] theorem resetCore_cursorValid (s : State) : (resetCore s).cursorValid = false := rfl
@[simp] theorem resetCore_range (s : State) : (resetCore s).range = (freeContents s).range := rfl
@[simp] theorem resetCore_value (s : State) : (resetCore s).value = (freeContents s).value := rfl
@[simp] theorem resetCore_phase (s : State) : (resetCore s).phase = .idle := rfl
@[simp] theorem resetCore_ctx (s : State) : (resetCore s).ctx = (freeContents s).ctx := rfl
@[simp] theorem resetCore_ctxValid (s : State) : (resetCore s).ctxValid = false := rfl
@[simp] theorem resetCore_unitCfg (s : State) : (resetCore s).unitCfg = (freeContents s).unitCfg := rfl
@[simp] theorem resetCore_outCbf (s : State) : (resetCore s).outCbf = (freeContents s).outCbf := rfl
@[simp] theorem resetCore_outNLevels (s : State) : (resetCore s).outNLevels = (freeContents s).outNLevels := rfl
@[simp] theorem resetCore_outSig (s : State) : (resetCore s).outSig = (freeContents s).outSig := rfl
@[simp] theorem resetCore_outLevel (s : State) : (resetCore s).outLevel = (freeContents s).outLevel := rfl
@[simp] theorem resetCore_outValid (s : State) : (resetCore s).outValid = false := rfl
@[simp] theorem resetCore_lastErr (s : State) : (resetCore s).lastErr = 0 := rfl
@[simp] theorem resetCore_buf (s : State) : (resetCore s).buf = s.buf := rfl
@[simp] theorem resetCore_params (s : State) : (resetCore s).params = s.params := rfl
@[simp] theorem resetCore_program (s : State) : (resetCore s).program = s.program := rfl
@[simp] theorem resetCore_programIndex (s : State) : (resetCore s).programIndex = s.programIndex := rfl
@[simp] theorem resetCore_response (s : State) : (resetCore s).response = s.response := rfl
@[simp] theorem resetCore_draws (s : State) : (resetCore s).draws = s.draws + 1 := rfl
@[simp] theorem resetCore_bufRewritten (s : State) : (resetCore s).bufRewritten = false := rfl

/-! ## storeBlock -/

@[simp] theorem storeBlock_bitOffset (sig : BitVec 64) (ls : List Word) (s : State) : (storeBlock sig ls s).bitOffset = s.bitOffset := rfl
@[simp] theorem storeBlock_maxBitOffset (sig : BitVec 64) (ls : List Word) (s : State) : (storeBlock sig ls s).maxBitOffset = s.maxBitOffset := rfl
@[simp] theorem storeBlock_cursorValid (sig : BitVec 64) (ls : List Word) (s : State) : (storeBlock sig ls s).cursorValid = s.cursorValid := rfl
@[simp] theorem storeBlock_range (sig : BitVec 64) (ls : List Word) (s : State) : (storeBlock sig ls s).range = s.range := rfl
@[simp] theorem storeBlock_value (sig : BitVec 64) (ls : List Word) (s : State) : (storeBlock sig ls s).value = s.value := rfl
@[simp] theorem storeBlock_phase (sig : BitVec 64) (ls : List Word) (s : State) : (storeBlock sig ls s).phase = s.phase := rfl
@[simp] theorem storeBlock_ctx (sig : BitVec 64) (ls : List Word) (s : State) : (storeBlock sig ls s).ctx = s.ctx := rfl
@[simp] theorem storeBlock_ctxValid (sig : BitVec 64) (ls : List Word) (s : State) : (storeBlock sig ls s).ctxValid = s.ctxValid := rfl
@[simp] theorem storeBlock_unitCfg (sig : BitVec 64) (ls : List Word) (s : State) : (storeBlock sig ls s).unitCfg = s.unitCfg := rfl
@[simp] theorem storeBlock_outCbf (sig : BitVec 64) (ls : List Word) (s : State) : (storeBlock sig ls s).outCbf = true := rfl
@[simp] theorem storeBlock_outNLevels (sig : BitVec 64) (ls : List Word) (s : State) : (storeBlock sig ls s).outNLevels = BitVec.ofNat 7 ls.length := rfl
@[simp] theorem storeBlock_outSig (sig : BitVec 64) (ls : List Word) (s : State) : (storeBlock sig ls s).outSig = sig := rfl
@[simp] theorem storeBlock_outLevel (sig : BitVec 64) (ls : List Word) (s : State) : (storeBlock sig ls s).outLevel = levelRegisters ls (freeContents s).outLevel := rfl
@[simp] theorem storeBlock_outValid (sig : BitVec 64) (ls : List Word) (s : State) : (storeBlock sig ls s).outValid = true := rfl
@[simp] theorem storeBlock_lastErr (sig : BitVec 64) (ls : List Word) (s : State) : (storeBlock sig ls s).lastErr = s.lastErr := rfl
@[simp] theorem storeBlock_buf (sig : BitVec 64) (ls : List Word) (s : State) : (storeBlock sig ls s).buf = s.buf := rfl
@[simp] theorem storeBlock_params (sig : BitVec 64) (ls : List Word) (s : State) : (storeBlock sig ls s).params = s.params := rfl
@[simp] theorem storeBlock_program (sig : BitVec 64) (ls : List Word) (s : State) : (storeBlock sig ls s).program = s.program := rfl
@[simp] theorem storeBlock_programIndex (sig : BitVec 64) (ls : List Word) (s : State) : (storeBlock sig ls s).programIndex = s.programIndex := rfl
@[simp] theorem storeBlock_response (sig : BitVec 64) (ls : List Word) (s : State) : (storeBlock sig ls s).response = s.response := rfl
@[simp] theorem storeBlock_draws (sig : BitVec 64) (ls : List Word) (s : State) : (storeBlock sig ls s).draws = s.draws + 1 := rfl
@[simp] theorem storeBlock_bufRewritten (sig : BitVec 64) (ls : List Word) (s : State) : (storeBlock sig ls s).bufRewritten = s.bufRewritten := rfl

/-! ## storeEmptyBlock -/

@[simp] theorem storeEmptyBlock_bitOffset (s : State) : (storeEmptyBlock s).bitOffset = s.bitOffset := rfl
@[simp] theorem storeEmptyBlock_maxBitOffset (s : State) : (storeEmptyBlock s).maxBitOffset = s.maxBitOffset := rfl
@[simp] theorem storeEmptyBlock_cursorValid (s : State) : (storeEmptyBlock s).cursorValid = s.cursorValid := rfl
@[simp] theorem storeEmptyBlock_range (s : State) : (storeEmptyBlock s).range = s.range := rfl
@[simp] theorem storeEmptyBlock_value (s : State) : (storeEmptyBlock s).value = s.value := rfl
@[simp] theorem storeEmptyBlock_phase (s : State) : (storeEmptyBlock s).phase = s.phase := rfl
@[simp] theorem storeEmptyBlock_ctx (s : State) : (storeEmptyBlock s).ctx = s.ctx := rfl
@[simp] theorem storeEmptyBlock_ctxValid (s : State) : (storeEmptyBlock s).ctxValid = s.ctxValid := rfl
@[simp] theorem storeEmptyBlock_unitCfg (s : State) : (storeEmptyBlock s).unitCfg = s.unitCfg := rfl
@[simp] theorem storeEmptyBlock_outCbf (s : State) : (storeEmptyBlock s).outCbf = false := rfl
@[simp] theorem storeEmptyBlock_outNLevels (s : State) : (storeEmptyBlock s).outNLevels = 0 := rfl
@[simp] theorem storeEmptyBlock_outSig (s : State) : (storeEmptyBlock s).outSig = 0 := rfl
@[simp] theorem storeEmptyBlock_outLevel (s : State) : (storeEmptyBlock s).outLevel = (freeContents s).outLevel := rfl
@[simp] theorem storeEmptyBlock_outValid (s : State) : (storeEmptyBlock s).outValid = true := rfl
@[simp] theorem storeEmptyBlock_lastErr (s : State) : (storeEmptyBlock s).lastErr = s.lastErr := rfl
@[simp] theorem storeEmptyBlock_buf (s : State) : (storeEmptyBlock s).buf = s.buf := rfl
@[simp] theorem storeEmptyBlock_params (s : State) : (storeEmptyBlock s).params = s.params := rfl
@[simp] theorem storeEmptyBlock_program (s : State) : (storeEmptyBlock s).program = s.program := rfl
@[simp] theorem storeEmptyBlock_programIndex (s : State) : (storeEmptyBlock s).programIndex = s.programIndex := rfl
@[simp] theorem storeEmptyBlock_response (s : State) : (storeEmptyBlock s).response = s.response := rfl
@[simp] theorem storeEmptyBlock_draws (s : State) : (storeEmptyBlock s).draws = s.draws + 1 := rfl
@[simp] theorem storeEmptyBlock_bufRewritten (s : State) : (storeEmptyBlock s).bufRewritten = s.bufRewritten := rfl

/-! ## loseBlock -/

@[simp] theorem loseBlock_bitOffset (s : State) : (loseBlock s).bitOffset = s.bitOffset := rfl
@[simp] theorem loseBlock_maxBitOffset (s : State) : (loseBlock s).maxBitOffset = s.maxBitOffset := rfl
@[simp] theorem loseBlock_cursorValid (s : State) : (loseBlock s).cursorValid = s.cursorValid := rfl
@[simp] theorem loseBlock_range (s : State) : (loseBlock s).range = s.range := rfl
@[simp] theorem loseBlock_value (s : State) : (loseBlock s).value = s.value := rfl
@[simp] theorem loseBlock_phase (s : State) : (loseBlock s).phase = s.phase := rfl
@[simp] theorem loseBlock_ctx (s : State) : (loseBlock s).ctx = s.ctx := rfl
@[simp] theorem loseBlock_ctxValid (s : State) : (loseBlock s).ctxValid = s.ctxValid := rfl
@[simp] theorem loseBlock_unitCfg (s : State) : (loseBlock s).unitCfg = s.unitCfg := rfl
@[simp] theorem loseBlock_outCbf (s : State) : (loseBlock s).outCbf = (freeContents s).outCbf := rfl
@[simp] theorem loseBlock_outNLevels (s : State) : (loseBlock s).outNLevels = (freeContents s).outNLevels := rfl
@[simp] theorem loseBlock_outSig (s : State) : (loseBlock s).outSig = (freeContents s).outSig := rfl
@[simp] theorem loseBlock_outLevel (s : State) : (loseBlock s).outLevel = (freeContents s).outLevel := rfl
@[simp] theorem loseBlock_outValid (s : State) : (loseBlock s).outValid = s.outValid := rfl
@[simp] theorem loseBlock_lastErr (s : State) : (loseBlock s).lastErr = s.lastErr := rfl
@[simp] theorem loseBlock_buf (s : State) : (loseBlock s).buf = s.buf := rfl
@[simp] theorem loseBlock_params (s : State) : (loseBlock s).params = s.params := rfl
@[simp] theorem loseBlock_program (s : State) : (loseBlock s).program = s.program := rfl
@[simp] theorem loseBlock_programIndex (s : State) : (loseBlock s).programIndex = s.programIndex := rfl
@[simp] theorem loseBlock_response (s : State) : (loseBlock s).response = s.response := rfl
@[simp] theorem loseBlock_draws (s : State) : (loseBlock s).draws = s.draws + 1 := rfl
@[simp] theorem loseBlock_bufRewritten (s : State) : (loseBlock s).bufRewritten = s.bufRewritten := rfl

/-! ## hostAdvance -/

@[simp] theorem hostAdvance_bitOffset (s : State) : (hostAdvance s).bitOffset = s.bitOffset := rfl
@[simp] theorem hostAdvance_maxBitOffset (s : State) : (hostAdvance s).maxBitOffset = s.maxBitOffset := rfl
@[simp] theorem hostAdvance_cursorValid (s : State) : (hostAdvance s).cursorValid = s.cursorValid := rfl
@[simp] theorem hostAdvance_range (s : State) : (hostAdvance s).range = s.range := rfl
@[simp] theorem hostAdvance_value (s : State) : (hostAdvance s).value = s.value := rfl
@[simp] theorem hostAdvance_phase (s : State) : (hostAdvance s).phase = s.phase := rfl
@[simp] theorem hostAdvance_ctx (s : State) : (hostAdvance s).ctx = s.ctx := rfl
@[simp] theorem hostAdvance_ctxValid (s : State) : (hostAdvance s).ctxValid = s.ctxValid := rfl
@[simp] theorem hostAdvance_unitCfg (s : State) : (hostAdvance s).unitCfg = s.unitCfg := rfl
@[simp] theorem hostAdvance_outCbf (s : State) : (hostAdvance s).outCbf = s.outCbf := rfl
@[simp] theorem hostAdvance_outNLevels (s : State) : (hostAdvance s).outNLevels = s.outNLevels := rfl
@[simp] theorem hostAdvance_outSig (s : State) : (hostAdvance s).outSig = s.outSig := rfl
@[simp] theorem hostAdvance_outLevel (s : State) : (hostAdvance s).outLevel = s.outLevel := rfl
@[simp] theorem hostAdvance_outValid (s : State) : (hostAdvance s).outValid = s.outValid := rfl
@[simp] theorem hostAdvance_lastErr (s : State) : (hostAdvance s).lastErr = s.lastErr := rfl
@[simp] theorem hostAdvance_buf (s : State) : (hostAdvance s).buf = s.buf := rfl
@[simp] theorem hostAdvance_params (s : State) : (hostAdvance s).params = s.params := rfl
@[simp] theorem hostAdvance_program (s : State) : (hostAdvance s).program = s.program := rfl
@[simp] theorem hostAdvance_programIndex (s : State) : (hostAdvance s).programIndex = s.programIndex + 1 := rfl
@[simp] theorem hostAdvance_response (s : State) : (hostAdvance s).response = s.response := rfl
@[simp] theorem hostAdvance_draws (s : State) : (hostAdvance s).draws = s.draws := rfl
@[simp] theorem hostAdvance_bufRewritten (s : State) : (hostAdvance s).bufRewritten = s.bufRewritten := rfl

end Sys2Proof.Machine
end

