-- ==== Sys2Proof/Laws/Ops.lean ====
section
/-! SUPPORT. What each shared operation of Machine/Ops.lean can do, said once. -/

namespace Sys2Proof.Machine

/-! ## Procedures that may raise an error -/

@[simp] theorem Res.bind_ok {α β : Type} (a : α) (s : State) (f : α → State → Res β) :
    (Res.ok a s).bind f = f a s := rfl

@[simp] theorem Res.bind_err {α β : Type} (e : CmdError) (s : State) (f : α → State → Res β) :
    (Res.err e s).bind f = .err e s := rfl

/-- What a procedure guarantees: Q of its value and state, E of its error and the state it leaves. -/
def Res.Post {α : Type} (Q : α → State → Prop) (E : CmdError → State → Prop) : Res α → Prop
  | .ok a t => Q a t
  | .err e t => E e t

@[simp] theorem Res.post_ok {α : Type} (Q : α → State → Prop) (E : CmdError → State → Prop) (a : α) (t : State) :
    (Res.ok a t).Post Q E = Q a t := rfl

@[simp] theorem Res.post_err {α : Type} (Q : α → State → Prop) (E : CmdError → State → Prop) (e : CmdError)
    (t : State) : (Res.err e t : Res α).Post Q E = E e t := rfl

/-- One procedure after another. -/
theorem Res.Post.bind {α β : Type} {Q : α → State → Prop} {Q' : β → State → Prop} {E : CmdError → State → Prop}
    {r : Res α} {f : α → State → Res β} (hr : r.Post Q E) (hf : ∀ a t, Q a t → (f a t).Post Q' E) :
    (r.bind f).Post Q' E := by
  cases r with
  | ok a t => exact hf a t hr
  | err e t => exact hr

/-- A weaker guarantee. -/
theorem Res.Post.mono {α : Type} {Q Q' : α → State → Prop} {E E' : CmdError → State → Prop} {r : Res α}
    (hr : r.Post Q E) (hQ : ∀ a t, Q a t → Q' a t) (hE : ∀ e t, E e t → E' e t) : r.Post Q' E' := by
  cases r with
  | ok a t => exact hQ a t hr
  | err e t => exact hE e t hr

/-! ## How a command ends -/

theorem gated_true {c : Bool} {s : State} {k : Host.Outcome State Fault Refusal} (h : c = true) :
    gated c s k = k := if_pos h

theorem gated_false {c : Bool} {s : State} {k : Host.Outcome State Fault Refusal} (h : c = false) :
    gated c s k = .next (raiseError (badState s) s) := by simp [gated, refuse, h]

theorem inCountRange_of_le {n : Byte} {s : State} {k : Host.Outcome State Fault Refusal} (h : n.toNat ≤ 32) :
    inCountRange n s k = k := if_pos h

theorem inCountRange_of_lt {n : Byte} {s : State} {k : Host.Outcome State Fault Refusal} (h : 32 < n.toNat) :
    inCountRange n s k = .next (raiseError (illegal .operandRange) s) := if_neg (by omega)

@[simp] theorem answer_ok (v : Word) (s : State) : answer (.ok v s) = .next (complete v s) := rfl

@[simp] theorem answer_err (e : CmdError) (s : State) : answer (.err e s) = .next (raiseError e s) := rfl

/-! ## Counting leading zeros -/

theorem clz32_zero : clz32 0 = 32 := rfl

theorem clz32_le (x : Word) : clz32 x ≤ 32 := by
  unfold clz32; split <;> omega

/-- The top set bit of a word that is not 0 stands at `31 - clz32`. -/
theorem clz32_spec {x : Word} (h : x ≠ 0) :
    clz32 x ≤ 31 ∧ 2 ^ (31 - clz32 x) ≤ x.toNat ∧ x.toNat < 2 ^ (32 - clz32 x) := by
  have hx : x.toNat ≠ 0 := fun h0 => h (BitVec.eq_of_toNat_eq (by simpa using h0))
  have hlog : Nat.log2 x.toNat < 32 := (Nat.log2_lt hx).2 x.isLt
  have e : clz32 x = 31 - Nat.log2 x.toNat := if_neg h
  have e1 : 31 - clz32 x = Nat.log2 x.toNat := by omega
  have e2 : 32 - clz32 x = Nat.log2 x.toNat + 1 := by omega
  exact ⟨by omega, by rw [e1]; exact Nat.log2_self_le hx, by rw [e2]; exact Nat.lt_log2_self⟩

/-- The width of a word fixes its count of leading zeros. -/
theorem clz32_eq_of_bounds {x : Word} {z : Nat} (hz : z ≤ 31) (lo : 2 ^ (31 - z) ≤ x.toNat)
    (hi : x.toNat < 2 ^ (32 - z)) : clz32 x = z := by
  have h : x ≠ 0 := by
    intro h0; subst h0; have := Nat.two_pow_pos (31 - z); simp at lo
  obtain ⟨hc, lo', hi'⟩ := clz32_spec h
  have a : 31 - z < 32 - clz32 x := (Nat.pow_lt_pow_iff_right (by omega)).1 (lt_of_le_of_lt lo hi')
  have b : 31 - clz32 x < 32 - z := (Nat.pow_lt_pow_iff_right (by omega)).1 (lt_of_le_of_lt lo' hi)
  omega

theorem clz32_le_23_iff {x : Word} : clz32 x ≤ 23 ↔ 0x100 ≤ x := by
  rw [BitVec.le_def]
  by_cases h : x = 0
  · subst h; simp [clz32]
  obtain ⟨hc, lo, hi⟩ := clz32_spec h
  have e : BitVec.toNat (0x100 : Word) = 2 ^ 8 := rfl
  rw [e]
  constructor
  · intro hz; exact le_trans (Nat.pow_le_pow_right (by omega) (by omega)) lo
  · intro hx
    by_contra hz
    have : 2 ^ (32 - clz32 x) ≤ 2 ^ 8 := Nat.pow_le_pow_right (by omega) (by omega)
    omega

/-- Left-aligning: nothing is shifted out, and no leading zero remains. -/
theorem toNat_shiftLeft_clz32 {x : Word} (h : x ≠ 0) : (x <<< clz32 x).toNat = x.toNat * 2 ^ clz32 x := by
  obtain ⟨hc, lo, hi⟩ := clz32_spec h
  have : x.toNat * 2 ^ clz32 x < 2 ^ 32 := by
    calc x.toNat * 2 ^ clz32 x < 2 ^ (32 - clz32 x) * 2 ^ clz32 x :=
          Nat.mul_lt_mul_of_pos_right hi (Nat.two_pow_pos _)
      _ = 2 ^ 32 := by rw [← Nat.pow_add]; congr 1; omega
  rw [BitVec.toNat_shiftLeft, Nat.shiftLeft_eq, Nat.mod_eq_of_lt this]

theorem clz32_shiftLeft_clz32 {x : Word} (h : x ≠ 0) : clz32 (x <<< clz32 x) = 0 := by
  obtain ⟨hc, lo, hi⟩ := clz32_spec h
  refine clz32_eq_of_bounds (by omega) ?_ (by simpa using (x <<< clz32 x).isLt)
  rw [toNat_shiftLeft_clz32 h]
  calc 2 ^ (31 - 0) = 2 ^ (31 - clz32 x) * 2 ^ clz32 x := by rw [← Nat.pow_add]; congr 1; omega
    _ ≤ x.toNat * 2 ^ clz32 x := Nat.mul_le_mul_right _ lo

/-! ## The bit buffer -/

theorem memRead_memWrite_same (m : Memory) (a : Nat) (b : Byte) : memRead (memWrite m a b) a = some b := by
  induction m with
  | nil => simp [memWrite, memRead]
  | cons c rest ih =>
    obtain ⟨k, d⟩ := c
    simp only [memWrite]
    split
    · simp [memRead]
    · split
      · simp [memRead]
      · simp [memRead, *]

theorem memRead_memWrite_other (m : Memory) {a a' : Nat} (b : Byte) (h : a' ≠ a) :
    memRead (memWrite m a b) a' = memRead m a' := by
  induction m with
  | nil => simp [memWrite, memRead, h]
  | cons c rest ih =>
    obtain ⟨k, d⟩ := c
    simp only [memWrite]
    split
    · simp [memRead, h]
    · split
      · subst_vars; simp [memRead, h]
      · simp [memRead, ih]

/-- What a write puts into the list: the cell written, and no other new one. -/
theorem mem_memWrite {m : Memory} {a : Nat} {b : Byte} {c : Host.Cell} (h : c ∈ memWrite m a b) :
    c = (a, b) ∨ c ∈ m := by
  induction m with
  | nil => simpa [memWrite] using h
  | cons d rest ih =>
    obtain ⟨k, e⟩ := d
    simp only [memWrite] at h
    split at h
    · simpa using h
    · split at h
      · subst_vars; rcases List.mem_cons.1 h with h | h <;> simp [h]
      · rcases List.mem_cons.1 h with h | h
        · simp [h]
        · rcases ih h with h | h <;> simp [h]

theorem memWf_cons {c : Host.Cell} {m : Memory} :
    memWf (c :: m) = true ↔ (∀ d ∈ m.head?, c.1 < d.1) ∧ memWf m = true := by
  cases m with
  | nil => simp [memWf]
  | cons d rest => simp [memWf]

theorem head_memWrite {m : Memory} {a : Nat} {b : Byte} {d : Host.Cell} (h : d ∈ (memWrite m a b).head?) :
    d = (a, b) ∨ d ∈ m.head? := by
  cases m with
  | nil => simpa [memWrite, eq_comm] using h
  | cons c rest =>
    obtain ⟨k, e⟩ := c
    simp only [memWrite] at h
    split at h
    · simp at h; simp [← h]
    · split at h
      · simp at h; simp [← h]
      · simp at h; simp [← h]

/-- Every memory operation keeps the canonical form; a write is the only one. -/
theorem memWf_memWrite {m : Memory} (a : Nat) (b : Byte) (h : memWf m = true) :
    memWf (memWrite m a b) = true := by
  induction m with
  | nil => rfl
  | cons c rest ih =>
    obtain ⟨k, e⟩ := c
    obtain ⟨hk, hr⟩ := memWf_cons.1 h
    simp only [memWrite]
    split
    · exact memWf_cons.2 ⟨by simpa using ‹a < k›, h⟩
    · split
      · subst_vars; exact memWf_cons.2 ⟨hk, hr⟩
      · refine memWf_cons.2 ⟨fun d hd => ?_, ih hr⟩
        rcases head_memWrite hd with rfl | hd
        · show k < a; omega
        · exact hk d hd

theorem memWf_reset : memWf State.reset.buf = true := rfl

/-! ## The cursor -/

/-- All that `Advance` does (40_bitcursor.md R122). -/
theorem advance_cases (n : Nat) (site : Byte) (s : State) :
    (s.bitOffset.toNat + n ≤ s.maxBitOffset.toNat ∧ advance n site s = .ok () (moveCursor s n)) ∨
    (s.maxBitOffset.toNat < s.bitOffset.toNat + n ∧ advance n site s = .err (exhausted site) s) := by
  unfold advance cursorFits
  by_cases h : s.bitOffset.toNat + n ≤ s.maxBitOffset.toNat
  · exact .inl ⟨h, by simp [h]⟩
  · exact .inr ⟨by omega, by simp [h]⟩

/-- A move that fits does not wrap (10_state.md R23). -/
theorem toNat_bitOffset_add {s : State} {n : Nat} (h : s.bitOffset.toNat + n ≤ s.maxBitOffset.toNat) :
    (s.bitOffset + BitVec.ofNat 32 n).toNat = s.bitOffset.toNat + n := by
  have := s.maxBitOffset.isLt
  rw [BitVec.toNat_add, BitVec.toNat_ofNat, Nat.add_mod_mod, Nat.mod_eq_of_lt (by omega)]

/-- No bit is drawn where every bit read lies inside BUF and the host has kept 70_reset_and_hazards.md R313. -/
theorem drawsAfter_of_inside {s : State} {p n : Nat} (hb : s.bufRewritten = false)
    (h : p + n ≤ 32 * s.params.bufWords) : drawsAfter s p n = s.draws := by
  unfold drawsAfter bitStored
  by_cases hn : n = 0
  · simp [hn]
  · exact if_pos (.inr (by simp [hb]; omega))

end Sys2Proof.Machine
end

