-- ==== Sys2Proof/Laws/Engine.lean ====
section
/-! SUPPORT. What renormalisation and each bin can do, said once, and the rule by which a guarantee of single bins
becomes one of every loop over bins. -/

namespace Sys2Proof.Machine

/-- All that renormalisation below a threshold does (42_arithmetic_decoder.md R179, R180). -/
theorem renormBelow_cases (th rng val : Word) (s : State) :
    (¬ rng < th ∧ renormBelow th rng val s = .ok ⟨rng, val, 0, s.draws⟩) ∨
    (rng < th ∧ s.bitOffset.toNat + clz32 rng ≤ s.maxBitOffset.toNat ∧
      renormBelow th rng val s = .ok ⟨rng <<< clz32 rng,
        (val <<< clz32 rng) ||| bitsAt s (s.bitOffset.toNat + 23) (clz32 rng), clz32 rng,
        drawsAfter s (s.bitOffset.toNat + 23) (clz32 rng)⟩) ∨
    (rng < th ∧ s.maxBitOffset.toNat < s.bitOffset.toNat + clz32 rng ∧
      renormBelow th rng val s = .error (exhausted 0x04)) := by
  unfold renormBelow renorm cursorFits readAhead
  by_cases h : rng < th
  · by_cases hf : s.bitOffset.toNat + clz32 rng ≤ s.maxBitOffset.toNat
    · exact .inr (.inl ⟨h, hf, by simp [h, hf]⟩)
    · exact .inr (.inr ⟨h, by omega, by simp [h, hf]⟩)
  · exact .inl ⟨h, by simp [h]⟩

/-- An advance of a renormalisation that succeeds stays within the valid bits, where the cursor did before. -/
theorem renormBelow_adv {th rng val : Word} {s : State} {r : Interval}
    (h : renormBelow th rng val s = .ok r) (hb : s.bitOffset.toNat ≤ s.maxBitOffset.toNat) :
    s.bitOffset.toNat + r.adv ≤ s.maxBitOffset.toNat ∧ r.adv ≤ 32 := by
  rcases renormBelow_cases th rng val s with ⟨_, e⟩ | ⟨_, hf, e⟩ | ⟨_, _, e⟩ <;> rw [e] at h <;> cases h
  · exact ⟨hb, Nat.zero_le _⟩
  · exact ⟨hf, clz32_le _⟩

/-- All that a regular bin does (42_arithmetic_decoder.md R174, R176). -/
theorem decodeRegular_cases (idx : Nat) (site : Byte) (s : State) :
    (460 ≤ idx ∧ decodeRegular idx site s = .err ⟨.logicInvariantViolation, site⟩ s) ∨
    ∃ h : idx < 460,
      let b := regularBin s.params (s.ctx[idx]) s.range s.value
      (∃ r, renormBelow renormT b.range b.value s = .ok r ∧
        decodeRegular idx site s = .ok b.sym (setCtx idx b.entry (commit r s))) ∨
      (renormBelow renormT b.range b.value s = .error (exhausted 0x04) ∧
        decodeRegular idx site s = .err (exhausted 0x04) s) := by
  by_cases h : idx < 460
  · refine .inr ⟨h, ?_⟩
    simp only [decodeRegular, ctxRef, h, dite_true]
    rcases renormBelow_cases renormT (regularBin s.params (s.ctx[idx]) s.range s.value).range
      (regularBin s.params (s.ctx[idx]) s.range s.value).value s with ⟨_, e⟩ | ⟨_, _, e⟩ | ⟨_, _, e⟩
    · exact .inl ⟨_, e, by rw [e]⟩
    · exact .inl ⟨_, e, by rw [e]⟩
    · exact .inr ⟨e, by rw [e]⟩
  · exact .inl ⟨by omega, by simp [decodeRegular, ctxRef, h]⟩

/-- All that a terminal bin does (42_arithmetic_decoder.md R181). -/
theorem decodeTerminal_cases (s : State) :
    let rng := s.range - scaled termWidth (clz32 s.range)
    (rng ≤ s.value ∧ decodeTerminal s = .ok true { s with phase := .terminated }) ∨
    (s.value < rng ∧
      ((∃ r, renormBelow renormT rng s.value s = .ok r ∧ decodeTerminal s = .ok false (commit r s)) ∨
       (renormBelow renormT rng s.value s = .error (exhausted 0x04) ∧
         decodeTerminal s = .err (exhausted 0x04) s))) := by
  simp only [decodeTerminal]
  by_cases h : s.range - scaled termWidth (clz32 s.range) ≤ s.value
  · exact .inl ⟨h, if_pos h⟩
  · refine .inr ⟨BitVec.not_le.1 h, ?_⟩
    rw [if_neg h]
    rcases renormBelow_cases renormT (s.range - scaled termWidth (clz32 s.range)) s.value s with
      ⟨_, e⟩ | ⟨_, _, e⟩ | ⟨_, _, e⟩
    · exact .inl ⟨_, e, by rw [e]⟩
    · exact .inl ⟨_, e, by rw [e]⟩
    · exact .inr ⟨e, by rw [e]⟩

/-- All that a bypass bin does (42_arithmetic_decoder.md R186). -/
theorem decodeBypass_cases (s : State) :
    (∃ r, renormBelow bypassT s.range s.value s = .ok r ∧
      ((r.range >>> 1 ≤ r.value ∧
        decodeBypass s = .ok true (commit ⟨r.range >>> 1, r.value - r.range >>> 1, r.adv, r.draws⟩ s)) ∨
       (r.value < r.range >>> 1 ∧ decodeBypass s = .ok false (commit ⟨r.range >>> 1, r.value, r.adv, r.draws⟩ s)))) ∨
    (renormBelow bypassT s.range s.value s = .error (exhausted 0x04) ∧
      decodeBypass s = .err (exhausted 0x04) s) := by
  unfold decodeBypass
  rcases renormBelow_cases bypassT s.range s.value s with ⟨_, e⟩ | ⟨_, _, e⟩ | ⟨_, _, e⟩
  · refine .inl ⟨_, e, ?_⟩
    rw [e]
    by_cases h : s.range >>> 1 ≤ s.value
    · exact .inl ⟨h, by simp [h]⟩
    · exact .inr ⟨BitVec.not_le.1 h, by simp [h]⟩
  · refine .inl ⟨_, e, ?_⟩
    rw [e]
    simp only
    split
    · exact .inl ⟨‹_›, rfl⟩
    · exact .inr ⟨BitVec.not_le.1 ‹_›, rfl⟩
  · exact .inr ⟨e, by rw [e]⟩

/-- What bins may change: the interval, the cursor, the contexts, the phase and the draws, nothing else. -/
def BinFrame (s t : State) : Prop :=
  t = { s with
    range := t.range, value := t.value, bitOffset := t.bitOffset, ctx := t.ctx, phase := t.phase, draws := t.draws }

theorem BinFrame.refl (s : State) : BinFrame s s := rfl

theorem BinFrame.trans {s t u : State} (h : BinFrame s t) (k : BinFrame t u) : BinFrame s u := by
  unfold BinFrame at *; rw [k, h]

theorem binFrame_commit (r : Interval) (s : State) : BinFrame s (commit r s) := rfl

theorem binFrame_setCtx (idx : Nat) (e : ContextEntry) (s : State) : BinFrame s (setCtx idx e s) := rfl

theorem binFrame_setDecoding (s : State) : BinFrame s (setDecoding s) := rfl

theorem BinFrame.params {s t : State} (h : BinFrame s t) : t.params = s.params := by rw [h]

theorem BinFrame.maxBitOffset {s t : State} (h : BinFrame s t) : t.maxBitOffset = s.maxBitOffset := by rw [h]

/-- A guarantee of single bins, with a budget of bins: P k holds of states from which k more bins are covered. -/
structure BinRule (m : CtxMap) (E : CmdError → State → Prop) (P : Nat → State → Prop) : Prop where
  regular : ∀ k idx s, idx < 460 → P (k + 1) s → (decodeRegular idx 0x21 s).Post (fun _ => P k) E
  bypass : ∀ k s, P (k + 1) s → (decodeBypass s).Post (fun _ => P k) E
  drop : ∀ k s, P (k + 1) s → P k s
  map : ∀ k s, P k s → s.params.ctxMap = m

namespace BinRule

variable {m : CtxMap} {E : CmdError → State → Prop} {P : Nat → State → Prop}

theorem drop_add (R : BinRule m E P) {k : Nat} {s : State} (n : Nat) (h : P (k + n) s) : P k s := by
  induction n with
  | zero => exact h
  | succ n ih => exact ih (R.drop _ _ h)

/-- The bypass bits of AD.BYPN: n bins, and a result of at most n bits beyond those of v. -/
theorem bypassBits (R : BinRule m E P) (n : Nat) : ∀ (k : Nat) (v : Word) (s : State), P (k + n) s →
    (bypassBits n v s).Post (fun v' t => P k t ∧ ((v.toNat + 1) * 2 ^ n ≤ 2 ^ 32 →
      v'.toNat < (v.toNat + 1) * 2 ^ n)) E := by
  induction n with
  | zero => exact fun k v s h => ⟨h, fun _ => by omega⟩
  | succ n ih =>
    intro k v s h
    refine (R.bypass (k + n) s h).bind fun b t ht => (ih k _ t ht).mono (fun v' u hu => ⟨hu.1, fun hv => ?_⟩)
      (fun _ _ h => h)
    have e : (v <<< 1 ||| bitWord b).toNat + 1 ≤ (v.toNat + 1) * 2 := by
      have hb : (bitWord b).toNat ≤ 1 := by cases b <;> decide
      have hs : (v <<< 1).toNat = v.toNat * 2 := by
        have : (v.toNat + 1) * 2 ^ (n + 1) = (v.toNat + 1) * 2 * 2 ^ n := by rw [Nat.pow_succ]; ring
        have h2 : (v.toNat + 1) * 2 ≤ 2 ^ 32 := by
          have := Nat.le_mul_of_pos_right ((v.toNat + 1) * 2) (Nat.two_pow_pos n); omega
        rw [BitVec.toNat_shiftLeft, Nat.shiftLeft_eq]; omega
      have ho : (v <<< 1 ||| bitWord b).toNat = 2 ^ 1 * v.toNat + (bitWord b).toNat := by
        rw [Nat.two_pow_add_eq_or_of_lt (by omega), BitVec.toNat_or, hs]; ring_nf
      omega
    have e2 : ((v <<< 1 ||| bitWord b).toNat + 1) * 2 ^ n ≤ (v.toNat + 1) * 2 ^ (n + 1) := by
      rw [Nat.pow_succ, Nat.mul_comm (2 ^ n) 2, ← Nat.mul_assoc]; exact Nat.mul_le_mul_right _ e
    exact lt_of_lt_of_le (hu.2 (le_trans e2 hv)) e2

/-- The bypass unary run of AD.BYPU: at most n bins, at most n ones counted. -/
theorem bypassUnary (R : BinRule m E P) (n : Nat) : ∀ (k c : Nat) (s : State), P (k + n) s →
    (bypassUnary n c s).Post (fun c' t => P k t ∧ c ≤ c' ∧ c' ≤ c + n) E := by
  induction n with
  | zero => exact fun k c s h => ⟨h, Nat.le_refl _, Nat.le_refl _⟩
  | succ n ih =>
    intro k c s h
    refine (R.bypass (k + n) s h).bind fun b t ht => ?_
    cases b with
    | false => exact ⟨R.drop_add n ht, Nat.le_refl _, by omega⟩
    | true => exact (ih k (c + 1) t ht).mono (fun c' u hu => ⟨hu.1, by omega, by omega⟩) (fun _ _ h => h)

end BinRule

end Sys2Proof.Machine
end

