-- ==== Sys2Proof/Laws/ResidualBlock.lean ====
section
/-! SUPPORT. RB.DECODE: the context indices its check covers, and what each of its scans guarantees, by BinRule. -/

namespace Sys2Proof.Machine

/-- A level that RB.DECODE can write (43_residual_block.md R240). -/
def LevelOk (w : Word) : Prop := 1 ≤ w.toInt.natAbs ∧ w.toInt.natAbs ≤ 2097165

/-! ## Context indices -/

/-- What the check of 43_residual_block.md R223 assures of the indices of the two scans. -/
theorem blockIndicesOk_spec {m : CtxMap} {cat : BlockCat} {left top fld inferred : Bool}
    (h : blockIndicesOk m cat left top fld inferred = true) :
    (∀ i ∈ scanForward cat, sigCtx m cat fld i < 460 ∧ lastCtx m cat fld i < 460) ∧
    m.absBase[catIndex cat] + 9 < 460 ∧
    (inferred = false → ∃ idx, cbfCtx m cat left top = some idx ∧ idx < 460) := by
  unfold blockIndicesOk blockIndices at h
  cases inferred with
  | true =>
    simp only [if_true, List.all_append, List.all_map, Bool.and_eq_true, List.all_eq_true, List.all_cons,
      List.all_nil, Function.comp, decide_eq_true_eq, Bool.and_true] at h
    exact ⟨fun i hi => ⟨h.1.1 i hi, h.1.2 i hi⟩, h.2, fun h => nomatch h⟩
  | false =>
    cases hc : cbfCtx m cat left top with
    | none => simp [hc] at h
    | some idx =>
      simp only [hc, Bool.false_eq_true, if_false, Option.map_some, List.all_append, List.all_map, Bool.and_eq_true,
        List.all_eq_true, List.all_cons, List.all_nil, Function.comp, decide_eq_true_eq, Bool.and_true] at h
      exact ⟨fun i hi => ⟨h.2.1.1 i hi, h.2.1.2 i hi⟩, h.2.2, fun _ => ⟨idx, rfl, h.1⟩⟩

theorem absCtx0_le (m : CtxMap) (cat : BlockCat) (eq1 gt1 : Nat) :
    absCtx0 m cat eq1 gt1 ≤ m.absBase[catIndex cat] + 9 := by
  unfold absCtx0; split <;> omega

theorem absCtxN_le (m : CtxMap) (cat : BlockCat) (gt1 : Nat) :
    absCtxN m cat gt1 ≤ m.absBase[catIndex cat] + 9 := by
  unfold absCtxN; split <;> omega

/-! ## The scans -/

namespace BinRule

variable {m : CtxMap} {E : CmdError → State → Prop} {P : Nat → State → Prop}

/-- Step 1: at most one bin. -/
theorem codedBlockFlag (R : BinRule m E P) {cat : BlockCat} {left top inferred : Bool}
    (hi : inferred = false → ∃ idx, cbfCtx m cat left top = some idx ∧ idx < 460)
    {k : Nat} {s : State} (h : P (k + 1) s) :
    (codedBlockFlag cat left top inferred s).Post (fun b t => P k t ∧ (inferred = true → b = true)) E := by
  unfold Machine.codedBlockFlag
  cases inferred with
  | true => exact ⟨R.drop _ _ h, fun _ => rfl⟩
  | false =>
    obtain ⟨idx, hc, hlt⟩ := hi rfl
    simp only [Bool.false_eq_true, if_false, R.map _ _ h, hc]
    exact (R.regular k idx s hlt h).mono (fun _ _ h => ⟨h, fun h => nomatch h⟩) (fun _ _ h => h)

/-- Step 2 over a list of scan indices: at most two bins an index. -/
theorem significanceScan (R : BinRule m E P) (cat : BlockCat) (fld : Bool) (l : List Nat) :
    ∀ (k : Nat) (sig : BitVec 64) (s : State),
    (∀ i ∈ l, i < 64 ∧ sigCtx m cat fld i < 460 ∧ lastCtx m cat fld i < 460) → P (k + 2 * l.length) s →
    (significanceScan cat fld l sig s).Post (fun r t => P k t ∧
      (∀ i, r.1.getLsbD i = true → sig.getLsbD i = true ∨ i ∈ l) ∧
      (r.2 = true → ∃ i ∈ l, r.1.getLsbD i = true)) E := by
  induction l with
  | nil => exact fun k sig s _ h => ⟨h, fun i hi => .inl hi, fun h => nomatch h⟩
  | cons j rest ih =>
    intro k sig s hl h
    obtain ⟨hj, hs, hla⟩ := hl j (by simp)
    have hrest : ∀ i ∈ rest, i < 64 ∧ sigCtx m cat fld i < 460 ∧ lastCtx m cat fld i < 460 :=
      fun i hi => hl i (by simp [hi])
    have hbit : ∀ i, (sig ||| 1#64 <<< j).getLsbD i = true → sig.getLsbD i = true ∨ i = j := by
      intro i hi
      simp only [BitVec.getLsbD_or, BitVec.getLsbD_shiftLeft, BitVec.getLsbD_one, Bool.or_eq_true,
        Bool.and_eq_true, decide_eq_true_eq, Bool.not_eq_true', decide_eq_false_iff_not] at hi
      rcases hi with hi | hi
      · exact .inl hi
      · exact .inr (by omega)
    have hself : (sig ||| 1#64 <<< j).getLsbD j = true := by simp [hj]
    have h' : P (k + 2 * rest.length + 1 + 1) s := by simpa [Nat.mul_add, Nat.add_assoc] using h
    simp only [Machine.significanceScan, R.map _ _ h]
    refine (R.regular _ _ s hs h').bind fun b t ht => ?_
    cases b with
    | false =>
      refine (ih k sig t hrest (R.drop _ _ ht)).mono (fun r u hu => ⟨hu.1, fun i hi => ?_, fun hr => ?_⟩)
        (fun _ _ h => h)
      · rcases hu.2.1 i hi with h | h <;> simp [h]
      · obtain ⟨i, hi, hb⟩ := hu.2.2 hr
        exact ⟨i, by simp [hi], hb⟩
    | true =>
      simp only [if_true, R.map _ _ ht]
      refine (R.regular _ _ t hla ht).bind fun last u hu => ?_
      cases last with
      | true =>
        refine ⟨R.drop_add _ hu, fun i hi => ?_, fun _ => ⟨j, by simp, hself⟩⟩
        rcases hbit i hi with h | h <;> simp [h]
      | false =>
        refine (ih k _ u hrest hu).mono (fun r w hw => ⟨hw.1, fun i hi => ?_, fun hr => ?_⟩) (fun _ _ h => h)
        · rcases hw.2.1 i hi with h | h
          · rcases hbit i h with h | h <;> simp [h]
          · simp [h]
        · obtain ⟨i, hi, hb⟩ := hw.2.2 hr
          exact ⟨i, by simp [hi], hb⟩

/-- The unary prefix: at most `left` bins. -/
theorem magnitudePrefix (R : BinRule m E P) (cat : BlockCat) (gt1 : Nat)
    (hb : m.absBase[catIndex cat] + 9 < 460) (left : Nat) :
    ∀ (k count idx : Nat) (s : State), idx < 460 → P (k + left) s →
    (magnitudePrefix cat gt1 left count idx s).Post (fun c t => P k t ∧ c ≤ count + left) E := by
  induction left with
  | zero => exact fun k count idx s _ h => ⟨h, Nat.le_refl _⟩
  | succ n ih =>
    intro k count idx s hidx h
    refine (R.regular (k + n) idx s hidx h).bind fun b t ht => ?_
    cases b with
    | false => exact ⟨R.drop_add n ht, by omega⟩
    | true =>
      simp only [if_true, R.map _ _ ht]
      refine (ih k (count + 1) _ t ?_ ht).mono (fun c u hu => ⟨hu.1, by omega⟩) (fun _ _ h => h)
      exact lt_of_le_of_lt (absCtxN_le m cat gt1) hb

/-- The suffix: at most 40 bypass bins, and a magnitude of 15 to 2097165 (43_residual_block.md R230). -/
theorem magnitudeSuffix (R : BinRule m E P) {k : Nat} {s : State} (h : P (k + 40) s) :
    (magnitudeSuffix s).Post (fun v t => P k t ∧ 15 ≤ v.toNat ∧ v.toNat ≤ 2097165) E := by
  refine (R.bypassUnary 20 (k + 20) 0 s h).bind fun c t ht => ?_
  have hc : c ≤ 20 := by omega
  have ht' : P (k + (20 - c) + c) t := by
    have e : k + (20 - c) + c = k + 20 := by omega
    rw [e]; exact ht.1
  refine (R.bypassBits c (k + (20 - c)) 0 t ht').bind fun v u hu => ⟨R.drop_add _ hu.1, ?_⟩
  have hp : 2 ^ c ≤ 2 ^ 20 := Nat.pow_le_pow_right (by omega) hc
  have hv : v.toNat < 2 ^ c := by
    have := hu.2 (by simpa using le_trans hp (by omega)); simpa using this
  have hpos := Nat.two_pow_pos c
  have e : (BitVec.ofNat 32 prefixCap + 1#32 <<< c + v).toNat = 14 + 2 ^ c + v.toNat := by
    have hs : (1#32 <<< c).toNat = 2 ^ c := by
      rw [BitVec.toNat_shiftLeft, Nat.shiftLeft_eq]; simp; omega
    rw [BitVec.toNat_add, BitVec.toNat_add, hs]
    simp only [prefixCap, BitVec.toNat_ofNat]
    omega
  rw [e]; omega

/-- One magnitude: at most 54 bins, 1 to 2097165. -/
theorem magnitude (R : BinRule m E P) (cat : BlockCat) (eq1 gt1 : Nat) (hb : m.absBase[catIndex cat] + 9 < 460)
    {k : Nat} {s : State} (h : P (k + 54) s) :
    (magnitude cat eq1 gt1 s).Post (fun v t => P k t ∧ 1 ≤ v.toNat ∧ v.toNat ≤ 2097165) E := by
  unfold Machine.magnitude
  rw [R.map _ _ h]
  refine (R.magnitudePrefix cat gt1 hb prefixCap (k + 40) 0 _ s
    (lt_of_le_of_lt (absCtx0_le m cat eq1 gt1) hb) h).bind fun c t ht => ?_
  by_cases hc : c = prefixCap
  · simp only [hc, if_true]
    exact (R.magnitudeSuffix ht.1).mono (fun v u hu => ⟨hu.1, by omega, hu.2.2⟩) (fun _ _ h => h)
  · simp only [hc, if_false, Res.post_ok]
    have : c ≤ 14 := by simpa [prefixCap] using ht.2
    refine ⟨R.drop_add 40 ht.1, ?_⟩
    rw [BitVec.toNat_add, BitVec.toNat_ofNat]
    have h1 : BitVec.toNat (1 : Word) = 1 := rfl
    omega

/-- A magnitude with its sign (43_residual_block.md R231, R240). -/
theorem levelOk_of_mag {mag : Word} (neg : Bool) (h1 : 1 ≤ mag.toNat) (h2 : mag.toNat ≤ 2097165) :
    LevelOk (if neg then 0 - mag else mag) := by
  unfold LevelOk
  cases neg with
  | false => simp only [Bool.false_eq_true, if_false, BitVec.toInt_eq_toNat_cond]; split <;> omega
  | true =>
    simp only [if_true, BitVec.toInt_eq_toNat_cond, BitVec.toNat_sub]
    split <;> simp at * <;> omega

/-- Step 3 over a list of scan indices: at most 55 bins an index, one level for each set bit. -/
theorem levelScan (R : BinRule m E P) (cat : BlockCat) (sig : BitVec 64)
    (hb : m.absBase[catIndex cat] + 9 < 460) (l : List Nat) :
    ∀ (k : Nat) (a : LevelScan) (s : State), P (k + 55 * l.length) s →
    (levelScan cat sig l a s).Post (fun r t => P k t ∧
      r.levels.length = a.levels.length + l.countP (fun i => sig.getLsbD i) ∧
      ∀ w ∈ r.levels, w ∈ a.levels ∨ LevelOk w) E := by
  induction l with
  | nil => exact fun k a s h => ⟨h, by simp, fun w hw => .inl hw⟩
  | cons j rest ih =>
    intro k a s h
    have h' : P (k + 55 * rest.length + 55) s := by simpa [Nat.mul_add, Nat.add_assoc] using h
    simp only [Machine.levelScan]
    by_cases hj : sig.getLsbD j = true
    · simp only [hj, if_true]
      refine (R.magnitude cat a.eq1 a.gt1 hb (k := k + 55 * rest.length + 1)
        (by simpa [Nat.add_assoc] using h')).bind fun mag t ht => ?_
      refine (R.bypass _ t ht.1).bind fun sign u hu => ?_
      refine (ih k (nextLevel a mag sign) u hu).mono (fun r w hw => ⟨hw.1, ?_, fun x hx => ?_⟩) (fun _ _ h => h)
      · rw [hw.2.1]; simp [nextLevel, hj]; omega
      · rcases hw.2.2 x hx with h | h
        · rcases List.mem_cons.1 h with h | h
          · exact .inr (h ▸ levelOk_of_mag sign ht.2.1 ht.2.2)
          · exact .inl h
        · exact .inr h
    · simp only [hj]
      refine (ih k a s (R.drop_add 55 h')).mono (fun r w hw => ⟨hw.1, ?_, hw.2.2⟩) (fun _ _ h => h)
      rw [hw.2.1]; simp [hj]

end BinRule

/-! ## The output block -/

/-- Every scan index of a category is a bit of the bitmap. -/
theorem scan_lt (cat : BlockCat) : ∀ i ∈ scanForward cat, catStart cat ≤ i ∧ i < catLast cat := by
  intro i hi
  simp only [scanForward, List.mem_range'] at hi
  omega

theorem catLast_lt (cat : BlockCat) : catStart cat < catLast cat ∧ catLast cat < 64 := by
  cases cat <;> decide

/-- A bitmap with bits in `[start, last]` only has as many as the reverse scan counts (43_residual_block.md R232). -/
theorem popcount_eq_countP {sig : BitVec 64} {cat : BlockCat}
    (h : ∀ i, sig.getLsbD i = true → catStart cat ≤ i ∧ i ≤ catLast cat) :
    popcount sig = (scanReverse cat).countP fun i => sig.getLsbD i := by
  have e : List.range 64 =
      List.range (catStart cat) ++ (scanForward cat ++ [catLast cat]) ++
        List.range' (catLast cat + 1) (63 - catLast cat) := by cases cat <;> decide
  have lo : (List.range (catStart cat)).countP (fun i => sig.getLsbD i) = 0 :=
    List.countP_eq_zero.2 fun i hi hb => by have := h i hb; simp at hi; omega
  have up : (List.range' (catLast cat + 1) (63 - catLast cat)).countP (fun i => sig.getLsbD i) = 0 :=
    List.countP_eq_zero.2 fun i hi hb => by have := h i hb; simp [List.mem_range'] at hi; omega
  unfold popcount scanReverse
  rw [e, List.countP_append, List.countP_append, lo, up, List.countP_reverse]
  omega

/-- The entries below the count are the levels in order: the first level is that of the highest significant index. -/
theorem levelRegisters_lt {ls : List Word} {rest : Vector Word 64} (i : Fin 64) (h : i.val < ls.length) :
    (levelRegisters ls rest)[i] = ls[i.val] := by
  simp [levelRegisters, h]

/-- The entries from the count on are the rest's. -/
theorem levelRegisters_ge {ls : List Word} {rest : Vector Word 64} (i : Fin 64) (h : ls.length ≤ i.val) :
    (levelRegisters ls rest)[i] = rest[i] := by
  simp [levelRegisters, h]

/-- What a block with coefficients leaves, from the state u after its last bin (43_residual_block.md R225, R232, R240). -/
def CodedBlock (cat : BlockCat) (u t : State) (v : Word) : Prop :=
  ∃ sig ls, t = storeBlock sig ls u ∧ v = (BitVec.ofNat 32 ls.length <<< 8) ||| 1 ∧
    ls.length = popcount sig ∧ 1 ≤ ls.length ∧ ls.length ≤ 64 ∧
    (∀ i, sig.getLsbD i = true → catStart cat ≤ i ∧ i ≤ catLast cat) ∧ ∀ w ∈ ls, LevelOk w

/-- Steps 2 to 4: at most 3646 bins. -/
theorem BinRule.decodeCodedBlock {m : CtxMap} {E : CmdError → State → Prop} {P : Nat → State → Prop}
    (R : BinRule m E P) {cat : BlockCat} {left top fld inferred : Bool}
    (hok : blockIndicesOk m cat left top fld inferred = true) {k : Nat} {s : State} (h : P (k + 3646) s) :
    (decodeCodedBlock cat fld s).Post (fun v t => ∃ u, P k u ∧ CodedBlock cat u t v) E := by
  obtain ⟨hscan, habs, -⟩ := blockIndicesOk_spec hok
  obtain ⟨hsl, hl⟩ := catLast_lt cat
  have hlen : (scanForward cat).length = catLast cat - catStart cat := by simp [scanForward]
  have h1 : P (k + 3520 + (126 - 2 * (scanForward cat).length) + 2 * (scanForward cat).length) s := by
    have e : k + 3520 + (126 - 2 * (scanForward cat).length) + 2 * (scanForward cat).length = k + 3646 := by omega
    rw [e]; exact h
  have hmap := R.significanceScan cat fld (scanForward cat) (k + 3520 + (126 - 2 * (scanForward cat).length)) 0 s
    (fun i hi => ⟨by have := scan_lt cat i hi; omega, hscan i hi⟩) h1
  have hmap' : (significanceMap cat fld s).Post (fun sig t => P (k + 3520) t ∧
      (∀ i, sig.getLsbD i = true → catStart cat ≤ i ∧ i ≤ catLast cat) ∧ ∃ i, sig.getLsbD i = true) E := by
    refine hmap.bind fun r t ht => ?_
    obtain ⟨sig, stopped⟩ := r
    have hin : ∀ i, sig.getLsbD i = true → catStart cat ≤ i ∧ i ≤ catLast cat := by
      intro i hi
      rcases ht.2.1 i hi with h | h
      · simp at h
      · have := scan_lt cat i h; omega
    cases stopped with
    | true =>
      obtain ⟨i, -, hi⟩ := ht.2.2 rfl
      exact ⟨R.drop_add _ ht.1, hin, i, hi⟩
    | false =>
      refine ⟨R.drop_add _ ht.1, fun i hi => ?_, catLast cat, by simp [hl]⟩
      simp only [Bool.false_eq_true, if_false, BitVec.getLsbD_or, BitVec.getLsbD_shiftLeft, BitVec.getLsbD_one,
        Bool.or_eq_true, Bool.and_eq_true, decide_eq_true_eq, Bool.not_eq_true', decide_eq_false_iff_not] at hi
      rcases hi with hi | hi
      · exact hin i hi
      · omega
  refine hmap'.bind fun sig t ht => ?_
  obtain ⟨hP, hin, i, hi⟩ := ht
  have hrl : (scanReverse cat).length ≤ 64 := by simp [scanReverse, hlen]; omega
  have h2 : P (k + (3520 - 55 * (scanReverse cat).length) + 55 * (scanReverse cat).length) t := by
    have e : k + (3520 - 55 * (scanReverse cat).length) + 55 * (scanReverse cat).length = k + 3520 := by omega
    rw [e]; exact hP
  refine (R.levelScan cat sig habs (scanReverse cat) _ ⟨0, 0, []⟩ t h2).bind fun l u hu => ?_
  have hcount : l.levels.length = popcount sig := by
    rw [popcount_eq_countP hin]; simpa using hu.2.1
  have hpos : 1 ≤ popcount sig := by
    unfold popcount
    exact List.countP_pos_iff.2 ⟨i, by have := hin i hi; simp; omega, hi⟩
  have hle : popcount sig ≤ 64 := by
    unfold popcount; exact le_trans List.countP_le_length (by simp)
  refine ⟨u, R.drop_add _ hu.1, sig, l.levels.reverse, rfl, by simp, by simpa using hcount, by simp; omega,
    by simp; omega, hin, fun w hw => ?_⟩
  rcases hu.2.2 w (by simpa using hw) with h | h
  · simp at h
  · exact h

/-- What the execution of RB.DECODE leaves, from the state u after its last bin (43_residual_block.md R225). -/
def BlockResult (cat : BlockCat) (inferred : Bool) (u t : State) (v : Word) : Prop :=
  (inferred = false ∧ t = setDecoding (storeEmptyBlock u) ∧ v = 0) ∨
    ∃ t', t = setDecoding t' ∧ CodedBlock cat u t' v

/-- All that the execution of RB.DECODE does: at most 3647 bins. -/
theorem BinRule.decodeBlock {m : CtxMap} {E : CmdError → State → Prop} {P : Nat → State → Prop}
    (R : BinRule m E P) {cat : BlockCat} {left top fld inferred : Bool}
    (hok : blockIndicesOk m cat left top fld inferred = true) {k : Nat} {s : State}
    (h : P (k + 3647) { s with outValid := false }) :
    (decodeBlock cat left top fld inferred s).Post (fun v t => ∃ u, P k u ∧ BlockResult cat inferred u t v)
      (fun e t => ∃ u, E e u ∧ t = loseBlock u) := by
  obtain ⟨-, -, hcbf⟩ := blockIndicesOk_spec hok
  have hr : ((Machine.codedBlockFlag cat left top inferred { s with outValid := false }).bind fun cbf s =>
      if cbf then Machine.decodeCodedBlock cat fld s else .ok 0 (storeEmptyBlock s)).Post
      (fun v t => ∃ u, P k u ∧ ((inferred = false ∧ t = storeEmptyBlock u ∧ v = 0) ∨ CodedBlock cat u t v)) E := by
    refine (R.codedBlockFlag hcbf (k := k + 3646) h).bind fun cbf t ht => ?_
    cases cbf with
    | false =>
      refine ⟨t, R.drop_add 3646 ht.1, .inl ⟨?_, rfl, rfl⟩⟩
      cases inferred with
      | false => rfl
      | true => exact absurd (ht.2 rfl) (by decide)
    | true =>
      exact (R.decodeCodedBlock hok ht.1).mono (fun v t ⟨u, hu, hc⟩ => ⟨u, hu, .inr hc⟩) (fun _ _ h => h)
  unfold Machine.decodeBlock
  simp only
  generalize ((Machine.codedBlockFlag cat left top inferred { s with outValid := false }).bind fun cbf s =>
      if cbf then Machine.decodeCodedBlock cat fld s else .ok 0 (storeEmptyBlock s)) = r at hr
  cases r with
  | ok v t =>
    obtain ⟨u, hu, h | h⟩ := hr
    · exact ⟨u, hu, .inl ⟨h.1, by rw [h.2.1], h.2.2⟩⟩
    · exact ⟨u, hu, .inr ⟨t, rfl, h⟩⟩
  | err e t => exact ⟨t, hr, rfl⟩

end Sys2Proof.Machine
end

