-- ==== Sys2Proof/Laws/Exec.lean ====
section
/-! SUPPORT. All that a command can do, said once: how `exec` ends, and with what. -/

namespace Sys2Proof.Machine

/-- Bins from s0 on: what every loop over bins keeps (42_arithmetic_decoder.md R174, R184). -/
def BinsFrom (s0 t : State) : Prop := BinFrame s0 t ∧ t.phase = s0.phase

/-- The one error of a bin with a good context index: renormalisation out of valid bits, with what was committed. -/
def BinsExhausted (s0 : State) (e : CmdError) (t : State) : Prop := BinsFrom s0 t ∧ e = exhausted 0x04

theorem BinsFrom.refl (s : State) : BinsFrom s s := ⟨.refl s, rfl⟩

/-- A regular bin, whatever its index. -/
theorem binsFrom_regular {s0 s : State} (idx : Nat) (site : Byte) (h : BinsFrom s0 s) :
    (decodeRegular idx site s).Post (fun _ => BinsFrom s0)
      (fun e t => BinsFrom s0 t ∧ (idx < 460 → e = exhausted 0x04)) := by
  rcases decodeRegular_cases idx site s with ⟨hi, e⟩ | ⟨_, ⟨r, _, e⟩ | ⟨_, e⟩⟩ <;> rw [e]
  · exact ⟨h, fun hlt => by omega⟩
  · exact ⟨h.1.trans ((binFrame_commit _ _).trans (binFrame_setCtx _ _ _)), h.2⟩
  · exact ⟨h, fun _ => rfl⟩

/-- A bypass bin. -/
theorem binsFrom_bypass {s0 s : State} (h : BinsFrom s0 s) :
    (decodeBypass s).Post (fun _ => BinsFrom s0) (BinsExhausted s0) := by
  rcases decodeBypass_cases s with ⟨r, _, ⟨_, e⟩ | ⟨_, e⟩⟩ | ⟨_, e⟩ <;> rw [e]
  · exact ⟨h.1.trans (binFrame_commit _ _), h.2⟩
  · exact ⟨h.1.trans (binFrame_commit _ _), h.2⟩
  · exact ⟨h, rfl⟩

/-- Every loop over bins keeps the frame of one bin. -/
theorem binRule_binsFrom (s0 : State) :
    BinRule s0.params.ctxMap (BinsExhausted s0) (fun _ => BinsFrom s0) where
  regular := fun _ idx _ hi h =>
    (binsFrom_regular idx 0x21 h).mono (fun _ _ h => h) (fun _ _ h => ⟨h.1, h.2 hi⟩)
  bypass := fun _ _ h => binsFrom_bypass h
  drop := fun _ _ h => h
  map := fun _ _ h => by rw [h.1.params]

/-- The admission condition each meaning checks (30_encoding.md R100). -/
def admission (s : State) : Instr → Bool
  | .nop => true
  | .reset => true
  | .rdreg reg => regReadable s reg
  | .bcOpen _ => true
  | .bcRdbit => consumeAdmitted s
  | .bcRdbits _ => consumeAdmitted s
  | .bcPeek _ => s.cursorValid
  | .bcFlush _ => consumeAdmitted s
  | .bcAligned => s.cursorValid
  | .bcMore => s.cursorValid
  | .ctInit _ _ _ _ => true
  | .ctGet _ => s.ctxValid
  | .adInit => s.cursorValid
  | .adBin _ => contextBinAdmitted s
  | .adTerm => phaseActive s
  | .adByp => phaseActive s
  | .adBypn _ => phaseActive s
  | .adBypu _ => phaseActive s
  | .adRealign => s.phase == .terminated
  | .rbDecode _ _ _ _ _ => contextBinAdmitted s

/-- The errors of a command that change nothing but the record, once it is admitted (60_exceptions.md R272, R273). -/
def rejection : Instr → List CmdError
  | .nop => []
  | .reset => []
  | .rdreg _ => []
  | .bcOpen _ => [⟨.invalidUnitParameters, 0x10⟩]
  | .bcRdbit => [exhausted 0x01]
  | .bcRdbits _ => [exhausted 0x01]
  | .bcPeek _ => []
  | .bcFlush _ => [exhausted 0x02]
  | .bcAligned => []
  | .bcMore => []
  | .ctInit _ _ _ _ =>
      [⟨.invalidUnitParameters, 0x11⟩, ⟨.invalidUnitParameters, 0x12⟩, ⟨.invalidUnitParameters, 0x13⟩]
  | .ctGet _ => [⟨.logicInvariantViolation, 0x20⟩]
  | .adInit => []
  | .adBin _ => [⟨.logicInvariantViolation, 0x20⟩]
  | .adTerm => []
  | .adByp => []
  | .adBypn _ => []
  | .adBypu _ => []
  | .adRealign => []
  | .rbDecode _ _ _ _ _ => [⟨.logicInvariantViolation, 0x21⟩]

/-- All the ways a command can end. -/
inductive Effect (s : State) : Instr → State → Prop
  | notAdmitted (i : Instr) (h : admission s i = false) : Effect s i (raiseError (badState s) s)
  | outOfRange (i : Instr) (h : i.wellFormed = false) : Effect s i (raiseError (illegal .operandRange) s)
  | rejected (i : Instr) (e : CmdError) (hw : i.wellFormed = true) (ha : admission s i = true)
      (h : e ∈ rejection i) : Effect s i (raiseError e s)
  | nop : Effect s .nop (complete 0 s)
  | reset : Effect s .reset (complete 0 (resetCore s))
  | rdreg (reg : Reg) (ha : regReadable s reg = true) : Effect s (.rdreg reg) (complete (regValue s reg) s)
  | bcOpen (max : Word) (h : max.toNat ≤ 32 * s.params.bufWords) :
      Effect s (.bcOpen max) (complete 0 (openUnit max s))
  | bcRdbit (ha : consumeAdmitted s = true) (hf : s.bitOffset.toNat + 1 ≤ s.maxBitOffset.toNat) :
      Effect s .bcRdbit (complete (bitsAt s s.bitOffset.toNat 1)
        { moveCursor s 1 with draws := drawsAfter s s.bitOffset.toNat 1 })
  | bcRdbits (n : Byte) (hn : n.toNat ≤ 32) (ha : consumeAdmitted s = true)
      (hf : s.bitOffset.toNat + n.toNat ≤ s.maxBitOffset.toNat) :
      Effect s (.bcRdbits n) (complete (bitsAt s s.bitOffset.toNat n.toNat)
        { moveCursor s n.toNat with draws := drawsAfter s s.bitOffset.toNat n.toNat })
  | bcPeek (n : Byte) (hn : n.toNat ≤ 32) (ha : s.cursorValid = true) :
      Effect s (.bcPeek n) (complete (bitsAt s s.bitOffset.toNat n.toNat)
        { s with draws := drawsAfter s s.bitOffset.toNat n.toNat })
  | bcFlush (n : Word) (ha : consumeAdmitted s = true) (hf : s.bitOffset.toNat + n.toNat ≤ s.maxBitOffset.toNat) :
      Effect s (.bcFlush n) (complete 0 (moveCursor s n.toNat))
  | bcAligned (ha : s.cursorValid = true) :
      Effect s .bcAligned (complete (if s.bitOffset.toNat % 8 = 0 then 1 else 0) s)
  | bcMore (ha : s.cursorValid = true) :
      Effect s .bcMore (complete (if s.bitOffset < s.maxBitOffset then 1 else 0) s)
  | ctInit (cl ip qp : Byte) (aux : Bool) (h : initOperandError s cl ip qp = none) :
      Effect s (.ctInit cl ip qp aux) (complete 0 { s with
        ctx := ctxInit s.params ⟨cl, ip, aux, qp⟩
        unitCfg := packUnitCfg cl ip qp aux
        ctxValid := true })
  | ctGet (idx : BitVec 16) (ha : s.ctxValid = true) (h : idx.toNat < 460) :
      Effect s (.ctGet idx) (complete ((packEntry s.ctx[idx.toNat]).setWidth 32) s)
  | adInit (ha : s.cursorValid = true) (hf : s.bitOffset.toNat + 9 ≤ s.maxBitOffset.toNat) :
      Effect s .adInit (complete 0 { commit ⟨rangeInit, bitsAt s s.bitOffset.toNat initPeek, initFlush,
        drawsAfter s s.bitOffset.toNat initPeek⟩ s with phase := .ready })
  | adInitAborted (ha : s.cursorValid = true) (hf : s.maxBitOffset.toNat < s.bitOffset.toNat + 9) :
      Effect s .adInit (raiseError (exhausted 0x03) s)
  | adBin (idx : BitVec 16) (b : Bool) (u : State) (ha : contextBinAdmitted s = true)
      (h : decodeRegular idx.toNat 0x20 s = .ok b u) :
      Effect s (.adBin idx) (complete (bitWord b) (setDecoding u))
  | adBinAborted (idx : BitVec 16) (ha : contextBinAdmitted s = true)
      (h : decodeRegular idx.toNat 0x20 s = .err (exhausted 0x04) s) :
      Effect s (.adBin idx) (raiseError (exhausted 0x04) s)
  | adTerm (u : State) (ha : phaseActive s = true) (h : decodeTerminal s = .ok false u) :
      Effect s .adTerm (complete 0 (setDecoding u))
  | adTermLast (ha : phaseActive s = true) (h : decodeTerminal s = .ok true { s with phase := .terminated }) :
      Effect s .adTerm (complete 1 { s with phase := .terminated })
  | adTermAborted (ha : phaseActive s = true) (h : decodeTerminal s = .err (exhausted 0x04) s) :
      Effect s .adTerm (raiseError (exhausted 0x04) s)
  | adByp (b : Bool) (u : State) (ha : phaseActive s = true) (h : decodeBypass s = .ok b u) :
      Effect s .adByp (complete (bitWord b) (setDecoding u))
  | adBypAborted (ha : phaseActive s = true) (h : decodeBypass s = .err (exhausted 0x04) s) :
      Effect s .adByp (raiseError (exhausted 0x04) s)
  | adBypn (n : Byte) (hn : n.toNat ≤ 32) (v : Word) (u : State) (ha : phaseActive s = true)
      (h : bypassBits n.toNat 0 s = .ok v u) : Effect s (.adBypn n) (complete v (setDecoding u))
  | adBypnAborted (n : Byte) (hn : n.toNat ≤ 32) (u : State) (ha : phaseActive s = true)
      (h : bypassBits n.toNat 0 s = .err (exhausted 0x04) u) :
      Effect s (.adBypn n) (raiseError (exhausted 0x04) u)
  | adBypu (max : Byte) (c : Nat) (u : State) (ha : phaseActive s = true)
      (h : bypassUnary max.toNat 0 s = .ok c u) :
      Effect s (.adBypu max) (complete (BitVec.ofNat 32 c) (setDecoding u))
  | adBypuAborted (max : Byte) (u : State) (ha : phaseActive s = true)
      (h : bypassUnary max.toNat 0 s = .err (exhausted 0x04) u) :
      Effect s (.adBypu max) (raiseError (exhausted 0x04) u)
  | adRealign (ha : s.phase = .terminated)
      (hf : s.bitOffset.toNat + clz32 s.range ≤ s.maxBitOffset.toNat) :
      Effect s .adRealign (complete (BitVec.ofNat 32 (clz32 s.range))
        { moveCursor s (clz32 s.range) with phase := .idle })
  | adRealignAborted (ha : s.phase = .terminated)
      (hf : s.maxBitOffset.toNat < s.bitOffset.toNat + clz32 s.range) :
      Effect s .adRealign (raiseError (exhausted 0x05) s)
  | rbDecode (cat : BlockCat) (left top fld inferred : Bool) (v : Word) (u : State)
      (ha : contextBinAdmitted s = true) (hok : blockIndicesOk s.params.ctxMap cat left top fld inferred = true)
      (h : decodeBlock cat left top fld inferred s = .ok v u) :
      Effect s (.rbDecode cat left top fld inferred) (complete v u)
  | rbDecodeAborted (cat : BlockCat) (left top fld inferred : Bool) (u : State)
      (ha : contextBinAdmitted s = true) (hok : blockIndicesOk s.params.ctxMap cat left top fld inferred = true)
      (h : decodeBlock cat left top fld inferred s = .err (exhausted 0x04) u) :
      Effect s (.rbDecode cat left top fld inferred) (raiseError (exhausted 0x04) u)

/-- The execution of RB.DECODE ends with OK, or out of valid bits with unreadable outputs. -/
theorem decodeBlock_binsFrom {cat : BlockCat} {left top fld inferred : Bool} {s : State}
    (hok : blockIndicesOk s.params.ctxMap cat left top fld inferred = true) :
    (decodeBlock cat left top fld inferred s).Post
      (fun v t => ∃ u, BinsFrom { s with outValid := false } u ∧ BlockResult cat inferred u t v)
      (fun e t => ∃ u, BinsExhausted { s with outValid := false } e u ∧ t = loseBlock u) :=
  (binRule_binsFrom { s with outValid := false }).decodeBlock hok (k := 0) (BinsFrom.refl _)

theorem bypassBits_binsFrom (n : Nat) (v : Word) (s : State) :
    (bypassBits n v s).Post (fun _ => BinsFrom s) (BinsExhausted s) :=
  ((binRule_binsFrom s).bypassBits n 0 v s (.refl s)).mono (fun _ _ h => h.1) (fun _ _ h => h)

theorem bypassUnary_binsFrom (n c : Nat) (s : State) :
    (bypassUnary n c s).Post (fun _ => BinsFrom s) (BinsExhausted s) :=
  ((binRule_binsFrom s).bypassUnary n 0 c s (.refl s)).mono (fun _ _ h => h.1) (fun _ _ h => h)

theorem Res.Post.of_ok {α : Type} {Q : α → State → Prop} {E : CmdError → State → Prop} {r : Res α} {a : α}
    {t : State} (h : r.Post Q E) (e : r = .ok a t) : Q a t := by rw [e] at h; exact h

theorem Res.Post.of_err {α : Type} {Q : α → State → Prop} {E : CmdError → State → Prop} {r : Res α}
    {e : CmdError} {t : State} (h : r.Post Q E) (he : r = .err e t) : E e t := by rw [he] at h; exact h

theorem effect_of_gated {c : Bool} {i : Instr} {s t : State} {k : Host.Outcome State Fault Refusal}
    (h : gated c s k = .next t) (hc : admission s i = c) (hk : c = true → k = .next t → Effect s i t) :
    Effect s i t := by
  cases c with
  | true => exact hk rfl h
  | false => cases h; exact .notAdmitted i hc

theorem effect_of_inCountRange {n : Byte} {i : Instr} {s t : State} {k : Host.Outcome State Fault Refusal}
    (h : inCountRange n s k = .next t) (hw : i.wellFormed = decide (n.toNat ≤ 32))
    (hk : n.toNat ≤ 32 → k = .next t → Effect s i t) : Effect s i t := by
  by_cases hn : n.toNat ≤ 32
  · rw [inCountRange_of_le hn] at h; exact hk hn h
  · rw [inCountRange_of_lt (by omega)] at h; cases h; exact .outOfRange i (by simp [hw, hn])

/-- Whatever a command does is one of the effects. -/
theorem effect_of_exec {i : Instr} {s t : State} (h : exec i s = .next t) : Effect s i t := by
  cases i with
  | nop => cases h; exact .nop
  | reset => cases h; exact .reset
  | rdreg reg => exact effect_of_gated h rfl fun ha h => by cases h; exact .rdreg reg ha
  | bcOpen max =>
    simp only [exec, execBcOpen] at h
    split at h <;> cases h
    · exact .rejected _ _ rfl rfl (by simp [rejection])
    · exact .bcOpen max (by omega)
  | bcRdbit =>
    refine effect_of_gated h rfl fun ha h => ?_
    unfold consumeBits at h
    rcases advance_cases 1 1 s with ⟨hf, e⟩ | ⟨_, e⟩ <;> rw [e] at h <;> cases h
    · exact .bcRdbit ha hf
    · exact .rejected _ _ rfl ha (by simp [rejection])
  | bcRdbits n =>
    refine effect_of_inCountRange h rfl fun hn h => effect_of_gated h rfl fun ha h => ?_
    unfold consumeBits at h
    rcases advance_cases n.toNat 1 s with ⟨hf, e⟩ | ⟨_, e⟩ <;> rw [e] at h <;> cases h
    · exact .bcRdbits n hn ha hf
    · exact .rejected _ _ (by simp [Instr.wellFormed, hn]) ha (by simp [rejection])
  | bcPeek n =>
    exact effect_of_inCountRange h rfl fun hn h => effect_of_gated h rfl fun ha h => by
      cases h; exact .bcPeek n hn ha
  | bcFlush n =>
    refine effect_of_gated h rfl fun ha h => ?_
    rcases advance_cases n.toNat 2 s with ⟨hf, e⟩ | ⟨_, e⟩ <;> rw [e] at h <;> cases h
    · exact .bcFlush n ha hf
    · exact .rejected _ _ rfl ha (by simp [rejection])
  | bcAligned => exact effect_of_gated h rfl fun ha h => by cases h; exact .bcAligned ha
  | bcMore => exact effect_of_gated h rfl fun ha h => by cases h; exact .bcMore ha
  | ctInit cl ip qp aux =>
    simp only [exec, execCtInit] at h
    split at h <;> cases h
    · rename_i e he
      refine .rejected _ _ rfl rfl ?_
      unfold initOperandError at he
      split at he
      · cases he; simp [rejection]
      split at he
      · cases he; simp [rejection]
      split at he <;> cases he
      simp [rejection]
    · exact .ctInit cl ip qp aux ‹_›
  | ctGet idx =>
    refine effect_of_gated h rfl fun ha h => ?_
    by_cases hi : idx.toNat < 460
    · simp only [ctxRef, hi, dite_true] at h; cases h; exact .ctGet idx ha hi
    · simp only [ctxRef, hi, dite_false] at h; cases h; exact .rejected _ _ rfl ha (by simp [rejection])
  | adInit =>
    refine effect_of_gated h rfl fun ha h => ?_
    by_cases hf : s.bitOffset.toNat + 9 ≤ s.maxBitOffset.toNat
    · rw [if_pos (show cursorFits s initFlush = true from decide_eq_true hf)] at h
      cases h; exact .adInit ha hf
    · rw [if_neg (show ¬ cursorFits s initFlush = true from fun hc => hf (of_decide_eq_true hc))] at h
      cases h; exact .adInitAborted ha (by omega)
  | adBin idx =>
    refine effect_of_gated h rfl fun ha h => ?_
    rcases decodeRegular_cases idx.toNat 0x20 s with ⟨_, e⟩ | ⟨_, ⟨r, _, e⟩ | ⟨_, e⟩⟩ <;> rw [e] at h <;> cases h
    · exact .rejected _ _ rfl ha (by simp [rejection])
    · exact .adBin idx _ _ ha e
    · exact .adBinAborted idx ha e
  | adTerm =>
    refine effect_of_gated h rfl fun ha h => ?_
    rcases decodeTerminal_cases s with ⟨_, e⟩ | ⟨_, ⟨r, _, e⟩ | ⟨_, e⟩⟩ <;> rw [e] at h <;> cases h
    · exact .adTermLast ha e
    · exact .adTerm _ ha e
    · exact .adTermAborted ha e
  | adByp =>
    refine effect_of_gated h rfl fun ha h => ?_
    rcases decodeBypass_cases s with ⟨r, _, ⟨_, e⟩ | ⟨_, e⟩⟩ | ⟨_, e⟩ <;> rw [e] at h <;> cases h
    · exact .adByp _ _ ha e
    · exact .adByp _ _ ha e
    · exact .adBypAborted ha e
  | adBypn n =>
    refine effect_of_inCountRange h rfl fun hn h => effect_of_gated h rfl fun ha h => ?_
    cases hb : bypassBits n.toNat 0 s with
    | ok v u => rw [hb] at h; cases h; exact .adBypn n hn v u ha hb
    | err e u =>
      have := (bypassBits_binsFrom n.toNat 0 s).of_err hb
      rw [hb] at h; cases h; rw [this.2] at hb ⊢; exact .adBypnAborted n hn u ha hb
  | adBypu max =>
    refine effect_of_gated h rfl fun ha h => ?_
    cases hb : bypassUnary max.toNat 0 s with
    | ok c u => rw [hb] at h; cases h; exact .adBypu max c u ha hb
    | err e u =>
      have := (bypassUnary_binsFrom max.toNat 0 s).of_err hb
      rw [hb] at h; cases h; rw [this.2] at hb ⊢; exact .adBypuAborted max u ha hb
  | adRealign =>
    refine effect_of_gated h rfl fun ha h => ?_
    have ha : s.phase = .terminated := by simpa using ha
    rcases advance_cases (clz32 s.range) 5 s with ⟨hf, e⟩ | ⟨hf, e⟩ <;> rw [e] at h <;> cases h
    · exact .adRealign ha hf
    · exact .adRealignAborted ha hf
  | rbDecode cat left top fld inferred =>
    refine effect_of_gated h rfl fun ha h => ?_
    split at h
    · rename_i hok
      cases hb : decodeBlock cat left top fld inferred s with
      | ok v u => rw [hb] at h; cases h; exact .rbDecode cat left top fld inferred v u ha hok hb
      | err e u =>
        obtain ⟨w, hw, -⟩ := (decodeBlock_binsFrom hok).of_err hb
        rw [hb] at h; cases h; rw [hw.2] at hb ⊢; exact .rbDecodeAborted cat left top fld inferred u ha hok hb
    · cases h; exact .rejected _ _ rfl ha (by simp [rejection])

end Sys2Proof.Machine
end

