-- ==== Sys2Proof/Laws/Interval.lean ====
section
/-! SUPPORT. The arithmetic of an interval width that is a 9-bit number shifted (42_arithmetic_decoder.md R200): scaling,
subtracting and halving it. -/

namespace Sys2Proof.Machine

open Sys2Proof.Safety

/-- A wider word has no more leading zeros. -/
theorem clz32_anti {a b : Word} (h : a ≤ b) : clz32 b ≤ clz32 a := by
  by_cases ha : a = 0
  · subst ha; rw [clz32_zero]; exact clz32_le _
  by_cases hb : b = 0
  · subst hb; exact absurd (BitVec.le_zero_iff.1 h) ha
  obtain ⟨_, la, _⟩ := clz32_spec ha
  obtain ⟨_, _, ub⟩ := clz32_spec hb
  rw [BitVec.le_def] at h
  have := (Nat.pow_lt_pow_iff_right (a := 2) (by omega)).1 (lt_of_le_of_lt la (lt_of_le_of_lt h ub))
  omega

/-- An aligned width as its 9-bit number and its shift. -/
theorem rangeAligned_iff {r : Word} :
    RangeAligned r ↔ ∃ q, 256 ≤ q ∧ q ≤ 511 ∧ clz32 r ≤ 23 ∧ r.toNat = q * 2 ^ (23 - clz32 r) := by
  unfold RangeAligned
  rw [← clz32_le_23_iff]
  constructor
  · rintro ⟨h, hm⟩
    have h0 : r ≠ 0 := by rintro rfl; simp [clz32] at h
    obtain ⟨hz, lo, hi⟩ := clz32_spec h0
    obtain ⟨q, hq⟩ := Nat.dvd_of_mod_eq_zero hm
    rw [Nat.mul_comm] at hq
    have p := Nat.two_pow_pos (23 - clz32 r)
    have e1 : 2 ^ (31 - clz32 r) = 256 * 2 ^ (23 - clz32 r) := by
      rw [show 31 - clz32 r = 8 + (23 - clz32 r) by omega, Nat.pow_add]
    have e2 : 2 ^ (32 - clz32 r) = 512 * 2 ^ (23 - clz32 r) := by
      rw [show 32 - clz32 r = 9 + (23 - clz32 r) by omega, Nat.pow_add]
    rw [e1, hq] at lo
    rw [e2, hq] at hi
    have := Nat.le_of_mul_le_mul_right lo p
    have := Nat.lt_of_mul_lt_mul_right hi
    exact ⟨q, by omega, by omega, h, hq⟩
  · rintro ⟨q, _, _, h3, h4⟩
    exact ⟨h3, by rw [h4]; simp⟩

/-- A multiple of a power of two that is wide enough is aligned. -/
theorem rangeAligned_of_mul {r : Word} {q k : Nat} (h : r.toNat = q * 2 ^ k) (hr : 0x100 ≤ r)
    (hz : 23 - clz32 r ≤ k) : RangeAligned r := by
  refine ⟨hr, ?_⟩
  rw [h, show k = (23 - clz32 r) + (k - (23 - clz32 r)) by omega, Nat.pow_add, Nat.mul_left_comm]
  simp

/-- A narrow width, scaled, loses no bit. -/
theorem scaled_toNat {w : Word} {z : Nat} (hz : z ≤ 23) (hw : w.toNat < 512) :
    (scaled w z).toNat = w.toNat * 2 ^ (23 - z) := by
  unfold scaled
  rw [if_pos hz, BitVec.toNat_shiftLeft, Nat.shiftLeft_eq, Nat.mod_eq_of_lt]
  calc w.toNat * 2 ^ (23 - z) < 512 * 2 ^ (23 - z) := Nat.mul_lt_mul_of_pos_right hw (Nat.two_pow_pos _)
    _ = 2 ^ (9 + (23 - z)) := by rw [Nat.pow_add]
    _ ≤ 2 ^ 32 := Nat.pow_le_pow_right (by omega) (by omega)

/-- A scaled width below an aligned one: the difference and both leading-zero counts. -/
theorem sub_scaled {r w : Word} (hr : RangeAligned r) (h1 : 1 ≤ w.toNat) (h2 : w.toNat < 256) :
    scaled w (clz32 r) < r ∧ scaled w (clz32 r) ≠ 0 ∧ clz32 r ≤ clz32 (scaled w (clz32 r)) ∧
    clz32 r ≤ clz32 (r - scaled w (clz32 r)) ∧
    ∃ q, 1 ≤ q ∧ (r - scaled w (clz32 r)).toNat = q * 2 ^ (23 - clz32 r) := by
  obtain ⟨q, hq1, hq2, hz, he⟩ := rangeAligned_iff.1 hr
  have hs := scaled_toNat hz (show w.toNat < 512 by omega)
  have p := Nat.two_pow_pos (23 - clz32 r)
  have hlt : scaled w (clz32 r) < r := by
    rw [BitVec.lt_def, hs, he]; exact Nat.mul_lt_mul_of_pos_right (by omega) p
  have hsub : (r - scaled w (clz32 r)).toNat = (q - w.toNat) * 2 ^ (23 - clz32 r) := by
    rw [BitVec.toNat_sub_of_le (BitVec.le_of_lt hlt), hs, he, Nat.sub_mul]
  have hle : r - scaled w (clz32 r) ≤ r := by
    rw [BitVec.le_def, hsub, he]; exact Nat.mul_le_mul_right _ (by omega)
  refine ⟨hlt, fun h0 => ?_, clz32_anti (BitVec.le_of_lt hlt), clz32_anti hle, q - w.toNat, by omega, hsub⟩
  rw [h0] at hs
  have := Nat.mul_le_mul h1 p
  simp at hs
  omega

/-- The bits of one read fit their count. -/
theorem bitsAt_lt (s : State) (p : Nat) {n : Nat} (hn : n ≤ 32) : (bitsAt s p n).toNat < 2 ^ n := by
  induction n with
  | zero => simp [bitsAt]
  | succ n ih =>
    have := ih (by omega)
    have hb : (bitWord (bitAt s (p + n) n)).toNat < 2 ^ 1 := by cases bitAt s (p + n) n <;> decide
    have e : (bitsAt s p n <<< 1).toNat = 2 ^ 1 * (bitsAt s p n).toNat := by
      have : 2 ^ (n + 1) ≤ 2 ^ 32 := Nat.pow_le_pow_right (by omega) hn
      rw [Nat.pow_succ] at this
      rw [BitVec.toNat_shiftLeft, Nat.shiftLeft_eq, Nat.mod_eq_of_lt (by omega)]; omega
    unfold bitsAt
    rw [BitVec.toNat_or, e, ← Nat.two_pow_add_eq_or_of_lt hb, Nat.pow_succ]
    omega

/-- Halving an aligned width of at least 0x200 is exact, and one more leading zero appears. -/
theorem half_toNat {r : Word} (hr : RangeAligned r) (h2 : 0x200 ≤ r) :
    r.toNat = 2 * (r >>> 1).toNat ∧ clz32 (r >>> 1) = clz32 r + 1 := by
  obtain ⟨q, hq1, hq2, hz, he⟩ := rangeAligned_iff.1 hr
  rw [BitVec.le_def] at h2
  simp at h2
  have hz22 : clz32 r ≤ 22 := by
    by_contra hh
    rw [show clz32 r = 23 by omega] at he; simp at he; omega
  have e1 : r.toNat = 2 * (q * 2 ^ (22 - clz32 r)) := by
    rw [he, show 23 - clz32 r = 22 - clz32 r + 1 by omega, Nat.pow_succ]; ring
  have e2 : (r >>> 1).toNat = q * 2 ^ (22 - clz32 r) := by
    rw [BitVec.toNat_ushiftRight, Nat.shiftRight_eq_div_pow, e1]; simp
  refine ⟨by rw [e1, e2], ?_⟩
  have h0 : r ≠ 0 := by rintro rfl; simp at h2
  obtain ⟨_, lo, hi⟩ := clz32_spec h0
  refine clz32_eq_of_bounds (by omega) ?_ ?_
  · have : 2 ^ (31 - clz32 r) = 2 * 2 ^ (31 - (clz32 r + 1)) := by
      rw [show 31 - clz32 r = 31 - (clz32 r + 1) + 1 by omega, Nat.pow_succ]; ring
    omega
  · have : 2 ^ (32 - clz32 r) = 2 * 2 ^ (32 - (clz32 r + 1)) := by
      rw [show 32 - clz32 r = 32 - (clz32 r + 1) + 1 by omega, Nat.pow_succ]; ring
    omega

end Sys2Proof.Machine
end

