-- ==== Sys2Proof/Laws/PerInstr.lean ====
section
/-! SUPPORT. Laws made per instruction. TableRow: the encoder's words agree with match and mask of spec/opcode_table.json. -/

namespace Sys2Proof.Laws.TableRow

/-- "mask" of the instruction's row of spec/opcode_table.json. -/
def rowMask : Instr → Word64
  | .nop => 0xFFFFFFFFFFFFFFFF
  | .reset => 0xFFFFFFFFFFFFFFFF
  | .rdreg _ => 0xFFFFFFFFFFFF0000
  | .bcOpen _ => 0xFFFFFFFF00000000
  | .bcRdbit => 0xFFFFFFFFFFFFFFFF
  | .bcRdbits _ => 0xFF00FFFFFFFFFFFF
  | .bcPeek _ => 0xFF00FFFFFFFFFFFF
  | .bcFlush _ => 0xFFFFFFFF00000000
  | .bcAligned => 0xFFFFFFFFFFFFFFFF
  | .bcMore => 0xFFFFFFFFFFFFFFFF
  | .ctInit _ _ _ _ => 0xFF000000FFFFFFFE
  | .ctGet _ => 0xFFFFFFFFFFFF0000
  | .adInit => 0xFFFFFFFFFFFFFFFF
  | .adBin _ => 0xFFFFFFFFFFFF0000
  | .adTerm => 0xFFFFFFFFFFFFFFFF
  | .adByp => 0xFFFFFFFFFFFFFFFF
  | .adBypn _ => 0xFF00FFFFFFFFFFFF
  | .adBypu _ => 0xFF00FFFFFFFFFFFF
  | .adRealign => 0xFFFFFFFFFFFFFFFF
  | .rbDecode _ _ _ _ _ => 0xFF00F0FFFFFFFFFF

/-- "match" of the instruction's row of spec/opcode_table.json. -/
def rowMatch : Instr → Word64
  | .nop => 0x0000000000000000
  | .reset => 0x0100000000000000
  | .rdreg _ => 0x0200000000000000
  | .bcOpen _ => 0x1000000000000000
  | .bcRdbit => 0x1100000000000000
  | .bcRdbits _ => 0x1200000000000000
  | .bcPeek _ => 0x1300000000000000
  | .bcFlush _ => 0x1400000000000000
  | .bcAligned => 0x1500000000000000
  | .bcMore => 0x1600000000000000
  | .ctInit _ _ _ _ => 0x2000000000000000
  | .ctGet _ => 0x2100000000000000
  | .adInit => 0x3000000000000000
  | .adBin _ => 0x3100000000000000
  | .adTerm => 0x3200000000000000
  | .adByp => 0x3300000000000000
  | .adBypn _ => 0x3400000000000000
  | .adBypu _ => 0x3500000000000000
  | .adRealign => 0x3600000000000000
  | .rbDecode _ _ _ _ _ => 0x4000000000000000

/-- The instruction's word, under its row's mask, is its row's match. -/
def Statement (i : Instr) : Prop := encode i &&& rowMask i = rowMatch i

theorem formatC_and (op a b c op' a' b' c' : Byte) (imm imm' : Word) :
    formatC op a b c imm &&& formatC op' a' b' c' imm' =
      formatC (op &&& op') (a &&& a') (b &&& b') (c &&& c') (imm &&& imm') := by
  apply BitVec.eq_of_getLsbD_eq; intro i hi
  simp only [formatC, BitVec.getLsbD_and, BitVec.getLsbD_append]
  split
  · rfl
  split
  · rfl
  split
  · rfl
  split <;> rfl

theorem low16_and (x : BitVec 16) : x.setWidth 32 &&& 0xFFFF0000#32 = 0 := by
  apply BitVec.eq_of_getLsbD_eq; intro i hi
  by_cases h : i < 16
  · have : (0xFFFF0000#32).getLsbD i = false := by revert h; revert i; decide
    simp [this]
  · simp [BitVec.getLsbD_setWidth, BitVec.getLsbD_of_ge x i (by omega)]

theorem flags_and (l t f n : Bool) :
    (flagAt l 0 ||| flagAt t 1 ||| flagAt f 2 ||| flagAt n 3) &&& 0xF0#8 = 0 := by
  cases l <;> cases t <;> cases f <;> cases n <;> decide

theorem aux_and (x : Bool) : (if x then 1#32 else 0#32) &&& 0xFFFFFFFE#32 = 0 := by
  cases x <;> decide

theorem nop : Statement .nop := by unfold Statement; decide

theorem reset : Statement .reset := by unfold Statement; decide

theorem rdreg (r : Reg) : Statement (.rdreg r) := by
  have e : rowMask (.rdreg r) = formatC 0xff 0xff 0xff 0xff 0xffff0000 := by simp only [rowMask]; decide
  rw [Statement, e, encode, formatC_and]
  simp only [low16_and, BitVec.ofNat_eq_ofNat, rowMatch]
  decide

theorem bcOpen (max : Word) : Statement (.bcOpen max) := by
  have e : rowMask (.bcOpen max) = formatC 0xff 0xff 0xff 0xff 0x0 := by simp only [rowMask]; decide
  rw [Statement, e, encode, formatC_and]
  simp only [BitVec.and_zero, BitVec.ofNat_eq_ofNat, rowMatch]
  decide

theorem bcRdbit : Statement .bcRdbit := by unfold Statement; decide

theorem bcRdbits (n : Byte) : Statement (.bcRdbits n) := by
  have e : rowMask (.bcRdbits n) = formatC 0xff 0x0 0xff 0xff 0xffffffff := by simp only [rowMask]; decide
  rw [Statement, e, encode, formatC_and]
  simp only [BitVec.and_zero, BitVec.ofNat_eq_ofNat, rowMatch]
  decide

theorem bcPeek (n : Byte) : Statement (.bcPeek n) := by
  have e : rowMask (.bcPeek n) = formatC 0xff 0x0 0xff 0xff 0xffffffff := by simp only [rowMask]; decide
  rw [Statement, e, encode, formatC_and]
  simp only [BitVec.and_zero, BitVec.ofNat_eq_ofNat, rowMatch]
  decide

theorem bcFlush (n : Word) : Statement (.bcFlush n) := by
  have e : rowMask (.bcFlush n) = formatC 0xff 0xff 0xff 0xff 0x0 := by simp only [rowMask]; decide
  rw [Statement, e, encode, formatC_and]
  simp only [BitVec.and_zero, BitVec.ofNat_eq_ofNat, rowMatch]
  decide

theorem bcAligned : Statement .bcAligned := by unfold Statement; decide

theorem bcMore : Statement .bcMore := by unfold Statement; decide

theorem ctInit (u p q : Byte) (x : Bool) : Statement (.ctInit u p q x) := by
  have e : rowMask (.ctInit u p q x) = formatC 0xff 0x0 0x0 0x0 0xfffffffe := by simp only [rowMask]; decide
  rw [Statement, e, encode, formatC_and]
  simp only [aux_and, BitVec.and_zero, BitVec.ofNat_eq_ofNat, rowMatch]
  decide

theorem ctGet (idx : BitVec 16) : Statement (.ctGet idx) := by
  have e : rowMask (.ctGet idx) = formatC 0xff 0xff 0xff 0xff 0xffff0000 := by simp only [rowMask]; decide
  rw [Statement, e, encode, formatC_and]
  simp only [low16_and, BitVec.ofNat_eq_ofNat, rowMatch]
  decide

theorem adInit : Statement .adInit := by unfold Statement; decide

theorem adBin (idx : BitVec 16) : Statement (.adBin idx) := by
  have e : rowMask (.adBin idx) = formatC 0xff 0xff 0xff 0xff 0xffff0000 := by simp only [rowMask]; decide
  rw [Statement, e, encode, formatC_and]
  simp only [low16_and, BitVec.ofNat_eq_ofNat, rowMatch]
  decide

theorem adTerm : Statement .adTerm := by unfold Statement; decide

theorem adByp : Statement .adByp := by unfold Statement; decide

theorem adBypn (n : Byte) : Statement (.adBypn n) := by
  have e : rowMask (.adBypn n) = formatC 0xff 0x0 0xff 0xff 0xffffffff := by simp only [rowMask]; decide
  rw [Statement, e, encode, formatC_and]
  simp only [BitVec.and_zero, BitVec.ofNat_eq_ofNat, rowMatch]
  decide

theorem adBypu (max : Byte) : Statement (.adBypu max) := by
  have e : rowMask (.adBypu max) = formatC 0xff 0x0 0xff 0xff 0xffffffff := by simp only [rowMask]; decide
  rw [Statement, e, encode, formatC_and]
  simp only [BitVec.and_zero, BitVec.ofNat_eq_ofNat, rowMatch]
  decide

theorem adRealign : Statement .adRealign := by unfold Statement; decide

theorem rbDecode (cat : BlockCat) (l t f n : Bool) : Statement (.rbDecode cat l t f n) := by
  have e : rowMask (.rbDecode cat l t f n) = formatC 0xff 0x0 0xf0 0xff 0xffffffff := by simp only [rowMask]; decide
  rw [Statement, e, encode, formatC_and]
  simp only [flags_and, BitVec.and_zero, BitVec.ofNat_eq_ofNat, rowMatch]
  decide

end Sys2Proof.Laws.TableRow
end

