-- ==== Sys2Proof/Tests/Slice0.lean ====
section
/-! SUPPORT. The model's own tests: expected values from 95_test_vectors.md, 96_test_vectors_families.md and the examples of
the rules; and for every obligation with hypotheses a state and operands that meet them all. -/

namespace Sys2Proof.Tests

open Sys2Proof Sys2Proof.Machine Sys2Proof.Safety Sys2Proof.Claims

/-! ## Small states -/

/-- Words as bytes, most significant first (20_memory.md R65). -/
def bytesOf (ws : List Nat) : Memory :=
  ws.zipIdx.flatMap fun (w, i) =>
    [(4 * i, BitVec.ofNat 8 (w / 2 ^ 24)), (4 * i + 1, BitVec.ofNat 8 (w / 2 ^ 16)),
      (4 * i + 2, BitVec.ofNat 8 (w / 2 ^ 8)), (4 * i + 3, BitVec.ofNat 8 w)]

/-- `BUF_A` of 95_test_vectors.md section 1. -/
def bufA : List Nat := [0x4B2D9C6A, 0x3E5F7081, 0x92A4B6C8, 0xDEADBEEF, 0x00000000, 0x00000000]

/-- `CTX_INIT_TEST` of 95_test_vectors.md section 1. -/
def testTable (key : InitKey) : ContextTable :=
  Vector.ofFn fun i : Fin 460 =>
    ⟨BitVec.ofNat 6 (i.val + key.quantParam.toNat + 7 * key.unitClass.toNat + 13 * key.initParam.toNat +
      29 * key.aux.toNat), (i.val + key.unitClass.toNat) % 2 = 1⟩

/-- The parameters of 95_test_vectors.md section 1, `CTX_INIT_TEST` listed for three keys. -/
def testParams (bufWords : Nat) : Params :=
  { resetParams with
    bufWords := bufWords
    ctxInit := [⟨0, 0, false, 26⟩, ⟨0, 0, false, 3⟩, ⟨2, 2, true, 51⟩].map fun key => (key, testTable key) }

/-- Right after reset, the words in BUF. -/
def boot (ws : List Nat) : State := { State.reset with buf := bytesOf ws, params := testParams ws.length }

/-- A unit of `max` valid bits is open on the words, the cursor at `at`. -/
def opened (ws : List Nat) (max off : Nat) : State :=
  { boot ws with cursorValid := true, maxBitOffset := BitVec.ofNat 32 max, bitOffset := BitVec.ofNat 32 off }

/-- The start of a row of AD-B and AD-C: DECODING, the cursor at 9, every context the one given. -/
def decoder (max : Nat) (range value : Word) (entry : ContextEntry) : State :=
  { opened bufA max 9 with
    phase := .decoding, range := range, value := value, ctxValid := true, ctx := Vector.replicate 460 entry }

/-- The same, TERMINATED. -/
def terminated (max : Nat) (range value : Word) : State :=
  { decoder max range value ⟨0, false⟩ with phase := .terminated }

/-- After BC.OPEN, CT.INIT 0, 0, `qp`, 0 and AD.INIT on the words. -/
def primed (ws : List Nat) (max : Nat) (qp : Byte) : State :=
  { opened ws max 9 with
    phase := .ready, range := 0xFF000000, value := BitVec.ofNat 32 ws.headI, ctxValid := true
    ctx := testTable ⟨0, 0, false, qp⟩ }

/-- The response, the cursor, the interval and the phase of an outcome. -/
def seen : Host.Outcome State Fault Refusal → Option (Option Word64 × Word × Word × Word × Phase)
  | .next t => some (t.response, t.bitOffset, t.range, t.value, t.phase)
  | .fault _ => none
  | .refused _ => none

/-- A field of the next state. -/
def fieldOf {α : Type} (f : State → α) : Host.Outcome State Fault Refusal → Option α
  | .next t => some (f t)
  | .fault _ => none
  | .refused _ => none

theorem next_of_seen {o : Host.Outcome State Fault Refusal} (h : (seen o).isSome = true) : ∃ t, o = .next t := by
  cases o with
  | next t => exact ⟨t, rfl⟩
  | fault _ => cases h
  | refused _ => cases h

theorem answered_of_field {o : Host.Outcome State Fault Refusal} {code info : Byte} {r : Word}
    (h : fieldOf State.response o = some (some (0#16 ++ info ++ code ++ r))) :
    ∃ t, o = .next t ∧ Answered t code info r := by
  cases o with
  | next t => exact ⟨t, rfl, Option.some.inj h⟩
  | fault _ => cases h
  | refused _ => cases h

theorem answered_of_seen {o : Host.Outcome State Fault Refusal} {code info : Byte} {r : Word}
    {x : Word × Word × Word × Phase} (h : seen o = some (some (0#16 ++ info ++ code ++ r), x)) :
    ∃ t, o = .next t ∧ Answered t code info r := by
  cases o with
  | next t => exact ⟨t, rfl, congrArg Prod.fst (Option.some.inj h)⟩
  | fault _ => cases h
  | refused _ => cases h

/-- A procedure raised no error. -/
def isOk {α : Type} : Res α → Bool
  | .ok _ _ => true
  | .err _ _ => false

theorem ok_of_isOk {α : Type} {r : Res α} (h : isOk r = true) : ∃ a t, r = .ok a t := by
  cases r with
  | ok a t => exact ⟨a, t, rfl⟩
  | err _ _ => cases h

/-! ## WellFormed: an ill-formed term for each check -/

theorem test_wellFormed_rdbits : (Instr.bcRdbits 33).wellFormed = false ∧ (Instr.bcRdbits 32).wellFormed = true := by
  decide
theorem test_wellFormed_peek : (Instr.bcPeek 33).wellFormed = false ∧ (Instr.bcPeek 32).wellFormed = true := by decide
theorem test_wellFormed_bypn : (Instr.adBypn 33).wellFormed = false ∧ (Instr.adBypn 32).wellFormed = true := by decide

/-! ## Decoding: the words of 96_test_vectors_families.md section 3.1 -/

theorem test_decode_nop : decode 0x0000000000000000 = .ok .nop := by rfl
theorem test_decode_reset : decode 0x0100000000000000 = .ok .reset := by rfl
theorem test_decode_rdreg : decode 0x0200000000000000 = .ok (.rdreg .status) := by rfl
theorem test_decode_rdreg_level : decode 0x0200000000000043 = .ok (.rdreg (.outLevel 3)) := by rfl
theorem test_decode_bcOpen : decode 0x1000000000000080 = .ok (.bcOpen 128) := by rfl
theorem test_decode_bcRdbit : decode 0x1100000000000000 = .ok .bcRdbit := by rfl
theorem test_decode_bcRdbits : decode 0x1220000000000000 = .ok (.bcRdbits 32) := by rfl
theorem test_decode_bcPeek : decode 0x1307000000000000 = .ok (.bcPeek 7) := by rfl
theorem test_decode_bcFlush : decode 0x14000000FFFFFFFF = .ok (.bcFlush 0xFFFFFFFF) := by rfl
theorem test_decode_bcAligned : decode 0x1500000000000000 = .ok .bcAligned := by rfl
theorem test_decode_bcMore : decode 0x1600000000000000 = .ok .bcMore := by rfl
theorem test_decode_ctInit : decode 0x2002023300000001 = .ok (.ctInit 2 2 51 true) := by rfl
theorem test_decode_ctGet : decode 0x21000000000001CB = .ok (.ctGet 459) := by rfl
theorem test_decode_adInit : decode 0x3000000000000000 = .ok .adInit := by rfl
theorem test_decode_adBin : decode 0x31000000000000E3 = .ok (.adBin 227) := by rfl
theorem test_decode_adTerm : decode 0x3200000000000000 = .ok .adTerm := by rfl
theorem test_decode_adByp : decode 0x3300000000000000 = .ok .adByp := by rfl
theorem test_decode_adBypn : decode 0x3414000000000000 = .ok (.adBypn 20) := by rfl
theorem test_decode_adBypu : decode 0x35FF000000000000 = .ok (.adBypu 255) := by rfl
theorem test_decode_adRealign : decode 0x3600000000000000 = .ok .adRealign := by rfl
theorem test_decode_rbDecode : decode 0x40050F0000000000 = .ok (.rbDecode .luma8x8 true true true true) := by rfl
theorem test_decode_rbDecode_top : decode 0x4003020000000000 = .ok (.rbDecode .chromaDC false true false false) := by rfl
theorem test_decode_rbDecode_left : decode 0x4002010000000000 = .ok (.rbDecode .luma4x4 true false false false) := by rfl
theorem test_decode_rbDecode_fld : decode 0x4005040000000000 = .ok (.rbDecode .luma8x8 false false true false) := by rfl
theorem test_decode_rbDecode_inferred : decode 0x4004080000000000 = .ok (.rbDecode .chromaAC false false false true) := by
  rfl

/-- 30_encoding.md R101: the opcode, then the reserved bits, then the ranges. -/
theorem test_decode_order :
    decode 0x1721000000000001 = .error .undefinedOp ∧ decode 0x1221000000000001 = .error .reservedNonzero ∧
    decode 0x1221000000000000 = .error .operandRange := by decide

theorem test_decodeTableWord : decodeTableWord 64 0x1000000000000080 = some (.bcOpen 128) := by rfl

/-- The first command after reset is the one placed. -/
theorem test_withFetchWord :
    seen (step (State.reset.withFetchWord 64 0x1000000000000008)) = some (some 0, 0, 0, 0, .idle) ∧
    fieldOf State.maxBitOffset (step (State.reset.withFetchWord 64 0x1000000000000008)) = some 8 := by
  decide +kernel

/-! ## One step of each command -/

/-- 44_system.md R260. -/
theorem test_nop : seen (exec .nop (decoder 128 0xFF000000 0 ⟨0, false⟩)) =
    some (some 0, 9, 0xFF000000, 0, .decoding) := by decide +kernel

/-- 44_system.md R261: after RESET, STATUS reads 0. -/
theorem test_reset : fieldOf statusWord (exec .reset (decoder 128 0xFF000000 0 ⟨0, false⟩)) = some 0 := by
  decide +kernel

/-- 10_state.md R42: STATUS with `ctx_valid`, `cursor_valid`, IDLE; 44_system.md R264: OUT_CBF is not readable in READY. -/
theorem test_rdreg :
    fieldOf State.response (exec (.rdreg .status) { primed [0xFEFC0000, 0] 14 26 with phase := .idle }) = some (some 0x18) ∧
    fieldOf State.response (exec (.rdreg .outCbf) (primed [0xFEFC0000, 0] 14 26)) = some (some 0x0000190500000000) := by
  decide +kernel

/-- 44_system.md R263: a negative level reads as its two's complement, one beyond OUT_NLEVELS is refused. -/
theorem test_rdreg_level :
    let s := { decoder 128 0x200 0 ⟨0, false⟩ with
      outValid := true, outCbf := true, outNLevels := 3, outSig := 0xB, outLevel := Vector.replicate 64 0xFFFFFFFF }
    fieldOf State.response (exec (.rdreg (.outLevel 2)) s) = some (some 0xFFFFFFFF) ∧
    fieldOf State.response (exec (.rdreg (.outLevel 3)) s) = some (some 0x00003A0500000000) := by decide +kernel

/-- 96_test_vectors_families.md section 3.2 BC-2: `BC.OPEN 65` with two words is refused, 64 is not. -/
theorem test_bcOpen :
    seen (exec (.bcOpen 65) (opened [0xA5C3F00F, 0x12345678] 40 40)) = some (some 0x0000100200000000, 40, 0, 0, .idle) ∧
    fieldOf State.maxBitOffset (exec (.bcOpen 64) (opened [0xA5C3F00F, 0x12345678] 40 40)) = some 64 := by
  decide +kernel

/-- BC-1: the top bit first; at the end the read is refused. -/
theorem test_bcRdbit :
    seen (exec .bcRdbit (opened [0xA5C3F00F, 0x12345678] 64 0)) = some (some 1, 1, 0, 0, .idle) ∧
    seen (exec .bcRdbit (opened [0xA5C3F00F, 0x12345678] 64 64)) = some (some 0x0000010100000000, 64, 0, 0, .idle) := by
  decide +kernel

/-- BC-1: 32 bits across two words. -/
theorem test_bcRdbits :
    seen (exec (.bcRdbits 32) (opened [0xA5C3F00F, 0x12345678] 64 16)) = some (some 0xF00F1234, 48, 0, 0, .idle) := by
  decide +kernel

/-- BC-1: a read one bit too long is refused whole. -/
theorem test_bcRdbits_short :
    seen (exec (.bcRdbits 17) (opened [0xA5C3F00F, 0x12345678] 64 48)) =
      some (some 0x0000010100000000, 48, 0, 0, .idle) := by decide +kernel

/-- BC-1: a peek moves nothing. -/
theorem test_bcPeek :
    seen (exec (.bcPeek 8) (opened [0xA5C3F00F, 0x12345678] 64 13)) = some (some 0x7E, 13, 0, 0, .idle) := by
  decide +kernel

/-- BC-2: to the end, and a count that would wrap. -/
theorem test_bcFlush :
    seen (exec (.bcFlush 39) (opened [0xA5C3F00F, 0x12345678] 40 0)) = some (some 0, 39, 0, 0, .idle) ∧
    seen (exec (.bcFlush 0xFFFFFFFF) (opened [0xA5C3F00F, 0x12345678] 40 40)) =
      some (some 0x0000020100000000, 40, 0, 0, .idle) := by decide +kernel

/-- BC-1. -/
theorem test_bcAligned :
    fieldOf State.response (exec .bcAligned (opened [0xA5C3F00F, 0x12345678] 64 13)) = some (some 0) ∧
    fieldOf State.response (exec .bcAligned (opened [0xA5C3F00F, 0x12345678] 64 16)) = some (some 1) := by decide +kernel

/-- BC-1. -/
theorem test_bcMore :
    fieldOf State.response (exec .bcMore (opened [0xA5C3F00F, 0x12345678] 64 48)) = some (some 1) ∧
    fieldOf State.response (exec .bcMore (opened [0xA5C3F00F, 0x12345678] 64 64)) = some (some 0) := by decide +kernel

/-- 95_test_vectors.md section 1: an entry of (B, 2, aux 1, qp 51), and UNITCFG. -/
theorem test_ctInit :
    fieldOf (fun t => t.ctx[7]) (exec (.ctInit 2 2 51 true) (boot [0])) = some ⟨63, true⟩ ∧
    fieldOf State.unitCfg (exec (.ctInit 2 2 51 true) (boot [0])) = some 0b1_110011_00000010_10 := by decide +kernel

/-- 41_context_table.md R159: `qp = 52` is refused. -/
theorem test_ctInit_quant :
    fieldOf State.response (exec (.ctInit 0 0 52 false) (boot [0])) = some (some 0x0000130200000000) := by decide +kernel

/-- 41_context_table.md R161: entry 5 of (I, 0, aux 0, qp 26); index 460. -/
theorem test_ctGet :
    fieldOf State.response (exec (.ctGet 5) (primed [0] 9 26)) = some (some 0x5F) ∧
    fieldOf State.response (exec (.ctGet 460) (primed [0] 9 26)) = some (some 0x0000200300000000) := by decide +kernel

/-- 42_arithmetic_decoder.md R175, the example; one bit short. -/
theorem test_adInit :
    seen (exec .adInit (opened bufA 128 0)) = some (some 0, 9, 0xFF000000, 0x4B2D9C6A, .ready) ∧
    seen (exec .adInit (opened bufA 8 0)) = some (some 0x0000030100000000, 0, 0, 0, .failed) := by decide +kernel

/-- 42_arithmetic_decoder.md R177 (d): LPS at state 0, renormalisation, the flipped `mps`. -/
theorem test_adBin :
    seen (exec (.adBin 7) (decoder 128 0x150 0xF0 ⟨0, false⟩)) = some (some 1, 33, 0xB0000000, 0x503E5F70, .decoding) ∧
    fieldOf (fun t => (t.ctx[7], t.ctx[8])) (exec (.adBin 7) (decoder 128 0x150 0xF0 ⟨0, false⟩)) =
      some (⟨0, true⟩, ⟨0, false⟩) := by decide +kernel

/-- AD-C row 2: one bit short, nothing committed. -/
theorem test_adBin_short :
    seen (exec (.adBin 7) (decoder 32 0x150 0x20 ⟨0, false⟩)) =
      some (some 0x0000040100000000, 9, 0x150, 0x20, .failed) ∧
    fieldOf State.lastErr (exec (.adBin 7) (decoder 32 0x150 0x20 ⟨0, false⟩)) = some 0x0401 := by decide +kernel

/-- 42_arithmetic_decoder.md R182 (c): result 0 with renormalisation. -/
theorem test_adTerm :
    seen (exec .adTerm (decoder 128 0x100 0x10 ⟨0, false⟩)) = some (some 0, 33, 0xFE000000, 0x103E5F70, .decoding) := by
  decide +kernel

/-- 42_arithmetic_decoder.md R182 (d): result 1 leaves the interval. -/
theorem test_adTerm_last :
    seen (exec .adTerm (decoder 9 0x100 0xFE ⟨0, false⟩)) = some (some 1, 9, 0x100, 0xFE, .terminated) := by
  decide +kernel

/-- 42_arithmetic_decoder.md R187 (c), and AD-B: `range = 0x200` needs no renormalisation. -/
theorem test_adByp :
    seen (exec .adByp (decoder 128 0x180 0x41 ⟨0, false⟩)) = some (some 0, 32, 0x60000000, 0x209F2FB8, .decoding) ∧
    seen (exec .adByp (decoder 128 0x200 0x100 ⟨0, false⟩)) = some (some 1, 9, 0x100, 0, .decoding) := by decide +kernel

/-- 42_arithmetic_decoder.md R188: first bin most significant. -/
theorem test_adBypn :
    seen (exec (.adBypn 5) (decoder 128 0xFF000000 0xB4000000 ⟨0, false⟩)) =
      some (some 22, 9, 0x07F80000, 0x04B00000, .decoding) := by decide +kernel

/-- AD-C: the bins before the failing one stay committed. -/
theorem test_adBypn_short :
    seen (exec (.adBypn 32) (decoder 40 0x180 0x41 ⟨0, false⟩)) =
      some (some 0x0000040100000000, 32, 0x180, 0x38, .failed) := by decide +kernel

/-- 42_arithmetic_decoder.md R189: the terminating 0 is used; without one, none is. -/
theorem test_adBypu :
    seen (exec (.adBypu 20) (decoder 128 0xFF000000 0xE0000000 ⟨0, false⟩)) =
      some (some 3, 9, 0x0FF00000, 0x00E00000, .decoding) ∧
    seen (exec (.adBypu 2) (decoder 128 0xFF000000 0xE0000000 ⟨0, false⟩)) =
      some (some 2, 9, 0x3FC00000, 0x20C00000, .decoding) := by decide +kernel

/-- AD-C: the exact bound of AD.REALIGN. -/
theorem test_adRealign :
    seen (exec .adRealign (terminated 27 0x3400 0x10)) = some (some 18, 27, 0x3400, 0x10, .idle) ∧
    seen (exec .adRealign (terminated 26 0x3400 0x10)) = some (some 0x0000050100000000, 9, 0x3400, 0x10, .failed) := by
  decide +kernel

/-- P3, first block: levels 3, -1, 1 at indices 0, 1, 3, decoded from the highest index down. -/
theorem test_rbDecode :
    let o := exec (.rbDecode .luma4x4 false false false false) (primed [0xF721F907, 0x5259BA8F, 0x2D800000, 0] 73 26)
    seen o = some (some 0x301, 9, 0x4AC, 0x487, .decoding) ∧
    fieldOf (fun t => (t.outSig, t.outLevel[0], t.outLevel[1], t.outLevel[2])) o = some (0xB, 1, 0xFFFFFFFF, 3) := by
  decide +kernel

/-- RB-2: the largest magnitude, negative. -/
theorem test_rbDecode_escape :
    let o := exec (.rbDecode .chromaDC true true false false) (primed [0xFECFFFFF, 0xEFFFFFFF, 0xFFFFF800, 0] 85 26)
    seen o = some (some 0x101, 80, 0x04000000, 0x03FC0000, .decoding) ∧
    fieldOf (fun t => t.outLevel[0]) o = some 0xFFDFFFF3 := by decide +kernel

/-- A bin list of 96_test_vectors_families.md section 3.5: the commands, a context index each or none for a bypass bin,
are the ones that blockCommands gives for the bins. -/
def commandsAre (cat : BlockCat) (left top fld inferred : Bool) (l : List (Option Nat × Bool)) : Bool :=
  blockCommands ctxMapH264 cat left top fld inferred (l.map Prod.snd) ==
    l.map fun e => (e.1.map fun idx => Instr.adBin (BitVec.ofNat 16 idx)).getD .adByp

/-- RB-2 and RB-6: prefixes, a suffix and both counters. -/
theorem test_blockCommands_levels :
    commandsAre .chromaDC true true false false ([(some 100, true), (some 149, true), (some 210, true), (some 258, true)] ++
      List.replicate 13 (some 262, true) ++ List.replicate 41 (none, true)) = true ∧
    commandsAre .luma4x4 true true false false ([(some 96, true), (some 134, true), (some 195, false), (some 135, true),
      (some 196, false), (some 136, true), (some 197, false), (some 137, true), (some 198, false), (some 138, true),
      (some 199, false), (some 139, true), (some 200, false), (some 140, true), (some 201, false), (some 141, true),
      (some 202, false), (some 142, true), (some 203, true)] ++ [(some 248, false), (none, false), (some 249, false),
      (none, false), (some 250, false), (none, false), (some 251, false), (none, false), (some 251, false), (none, false),
      (some 251, false), (none, false), (some 251, true), (some 252, false), (none, false), (some 247, false),
      (none, false), (some 247, true), (some 253, true), (some 253, false), (none, false)]) = true := by decide +kernel

/-- RB-5: field contexts of an 8x8 block; RB-4: an AC-only block with an implicit last index. -/
theorem test_blockCommands_scans :
    commandsAre .luma8x8 false false true true ([(some 436, true), (some 451, false), (some 437, false),
      (some 437, false), (some 438, false), (some 438, false), (some 439, true), (some 452, false), (some 439, false),
      (some 440, false), (some 441, false), (some 442, false), (some 443, false), (some 443, false), (some 443, false),
      (some 444, false), (some 440, false), (some 441, false), (some 442, false), (some 445, false), (some 446, false),
      (some 446, false), (some 444, true), (some 453, true)] ++ [(some 427, false), (none, false), (some 428, true),
      (some 431, false), (none, false), (some 426, false), (none, true)]) = true ∧
    commandsAre .lumaAC16 true false false false ([(some 90, true), (some 120, true), (some 181, false)] ++
      ((List.range' 121 13).map fun i => (some i, false)) ++ [(some 238, false), (none, true), (some 239, true),
      (some 242, false), (none, false)]) = true := by decide +kernel

/-! ## The bit buffer -/

theorem test_memory_reset : memWf State.reset.buf = true := by decide
theorem test_memory_write : memWrite (memWrite [(4, 1)] 2 7) 4 9 = [(2, 7), (4, 9)] := by decide

/-! ## Witnesses: states and operands that meet the hypotheses of the obligations -/

theorem test_witness_DecodeOfEncodeIsTheCommand :
    (Instr.adBypn 32).wellFormed = true ∧ (Instr.rdreg (.outLevel 63)).wellFormed = true := by decide

theorem test_witness_EncodeOfDecodeIsTheWord : decode 0x3420000000000000 = .ok (.adBypn 32) := by rfl

theorem test_witness_UndefinedOpcodeIsRefused :
    (0x0300000000000000 : Word64).extractLsb' 56 8 ∉ opcodes ∧ (0xFF00000000000000 : Word64).extractLsb' 56 8 ∉ opcodes ∧
    decode 0 = .ok .nop := by decide

theorem test_witness_ReservedBitsMustBeZero :
    ((0x40, 0x0000F0FFFFFFFFFF) : Byte × Word64) ∈ reservedBits ∧
    (0x4000100000000000 : Word64).extractLsb' 56 8 = 0x40 ∧ (0x4000100000000000 : Word64) &&& 0x0000F0FFFFFFFFFF ≠ 0 := by
  decide

/-- Each range, one past its end and at its end. -/
theorem test_witness_EncodedRangesAreChecked :
    (((0x12, 0x0000FFFFFFFFFFFF) : Byte × Word64) ∈ reservedBits ∧ (0x1221000000000000 : Word64).extractLsb' 56 8 = 0x12 ∧
      (0x1221000000000000 : Word64) &&& 0x0000FFFFFFFFFFFF = 0) ∧
    (OperandOutOfRange 0x1221000000000000 ∧ ¬ OperandOutOfRange 0x1220000000000000) ∧
    (OperandOutOfRange 0x4006000000000000 ∧ ¬ OperandOutOfRange 0x4005000000000000) ∧
    (OperandOutOfRange 0x020000000000000B ∧ ¬ OperandOutOfRange 0x020000000000000A) ∧
    (OperandOutOfRange 0x020000000000003F ∧ ¬ OperandOutOfRange 0x0200000000000040) ∧
    (OperandOutOfRange 0x0200000000000080 ∧ ¬ OperandOutOfRange 0x020000000000007F) ∧ 32 < (33 : Byte).toNat := by
  refine ⟨by decide, ⟨?_, ?_⟩, ⟨?_, ?_⟩, ⟨?_, ?_⟩, ⟨?_, ?_⟩, ⟨?_, ?_⟩, by decide⟩ <;> simp only [OperandOutOfRange] <;> decide

theorem test_witness_StepRunsTheDecodedCommand :
    let s := State.reset.withFetchWord 64 0x1000000000000008
    let s' := State.reset.withFetchWord 64 0x1700000000000000
    s.program[s.programIndex]? = some (.command 0x1000000000000008) ∧ decode 0x1000000000000008 = .ok (.bcOpen 8) ∧
    s'.program[s'.programIndex]? = some (.command 0x1700000000000000) ∧
    decode 0x1700000000000000 = .error .undefinedOp ∧ decode 0x0000000000000001 = .error .reservedNonzero ∧
    decode 0x1221000000000000 = .error .operandRange := by decide +kernel

/-- A host that holds one action. -/
def hosting (a : HostAction) (s : State) : State := { s with program := [a], programIndex := 0 }

theorem test_witness_OnlyTheHostMovesTheProgramIndex :
    State.reset.program[State.reset.programIndex]? = none ∧
    (∃ t, step (hosting (.command 0) State.reset) = .next t) ∧ ∃ t, exec .nop State.reset = .next t :=
  ⟨rfl, ⟨_, rfl⟩, ⟨_, rfl⟩⟩

theorem test_witness_NoCommandStopsTheCore :
    (hosting (.writeBuf 8 1) (boot [0, 0])).program[0]? = some (.writeBuf 8 1) ∧
    4 * (boot [0, 0]).params.bufWords ≤ 8 ∧
    step (hosting (.writeBuf 8 1) (boot [0, 0])) = .fault .hostWriteOutsideBuf := ⟨rfl, by decide, rfl⟩

theorem test_witness_HardwareResetClearsTheCore :
    (hosting .hardwareReset (boot [0])).program[(hosting .hardwareReset (boot [0])).programIndex]? =
      some .hardwareReset := rfl

/-- The last byte of BUF, and the largest unit. -/
theorem test_witness_HostWriteIsSeenByTheNextUnit :
    ∃ t u, act (.writeBuf 23 0xAB) (opened bufA 128 9) = .next t ∧
      (192 : Word).toNat ≤ 32 * (opened bufA 128 9).params.bufWords ∧ exec (.bcOpen 192) t = .next u ∧
      23 < 4 * (opened bufA 128 9).params.bufWords ∧ bitsAt u (8 * 23) 8 = 0xAB := by
  refine ⟨_, _, rfl, by decide, rfl, by decide, by decide +kernel⟩

theorem test_witness_CommandsNeverWriteBuf :
    ∃ t, exec (.adBypn 5) (decoder 128 0xFF000000 0xB4000000 ⟨0, false⟩) = .next t := next_of_seen (by decide +kernel)

theorem test_witness_StepKeepsBufCanonical :
    BufCanonical (hosting (.writeBuf 23 0xAB) (opened bufA 128 9)) ∧
    ∃ t, step (hosting (.writeBuf 23 0xAB) (opened bufA 128 9)) = .next t :=
  ⟨⟨by decide +kernel, by decide +kernel⟩, ⟨_, rfl⟩⟩

theorem test_witness_InstancesDoNotInteract :
    ∃ p', platformStep 1 [boot [0], hosting (.command 0) (boot [0])] = some p' := ⟨_, rfl⟩

theorem test_witness_RdregReturnsTheRegister :
    let s := { decoder 128 0x200 0 ⟨0, false⟩ with outValid := true, outNLevels := 64 }
    s.cursorValid = true ∧ Active s ∧ (terminated 9 0x100 0).phase = .terminated ∧ s.ctxValid = true ∧
      s.outValid = true ∧ (63 : Fin 64).val < s.outNLevels.toNat := ⟨rfl, .inr rfl, rfl, rfl, rfl, by decide⟩

theorem test_witness_BcOpenBindsTheCursor :
    (192 : Word).toNat ≤ 32 * (boot bufA).params.bufWords ∧ 32 * (boot bufA).params.bufWords < (193 : Word).toNat := by
  decide

/-- At the end and one bit before it; a count of 32 that fits exactly, and one bit too many. -/
theorem test_witness_BcReadsConsumeBits :
    ((opened bufA 64 63).cursorValid = true ∧ Inactive (opened bufA 64 63) ∧
      (opened bufA 64 63).bitOffset.toNat + 1 ≤ (opened bufA 64 63).maxBitOffset.toNat) ∧
    ((opened bufA 64 64).cursorValid = true ∧ Inactive (opened bufA 64 64) ∧
      (opened bufA 64 64).maxBitOffset.toNat < (opened bufA 64 64).bitOffset.toNat + 1) ∧
    (32 : Byte).toNat ≤ 32 ∧
    (opened bufA 64 32).bitOffset.toNat + (32 : Byte).toNat ≤ (opened bufA 64 32).maxBitOffset.toNat ∧
    (opened bufA 64 33).maxBitOffset.toNat < (opened bufA 64 33).bitOffset.toNat + (32 : Byte).toNat := by
  refine ⟨⟨rfl, .inl rfl, by decide⟩, ⟨rfl, .inl rfl, by decide⟩, by decide, by decide, by decide⟩

theorem test_witness_BcFlushMovesTheCursor :
    (opened bufA 64 9).cursorValid = true ∧ Inactive { opened bufA 64 9 with phase := .failed } ∧
    (opened bufA 64 9).bitOffset.toNat + (55 : Word).toNat ≤ (opened bufA 64 9).maxBitOffset.toNat ∧
    (opened bufA 64 9).maxBitOffset.toNat < (opened bufA 64 9).bitOffset.toNat + (0xFFFFFFFF : Word).toNat :=
  ⟨rfl, .inr rfl, by decide, by decide⟩

theorem test_witness_BcQueriesAnswer : (decoder 64 0x100 0 ⟨0, false⟩).cursorValid = true ∧ (32 : Byte).toNat ≤ 32 :=
  ⟨rfl, by decide⟩

/-- The word-level form in one word, at its end, and over two. -/
theorem test_witness_BitsAtIsMsbFirst :
    (boot bufA).bufRewritten = false ∧ (160 + 32 ≤ 32 * (boot bufA).params.bufWords ∧ 32 ≤ 32 - 160 % 32) ∧
    (31 + 32 ≤ 32 * (boot bufA).params.bufWords ∧ ¬ 32 ≤ 32 - 31 % 32) := by decide

theorem test_witness_StreamIsBigEndian :
    (boot bufA).bufRewritten = false ∧ 191 < 32 * (boot bufA).params.bufWords ∧
    8 * 23 + 8 ≤ 32 * (boot bufA).params.bufWords ∧ 5 < (boot bufA).params.bufWords := by decide

/-- An OK and a BufferExhausted. -/
theorem test_witness_CursorCommandsKeepTheBound :
    (isCursorCommand .bcRdbit = true ∧ (opened bufA 64 63).cursorValid = true ∧ CursorInBounds (opened bufA 64 63) ∧
      ∃ t, exec .bcRdbit (opened bufA 64 63) = .next t ∧ Answered t 0 0 1) ∧
    ((opened bufA 64 64).cursorValid = true ∧ CursorInBounds (opened bufA 64 64) ∧
      ∃ t, exec .bcRdbit (opened bufA 64 64) = .next t ∧ Answered t 1 0x01 0) :=
  ⟨⟨rfl, rfl, fun _ => by decide, answered_of_field (by decide +kernel)⟩,
    rfl, fun _ => by decide, answered_of_field (by decide +kernel)⟩

theorem test_witness_CursorCommandsWriteOnlyTheCursor :
    isCursorCommand (.bcFlush 55) = true ∧ ∃ t, exec (.bcFlush 55) (opened bufA 64 9) = .next t :=
  ⟨rfl, next_of_seen (by decide +kernel)⟩

/-- Every check at its bound. -/
theorem test_witness_CtInitOverwritesTheTable :
    ((2 : Byte).toNat < 3 ∧ (2 : Byte).toNat < (boot bufA).params.nInitParam ∧ (51 : Byte).toNat ≤ 51) ∧
    3 ≤ (3 : Byte).toNat ∧ (boot bufA).params.nInitParam ≤ (3 : Byte).toNat ∧ 51 < (52 : Byte).toNat ∧
    (boot [0]).params = (opened [0] 32 9).params ∧
    ∃ t, exec (.ctInit 2 2 51 true) (boot [0]) = .next t ∧ Answered t 0 0 0 :=
  ⟨by decide, by decide, by decide, by decide, rfl, answered_of_field (by decide +kernel)⟩

theorem test_witness_CtGetReturnsTheEntry :
    (primed [0] 9 26).ctxValid = true ∧ (459 : BitVec 16).toNat < 460 ∧ 460 ≤ (460 : BitVec 16).toNat :=
  ⟨rfl, by decide, by decide⟩

theorem test_witness_AdInitPrimesTheRegisters :
    (opened bufA 9 0).cursorValid = true ∧
    (opened bufA 9 0).bitOffset.toNat + 9 ≤ (opened bufA 9 0).maxBitOffset.toNat ∧
    (opened bufA 8 0).maxBitOffset.toNat < (opened bufA 8 0).bitOffset.toNat + 9 := ⟨rfl, by decide, by decide⟩

/-- 42_arithmetic_decoder.md R177: (a) the MPS branch without renormalisation; (d) the LPS branch with it, at the exact
bound of the cursor (33), and one bit short (32); an index of 460. -/
theorem test_witness_AdBinDecodesARegularBin :
    (let s := decoder 128 0xFF000000 0x4B2D9C6A ⟨10, true⟩
     Active s ∧ s.ctxValid = true ∧ clz32 s.range ≤ 23 ∧ s.ctx[7]? = some ⟨10, true⟩ ∧
      s.params.trans[4 * 10 + ((s.range <<< clz32 s.range) >>> 29).toNat % 4]? = some ⟨142, 11, 8⟩ ∧
      ¬ (0xB8000000 : Word) ≤ s.value ∧ s.range - (142#8).setWidth 32 <<< (23 - clz32 s.range) = 0xB8000000 ∧
      0x100 ≤ (0xB8000000 : Word).toNat) ∧
    (let s := decoder 33 0x150 0xF0 ⟨0, false⟩
     Active s ∧ s.ctxValid = true ∧ clz32 s.range ≤ 23 ∧ s.ctx[7]? = some ⟨0, false⟩ ∧
      s.params.trans[4 * 0 + ((s.range <<< clz32 s.range) >>> 29).toNat % 4]? = some ⟨176, 1, 0⟩ ∧
      s.range - (176#8).setWidth 32 <<< (23 - clz32 s.range) ≤ s.value ∧
      ((176#8).setWidth 32 <<< (23 - clz32 s.range) : Word) = 0xB0 ∧ (0xB0 : Word) ≠ 0 ∧ (0xB0 : Word).toNat < 0x100 ∧
      s.bitOffset.toNat + clz32 0xB0 ≤ s.maxBitOffset.toNat ∧
      (decoder 32 0x150 0xF0 ⟨0, false⟩).maxBitOffset.toNat < s.bitOffset.toNat + clz32 0xB0) ∧
    460 ≤ (460 : BitVec 16).toNat := by
  refine ⟨⟨.inr rfl, rfl, ?_⟩, ⟨.inr rfl, rfl, ?_⟩, by decide⟩ <;> decide +kernel

/-- An LPS at state 0 and an MPS. -/
theorem test_witness_ContextsAdaptOncePerRegularBin :
    ((7 : BitVec 16).toNat < 460 ∧ ∃ t, exec (.adBin 7) (decoder 128 0x150 0xF0 ⟨0, false⟩) = .next t ∧ Answered t 0 0 1) ∧
    (∃ t, exec (.adBin 7) (decoder 128 0x150 0x20 ⟨0, false⟩) = .next t ∧ Answered t 0 0 0) ∧
    ∃ t, exec .adTerm (decoder 128 0x150 0x20 ⟨0, false⟩) = .next t :=
  ⟨⟨by decide, answered_of_field (by decide +kernel)⟩, answered_of_field (by decide +kernel),
    next_of_seen (by decide +kernel)⟩

/-- 42_arithmetic_decoder.md R182 (d), (a), (c) and one bit short. -/
theorem test_witness_AdTermDecodesATerminalBin :
    (Active (decoder 33 0x100 0xFE ⟨0, false⟩) ∧ clz32 0x100 ≤ 23 ∧
      (0xFE : Word) = 0x100 - 2#32 <<< (23 - clz32 0x100) ∧ (0xFE : Word).toNat ≤ (0xFE : Word).toNat) ∧
    ((0xFE000000 : Word) = 0xFF000000 - 2#32 <<< (23 - clz32 0xFF000000) ∧
      (0xFDFFFFFF : Word).toNat < (0xFE000000 : Word).toNat ∧ 0x100 ≤ (0xFE000000 : Word).toNat) ∧
    ((0xFD : Word).toNat < (0xFE : Word).toNat ∧ (0xFE : Word).toNat < 0x100 ∧
      9 + clz32 0xFE ≤ (decoder 33 0x100 0xFD ⟨0, false⟩).maxBitOffset.toNat ∧
      (decoder 32 0x100 0xFD ⟨0, false⟩).maxBitOffset.toNat < 9 + clz32 0xFE) := by
  refine ⟨⟨.inr rfl, ?_⟩, ?_, ?_⟩ <;> decide +kernel

/-- `range` at `BYPASS_T`, one below it with the exact number of bits (23), and one bit short. -/
theorem test_witness_AdBypDecodesABypassBin :
    (Active (decoder 9 0x200 0x100 ⟨0, false⟩) ∧ (decoder 9 0x200 0x100 ⟨0, false⟩).range ≠ 0 ∧ 0x200 ≤ (decoder 9 0x200 0x100 ⟨0, false⟩).range.toNat) ∧
    ((decoder 32 0x1FF 0x100 ⟨0, false⟩).range ≠ 0 ∧ (decoder 32 0x1FF 0x100 ⟨0, false⟩).range.toNat < 0x200 ∧
      0x100 ≤ (decoder 32 0x1FF 0x100 ⟨0, false⟩).range.toNat ∧
      (decoder 32 0x1FF 0x100 ⟨0, false⟩).bitOffset.toNat + clz32 0x1FF ≤
        (decoder 32 0x1FF 0x100 ⟨0, false⟩).maxBitOffset.toNat) ∧
    (decoder 31 0x1FF 0x100 ⟨0, false⟩).maxBitOffset.toNat < 9 + clz32 0x1FF :=
  ⟨⟨.inr rfl, by decide, by decide⟩, by decide, by decide⟩

theorem test_witness_AdBypnIsRepeatedAdByp :
    Active (decoder 128 0xFF000000 0xB4000000 ⟨0, false⟩) ∧ (5 : Byte).toNat ≤ 32 ∧
    (bypRun 5 (decoder 128 0xFF000000 0xB4000000 ⟨0, false⟩)).map Prod.fst = some [true, false, true, true, false] :=
  ⟨.inr rfl, by decide, by decide +kernel⟩

/-- With a terminating 0 and without. -/
theorem test_witness_AdBypuIsAdBypUntilZero :
    Active (decoder 128 0xFF000000 0xE0000000 ⟨0, false⟩) ∧
    (bypUntilZero 20 (decoder 128 0xFF000000 0xE0000000 ⟨0, false⟩)).map Prod.fst = some 3 ∧
    (bypUntilZero 2 (decoder 128 0xFF000000 0xE0000000 ⟨0, false⟩)).map Prod.fst = some 2 :=
  ⟨.inr rfl, by decide +kernel, by decide +kernel⟩

theorem test_witness_BypassLoopsComplete :
    Active (decoder (9 + 32 * 32) 0x100 0 ⟨0, false⟩) ∧ (32 : Byte).toNat ≤ 32 ∧
    (decoder (9 + 32 * 32) 0x100 0 ⟨0, false⟩).bitOffset.toNat + 32 * (32 : Byte).toNat ≤
      (decoder (9 + 32 * 32) 0x100 0 ⟨0, false⟩).maxBitOffset.toNat := ⟨.inr rfl, by decide, by decide⟩

theorem test_witness_AdRealignMovesToTheTruePosition :
    (terminated 27 0x3400 0x10).phase = .terminated ∧
    (terminated 27 0x3400 0x10).bitOffset.toNat + clz32 0x3400 ≤ (terminated 27 0x3400 0x10).maxBitOffset.toNat ∧
    (terminated 26 0x3400 0x10).maxBitOffset.toNat < 9 + clz32 0x3400 := ⟨rfl, by decide, by decide⟩

/-- The narrowest interval: 31 bits, all the cursor has. -/
theorem test_witness_RenormalisationIsExact :
    (1 : Word) ≠ 0 ∧ (decoder 40 1 0 ⟨0, false⟩).bitOffset.toNat + clz32 1 ≤
      (decoder 40 1 0 ⟨0, false⟩).maxBitOffset.toNat ∧ (0 : Word) < 1 := by decide

/-- Every invariant holds while a decoder runs, and the next step goes on. -/
theorem test_witness_invariants :
    let s := hosting (.command 0x3100000000000007) (decoder 128 0x150 0x20 ⟨0, false⟩)
    CursorInBounds s ∧ PhaseHasCursor s ∧ IntervalAligned s ∧ transWf s.params ∧ OutputConsistent s ∧ BufCanonical s ∧
      ∃ t, step s = .next t :=
  ⟨fun _ => by decide, fun _ => rfl, fun _ => by unfold RangeAligned; decide, by unfold transWf; decide +kernel,
    (fun h => by cases h), ⟨by decide +kernel, by decide +kernel⟩, next_of_seen (by decide +kernel)⟩

/-- A single bin of each kind from an aligned interval. -/
theorem test_witness_StepKeepsIntervalAligned :
    let s := decoder 128 0x150 0x20 ⟨0, false⟩
    RangeAligned s.range ∧ (∃ b t, decodeRegular 7 0x20 s = .ok b t) ∧ (∃ b t, decodeTerminal s = .ok b t) ∧
      ∃ b t, decodeBypass s = .ok b t := by
  exact ⟨by unfold RangeAligned; decide, ok_of_isOk (by decide +kernel), ok_of_isOk (by decide +kernel),
    ok_of_isOk (by decide +kernel)⟩

theorem test_witness_BinCommandsKeepValueBelowRange :
    let s := decoder 128 0x150 0x14F ⟨0, false⟩
    isBinCommand (.adBin 7) = true ∧ ValueBelowRange s ∧ (∃ t, exec (.adBin 7) s = .next t) ∧
      ∃ t, exec .adInit (opened bufA 128 0) = .next t ∧ Answered t 0 0 0 :=
  ⟨rfl, by unfold ValueBelowRange; decide, next_of_seen (by decide +kernel), answered_of_field (by decide +kernel)⟩

/-- A readable block of one level. -/
theorem test_witness_StepKeepsOutputConsistent :
    let s := { hosting (.command 0) (opened bufA 128 9) with
      outValid := true, outCbf := true, outNLevels := 1, outSig := 0x8000000000000000
      outLevel := Vector.replicate 64 0xFFFFFFFF }
    s.outValid = true ∧ OutputConsistent s ∧ ∃ t, step s = .next t :=
  ⟨rfl, fun _ => by decide +kernel, next_of_seen (by decide +kernel)⟩

/-- The read-ahead of AD.INIT on BUF_A (95_test_vectors.md section 1) is what BUF holds. -/
theorem test_witness_StepKeepsTheReadAhead :
    let s := hosting (.command 0x3100000000000007) { primed bufA 128 26 with draws := 0 }
    decoderReadable s = true ∧ s.bufRewritten = false ∧
    ∀ j : Fin 23, s.value.getLsbD j.val = bitAt s (s.bitOffset.toNat + 22 - j.val) 0 := by decide +kernel

theorem test_witness_AdmissionFollowsTheTable :
    (Instr.rdreg (.outLevel 0)).wellFormed = true ∧ ¬ Admitted State.reset (.rdreg (.outLevel 0)) ∧
    ¬ Admitted (decoder 128 0x150 0 ⟨0, false⟩) .bcRdbit ∧ Admitted (decoder 128 0x150 0 ⟨0, false⟩) (.adBin 0) :=
  ⟨rfl, by simp [Admitted, State.reset], by simp [Admitted, Inactive, decoder], ⟨.inr rfl, rfl⟩⟩

theorem test_witness_PhaseFollowsTheTable :
    (∃ t, exec .adTerm (decoder 9 0x100 0xFE ⟨0, false⟩) = .next t) ∧ decode 0x1700000000000000 = .error .undefinedOp ∧
    (∃ t, runCommand 0x1700000000000000 State.reset = .next t) ∧ ∃ t, act .hardwareReset State.reset = .next t :=
  ⟨next_of_seen (by decide +kernel), by rfl, ⟨_, rfl⟩, ⟨_, rfl⟩⟩

theorem test_witness_StatusesFollowTheTable :
    (∃ t, runCommand 0x1700000000000000 State.reset = .next t) ∧
    ∃ t, runCommand 0x3100000000000007 (decoder 32 0x150 0x20 ⟨0, false⟩) = .next t :=
  ⟨⟨_, rfl⟩, next_of_seen (by decide +kernel)⟩

/-- A refusal, an aborted unit, an OK. -/
theorem test_witness_ErrorsChangeOnlyTheRecord :
    (∃ t, exec .adByp State.reset = .next t ∧ Answered t 5 0 0) ∧
    (∃ t, exec (.adBin 7) (decoder 32 0x150 0x20 ⟨0, false⟩) = .next t ∧ Answered t 1 0x04 0) ∧
    (∃ t, exec (.adBypn 2) (decoder 31 0x200 0x180 ⟨0, false⟩) = .next t ∧ Answered t 1 0x04 0) ∧
    (∃ t, exec (.adBypu 2) (decoder 31 0x200 0x180 ⟨0, false⟩) = .next t ∧ Answered t 1 0x04 0) ∧
    (∃ t, exec (.rbDecode .chromaDC true true false false) (primed [0xFECFFFFF, 0xEFFFFFFF, 0xFFFFF800, 0] 60 26) =
      .next t ∧ Answered t 1 0x04 0) ∧
    ∃ t, exec .nop State.reset = .next t ∧ Answered t 0 0 0 :=
  ⟨answered_of_field (by decide +kernel), answered_of_field (by decide +kernel), answered_of_field (by decide +kernel),
    answered_of_field (by decide +kernel), answered_of_field (by decide +kernel), answered_of_field (by decide +kernel)⟩

theorem test_witness_RegistersChangeOnlyByTheirWriters :
    RegGroup.bitOffset ∉ writtenBy (.ctGet 5) ∧ RegGroup.interval ∉ writtenBy .adRealign ∧
    RegGroup.contexts ∉ writtenBy (.adBypn 5) ∧ ∃ t, exec (.ctGet 5) (primed [0] 9 26) = .next t :=
  ⟨by decide, by decide, by decide, next_of_seen (by decide +kernel)⟩

theorem test_witness_AfterResetOnlySixCommandsAreAdmitted :
    State.reset.phase = .idle ∧ State.reset.cursorValid = false ∧ State.reset.ctxValid = false ∧
    State.reset.outValid = false ∧ (Instr.bcPeek 32).wellFormed = true := ⟨rfl, rfl, rfl, rfl, by decide⟩

/-- 160 valid bits in six words leave exactly one spare word. -/
theorem test_witness_SpareWordLeavesNothingToDraw :
    let s := decoder 160 0x150 0x20 ⟨0, false⟩
    PhaseHasCursor s ∧ CursorInBounds s ∧ s.bufRewritten = false ∧
    s.maxBitOffset.toNat + 32 ≤ 32 * s.params.bufWords ∧ ∃ t, exec (.adBin 7) s = .next t :=
  ⟨fun _ => rfl, fun _ => by decide, rfl, by decide, next_of_seen (by decide +kernel)⟩

/-- Values that differ in their read-ahead bits, for a regular, a terminal and a bypass bin; and a bypass bin at z = 23. -/
theorem test_witness_SymbolsIgnoreTheReadAhead :
    let s := decoder 128 0xFF000000 0xB8000000 ⟨10, true⟩
    RangeAligned s.range ∧ transWf s.params ∧
    s.value >>> (23 - clz32 s.range) = (0xB87FFFFF : Word) >>> (23 - clz32 s.range) ∧
    s.value >>> (22 - clz32 s.range) = (0xB83FFFFF : Word) >>> (22 - clz32 s.range) ∧
    (∃ t, exec (.adBin 7) s = .next t) ∧ (∃ t, exec (.adBin 7) { s with value := 0xB87FFFFF } = .next t) ∧
    (∃ t, exec .adTerm s = .next t) ∧ (∃ t, exec .adTerm { s with value := 0xB87FFFFF } = .next t) ∧
    (∃ t, exec .adByp s = .next t) ∧ (∃ t, exec .adByp { s with value := 0xB83FFFFF } = .next t) ∧
    RangeAligned 0x1FF ∧ ∃ t, exec .adByp (decoder 128 0x1FF 0x100 ⟨0, false⟩) = .next t :=
  ⟨by unfold RangeAligned; decide, by unfold transWf; decide +kernel, by decide, by decide,
    next_of_seen (by decide +kernel), next_of_seen (by decide +kernel), next_of_seen (by decide +kernel),
    next_of_seen (by decide +kernel), next_of_seen (by decide +kernel), next_of_seen (by decide +kernel),
    by unfold RangeAligned; decide, next_of_seen (by decide +kernel)⟩

/-- Category 5 with `inferred_cbf = 0` under `CTXMAP_H264`; tables with an index of exactly 460. -/
theorem test_witness_RbDecodeChecksItsIndices :
    let s := primed [0xFEFC0000, 0] 14 26
    Active s ∧ s.ctxValid = true ∧ cbfCtx s.params.ctxMap .luma8x8 false false = none ∧
    460 ≤ ({ s.params.ctxMap with absBase := Vector.replicate 6 451 } : CtxMap).absBase[catIndex .luma4x4] + 9 ∧
    (cbfCtx { s.params.ctxMap with cbfBase := Vector.replicate 6 (some 460) } .luma4x4 false false = some 460 ∧
      460 ≤ 460) ∧
    ((scanBounds .luma4x4).1 ≤ 14 ∧ 14 < (scanBounds .luma4x4).2 ∧
      460 ≤ sigCtx { s.params.ctxMap with sigBase := Vector.replicate 2 (Vector.replicate 6 446) } .luma4x4 false 14) ∧
    460 ≤ lastCtx { s.params.ctxMap with lastBase := Vector.replicate 2 (Vector.replicate 6 446) } .luma4x4 true 14 := by
  refine ⟨.inl rfl, rfl, ?_⟩
  decide +kernel

theorem test_witness_RbDecodeCompletes :
    let s := primed [0] (9 + 32 * 3647) 26
    Active s ∧ s.ctxValid = true ∧ blockIndicesOk s.params.ctxMap .luma8x8 true true true true = true ∧
    blockIndicesOk s.params.ctxMap .chromaDC true true true false = true ∧
    s.bitOffset.toNat + 32 * 3647 ≤ s.maxBitOffset.toNat := by
  refine ⟨.inl rfl, rfl, ?_⟩
  decide +kernel

theorem test_witness_RbDecodeOutputsAreConsistent :
    ∃ t, exec (.rbDecode .luma4x4 false false false false) (primed [0xF721F907, 0x5259BA8F, 0x2D800000, 0] 73 26) =
      .next t ∧ Answered t 0 0 0x301 := answered_of_seen test_rbDecode.1

/-- RB-1: the one bin is that of context 93. -/
theorem test_witness_RbDecodeOfAnEmptyBlock :
    let s := primed [0xFEFC0000, 0] 14 26
    blockIndicesOk s.params.ctxMap .luma4x4 false false false false = true ∧
    cbfCtx s.params.ctxMap .luma4x4 false false = some (93 : BitVec 16).toNat ∧
    ∃ u, exec (.adBin 93) s = .next u ∧ Answered u 0 0 0 :=
  ⟨by decide +kernel, by decide +kernel, answered_of_field (by decide +kernel)⟩

/-- The first bin already needs 24 bits, and none is left. -/
theorem test_witness_RbDecodeFailureHidesTheOutputs :
    ∃ t, exec (.rbDecode .chromaDC true true false false) (decoder 9 0x150 0x20 ⟨0, false⟩) = .next t ∧
      Answered t 1 0x04 0 := answered_of_field (by decide +kernel)

/-- RB-2 (an escaped level) and what its bins say (96_test_vectors_families.md section 3.5). -/
theorem test_witness_RbDecodeIsASequenceOfBins :
    (∃ t, exec (.rbDecode .chromaDC true true false false) (primed [0xFECFFFFF, 0xEFFFFFFF, 0xFFFFF800, 0] 85 26) =
      .next t ∧ Answered t 0 0 0x101) ∧
    blockOf .chromaDC false (List.replicate 58 true) = some (some ([0], [-2097165])) ∧
    blockOf .luma4x4 false [true, true, false, true, false, false, true, true, false, false, false, true, true, true,
      false, false] = some (some ([0, 1, 3], [1, -1, 3])) :=
  ⟨answered_of_seen test_rbDecode_escape.1, by decide +kernel, by decide +kernel⟩

/-- The smallest and the largest escaped magnitude. -/
theorem test_witness_EscapedMagnitudesCombineRunAndBits :
    (∃ u, bypassUnary 20 0 (decoder 128 0xFF000000 0 ⟨0, false⟩) = .ok 0 u) ∧
    1 ≤ (2097165 : Word).toNat ∧ (2097165 : Word).toNat ≤ 2097165 := ⟨⟨_, rfl⟩, by decide, by decide⟩

end Sys2Proof.Tests
end

/-! Bit reads of BUF (20_memory.md): what each bit of a field is, for every read of up to 32 bits. -/

namespace Sys2Proof.Machine

@[simp] theorem bitWord_getLsbD (b : Bool) (i : Nat) : (bitWord b).getLsbD i = (decide (i = 0) && b) := by
  cases i <;> simp [bitWord, BitVec.getLsbD_setWidth]

/-- 20_memory.md R64: the last bit read is bit 0, each earlier one is one place up, and nothing is above the first. -/
theorem bitsAt_getLsbD (s : State) (p : Nat) {n : Nat} (hn : n ≤ 32) (i : Nat) :
    (bitsAt s p n).getLsbD i = (decide (i < n) && bitAt s (p + (n - 1 - i)) (n - 1 - i)) := by
  induction n generalizing i with
  | zero => simp [bitsAt]
  | succ n ih =>
    rw [bitsAt, BitVec.getLsbD_or, BitVec.getLsbD_shiftLeft, bitWord_getLsbD]
    cases i with
    | zero => simp
    | succ i =>
      rw [Nat.add_sub_cancel, ih (by omega), show n + 1 - 1 - (i + 1) = n - 1 - i by omega]
      by_cases hi : i < n
      · simp [hi, show i + 1 < 32 by omega]
      · simp [hi]

/-- 20_memory.md R62: where the host kept 70_reset_and_hazards.md R313, a position inside BUF reads the bit of its
word. -/
theorem bitAt_of_lt {s : State} {p : Nat} (hr : s.bufRewritten = false) (hp : p < 32 * s.params.bufWords) (k : Nat) :
    bitAt s p k = (bufWord s (p / 32)).getLsbD (31 - p % 32) := by
  simp [bitAt, bitStored, hr, hp]

/-- The j-th position from p inside BUF is bit 63 - s - j (s = p mod 32) of the word of p followed by the next word,
which matters only to a position that is in it. -/
theorem bitAt_eq_wordPair {s : State} {p j : Nat} {w1 : Word} (hr : s.bufRewritten = false)
    (hp : p + j < 32 * s.params.bufWords) (hj : j < 32)
    (hw : 32 ≤ p % 32 + j → w1 = bufWord s (p / 32 + 1)) (k : Nat) :
    bitAt s (p + j) k = (bufWord s (p / 32) ++ w1).getLsbD (63 - p % 32 - j) := by
  rw [bitAt_of_lt hr hp, BitVec.getLsbD_append]
  by_cases h : p % 32 + j < 32
  · rw [if_neg (by omega), show (p + j) / 32 = p / 32 by omega,
      show 31 - (p + j) % 32 = 63 - p % 32 - j - 32 by omega]
  · rw [if_pos (by omega), hw (by omega), show (p + j) / 32 = p / 32 + 1 by omega,
      show 31 - (p + j) % 32 = 63 - p % 32 - j by omega]

/-- The word-level form of 20_memory.md R64. -/
theorem bitsAt_eq_wordPair {s : State} {p n : Nat} {w1 : Word} (hn : n ≤ 32) (hr : s.bufRewritten = false)
    (hp : p + n ≤ 32 * s.params.bufWords) (hw : ¬ n ≤ 32 - p % 32 → w1 = bufWord s (p / 32 + 1)) :
    bitsAt s p n = ((bufWord s (p / 32) ++ w1).extractLsb' (64 - p % 32 - n) n).setWidth 32 := by
  apply BitVec.eq_of_getLsbD_eq
  intro i hi
  rw [bitsAt_getLsbD s p hn, BitVec.getLsbD_setWidth, BitVec.getLsbD_extractLsb']
  by_cases h : i < n
  · have hbit := bitAt_eq_wordPair (j := n - 1 - i) hr (by omega) (by omega) (fun _ => hw (by omega)) (n - 1 - i)
    rw [hbit, show 63 - p % 32 - (n - 1 - i) = 64 - p % 32 - n + i by omega]
    simp [hi]
  · simp [h]

end Sys2Proof.Machine

namespace Sys2Proof.Proofs

open Sys2Proof.Machine

/-- Settles O24: both bit clauses read off `bitsAt_getLsbD`, the word-level form is `bitsAt_eq_wordPair`. -/
theorem bitsAtIsMsbFirst : Obligations.BitsAtIsMsbFirst := by
  intro s p n hn
  refine ⟨fun j hj => ?_, fun j hj => ?_, fun _ hr hp w1 _ hw => bitsAt_eq_wordPair hn hr hp hw⟩
  · rw [bitsAt_getLsbD s p hn, show n - 1 - (n - 1 - j) = j by omega]
    simp [show n - 1 - j < n by omega]
  · simp [bitsAt_getLsbD s p hn, Nat.not_lt.2 hj]

end Sys2Proof.Proofs

/-! The decoder's checks (30_encoding.md R101): an `op` without a row, then the reserved bits of a row as the mask of
its word. -/

namespace Sys2Proof

open Sys2Proof.Machine Sys2Proof.Claims Sys2Proof.Laws.TableRow

/-! ## Masks as fields -/

/-- The bits from k up are clear exactly where the field they form is 0. -/
theorem and_upperMask_eq_zero_iff {n : Nat} (x : BitVec n) (k : Nat) :
    x &&& (BitVec.allOnes n <<< k) = 0 ↔ x.extractLsb' k (n - k) = 0 := by
  constructor <;> intro h <;> apply BitVec.eq_of_getLsbD_eq <;> intro i hi
  · have hbit := congrArg (·.getLsbD (k + i)) h
    simpa [hi, show k + i < n by omega] using hbit
  · have hbit := congrArg (·.getLsbD (i - k)) h
    by_cases hk : i < k
    · simp [hk]
    · simpa [hi, hk, show i - k < n - k by omega, show i - k < n by omega, show k + (i - k) = i by omega] using hbit

theorem and_upperMask_beq_zero {n : Nat} (x : BitVec n) (k : Nat) :
    (x &&& (BitVec.allOnes n <<< k) == 0) = (x.extractLsb' k (n - k) == 0) := by
  rw [Bool.eq_iff_iff, beq_iff_eq, beq_iff_eq, and_upperMask_eq_zero_iff]

/-- A word is 0 exactly where its five fields are (30_encoding.md R92). -/
theorem formatC_eq_zero_iff (op a b c : Byte) (imm : Word) :
    formatC op a b c imm = 0 ↔ op = 0 ∧ a = 0 ∧ b = 0 ∧ c = 0 ∧ imm = 0 := by
  constructor
  · intro h
    refine ⟨?_, ?_, ?_, ?_, ?_⟩
    · rw [← opField_formatC op a b c imm, h]; rfl
    · rw [← aField_formatC op a b c imm, h]; rfl
    · rw [← bField_formatC op a b c imm, h]; rfl
    · rw [← cField_formatC op a b c imm, h]; rfl
    · rw [← immField_formatC op a b c imm, h]; rfl
  · rintro ⟨rfl, rfl, rfl, rfl, rfl⟩; rfl

/-- A mask that leaves `op` out is tested field by field. -/
theorem formatC_and_beq_zero {m : Word64} (hm : opField m = 0) (op a b c : Byte) (imm : Word) :
    (formatC op a b c imm &&& m == 0) =
      (a &&& aField m == 0 && b &&& bField m == 0 && c &&& cField m == 0 && imm &&& immField m == 0) := by
  rw [Bool.eq_iff_iff, ← formatC_fields m, formatC_and, beq_iff_eq, formatC_eq_zero_iff, formatC_fields, hm]
  simp [and_assoc]

/-! ## The decoder's checks -/

theorem checkRow_eq_ok_iff {z : Bool} {o : Option Instr} {i : Instr} :
    checkRow z o = .ok i ↔ z = true ∧ o = some i := by
  cases z <;> cases o <;> simp [checkRow]

/-- 30_encoding.md R96: an opcode outside the twenty has no row. -/
theorem decodeFields_of_not_mem_opcodes {op : Byte} (hop : op ∉ opcodes) (a b c : Byte) (imm : Word) :
    decodeFields op a b c imm = .error .undefinedOp := by
  have hnum : op.toNat ∉ opcodes.map BitVec.toNat := by
    rw [List.mem_map]
    rintro ⟨op', hmem, heq⟩
    exact hop (BitVec.eq_of_toNat_eq heq ▸ hmem)
  unfold decodeFields
  split
  case h_21 => rfl
  all_goals simp_all [opcodes]

/-- NOP comes from the row of opcode 0 alone, and every other field of that row is reserved (30_encoding.md R94). -/
theorem fields_eq_zero_of_decodeFields_eq_nop {op a b c : Byte} {imm : Word}
    (h : decodeFields op a b c imm = .ok .nop) : op = 0 ∧ a = 0 ∧ b = 0 ∧ c = 0 ∧ imm = 0 := by
  unfold decodeFields at h
  split at h
  case h_1 hop =>
    have hzero := (checkRow_eq_ok_iff.1 h).1
    simp only [Bool.and_eq_true, beq_iff_eq, and_assoc] at hzero
    exact ⟨BitVec.eq_of_toNat_eq hop, hzero⟩
  case h_21 => simp at h
  all_goals simp [checkRow_eq_ok_iff] at h

/-- 30_encoding.md R94, R97: the row of a defined opcode tests exactly the bits of its reserved mask. -/
theorem decodeFields_eq_checkRow_of_mem_reservedBits {row : Byte × Word64} (hrow : row ∈ reservedBits)
    (a b c : Byte) (imm : Word) :
    ∃ i, decodeFields row.1 a b c imm = checkRow (formatC row.1 a b c imm &&& row.2 == 0) i := by
  have byteFull (x : Byte) : x &&& 0xFF#8 = x := BitVec.and_allOnes
  have wordFull (x : Word) : x &&& 0xFFFFFFFF#32 = x := BitVec.and_allOnes
  have highNibble (x : Byte) : (x &&& 0xF0#8 == 0#8) = (x.extractLsb' 4 4 == 0#4) := and_upperMask_beq_zero x 4
  have highHalf (x : Word) : (x &&& 0xFFFF0000#32 == 0#32) = (x.extractLsb' 16 16 == 0#16) :=
    and_upperMask_beq_zero x 16
  have allButBitZero (x : Word) : (x &&& 0xFFFFFFFE#32 == 0#32) = (x.extractLsb' 1 31 == 0#31) :=
    and_upperMask_beq_zero x 1
  simp only [reservedBits, List.mem_cons, List.not_mem_nil, or_false] at hrow
  rcases hrow with rfl | rfl | rfl | rfl | rfl | rfl | rfl | rfl | rfl | rfl | rfl | rfl | rfl | rfl | rfl | rfl | rfl |
    rfl | rfl | rfl
  all_goals
    rw [formatC_and_beq_zero (by decide)]
    simp [decodeFields, aField, bField, cField, immField, byteFull, wordFull, highNibble, highHalf, allButBitZero]

theorem decode_eq_checkRow_of_mem_reservedBits {row : Byte × Word64} (hrow : row ∈ reservedBits) {w : Word64}
    (hop : opField w = row.1) : ∃ i, decode w = checkRow (w &&& row.2 == 0) i := by
  have h := decodeFields_eq_checkRow_of_mem_reservedBits hrow (aField w) (bField w) (cField w) (immField w)
  rwa [← hop, formatC_fields] at h

/-- A word that decodes to nothing is refused with its information byte; only the record of the error changes
(30_encoding.md R96, R97, R98). -/
theorem runCommand_of_decode_eq_error {w : Word64} {d : DecodeError} (h : decode w = .error d)
    (s : Machine.State) : runCommand w s = .next (refusedWith 4 (illegalInfo d) s) := by
  simp only [runCommand, h]
  rfl

end Sys2Proof

namespace Sys2Proof.Proofs

open Sys2Proof.Machine Sys2Proof.Claims

/-- Settles O3: no row of the decoder for the opcode, and only the row of opcode 0 for NOP. -/
theorem undefinedOpcodeIsRefused : Obligations.UndefinedOpcodeIsRefused := by
  refine ⟨fun w s hop => runCommand_of_decode_eq_error (decodeFields_of_not_mem_opcodes hop _ _ _ _) s, fun w h => ?_⟩
  rw [← formatC_fields w, formatC_eq_zero_iff]
  exact fields_eq_zero_of_decodeFields_eq_nop h

/-- Settles O4: the row's check is that of the mask, and it comes before the operand ranges. -/
theorem reservedBitsMustBeZero : Obligations.ReservedBitsMustBeZero := by
  intro row w s hrow hop hbit
  obtain ⟨i, hdec⟩ := decode_eq_checkRow_of_mem_reservedBits hrow hop
  have hfail : decode w = .error .reservedNonzero := by rw [hdec, beq_false_of_ne hbit]; rfl
  exact runCommand_of_decode_eq_error hfail s

end Sys2Proof.Proofs

/-! The cursor's commands (40_bitcursor.md): how a command ends in the spec's words, and BC.FLUSH in each branch of
`Advance`. -/

namespace Sys2Proof.Machine

open Sys2Proof.Claims

/-! ## How a command ends, in the spec's words -/

/-- 30_encoding.md R93: an OK response is its result under 32 zero bits. -/
theorem complete_eq_okWith (v : Word) (s : State) : complete v s = okWith v s := rfl

/-- 60_exceptions.md R273, R280: an error that does not abort the unit leaves `phase`. -/
theorem raiseError_eq_refusedWith {e : CmdError} (he : abortsUnit e = false) (s : State) :
    raiseError e s = refusedWith (statusCode e.status) e.info s := by
  simp [raiseError, refusedWith, responseWord, he]

theorem consumeAdmitted_eq_true_iff {s : State} :
    consumeAdmitted s = true ↔ s.cursorValid = true ∧ Inactive s := by
  simp [consumeAdmitted, Inactive]

/-! ## BC.FLUSH -/

theorem moveCursor_toNat (n : Word) (s : State) :
    moveCursor s n.toNat = { s with bitOffset := s.bitOffset + n } := by
  simp [moveCursor]

/-- An admitted BC.FLUSH is `Advance(n, 0x02)` (40_bitcursor.md R126). -/
theorem exec_bcFlush_of_admitted {s : State} (ha : consumeAdmitted s = true) (n : Word) :
    exec (.bcFlush n) s = answer ((advance n.toNat 0x02 s).bind fun _ t => .ok 0 t) := gated_true ha

theorem exec_bcFlush_of_fits {s : State} {n : Word} (ha : consumeAdmitted s = true)
    (hf : s.bitOffset.toNat + n.toNat ≤ s.maxBitOffset.toNat) :
    exec (.bcFlush n) s = .next (okWith 0 { s with bitOffset := s.bitOffset + n }) := by
  rw [exec_bcFlush_of_admitted ha]
  rcases advance_cases n.toNat 0x02 s with ⟨-, hadv⟩ | ⟨hover, -⟩
  · rw [hadv, Res.bind_ok, answer_ok, moveCursor_toNat, complete_eq_okWith]
  · omega

theorem exec_bcFlush_of_exhausted {s : State} {n : Word} (ha : consumeAdmitted s = true)
    (hf : s.maxBitOffset.toNat < s.bitOffset.toNat + n.toNat) :
    exec (.bcFlush n) s = .next (refusedWith 1 0x02 s) := by
  rw [exec_bcFlush_of_admitted ha]
  rcases advance_cases n.toNat 0x02 s with ⟨hfits, -⟩ | ⟨-, hadv⟩
  · omega
  · rw [hadv, Res.bind_err, answer_err, raiseError_eq_refusedWith rfl]
    rfl

end Sys2Proof.Machine

namespace Sys2Proof.Proofs

open Sys2Proof.Machine

/-- Settles O22: the two branches of `Advance`, site 0x02 not being one that aborts the unit. -/
theorem bcFlushMovesTheCursor : Obligations.BcFlushMovesTheCursor := by
  intro s n hcursor hphase
  have hadm : consumeAdmitted s = true := consumeAdmitted_eq_true_iff.2 ⟨hcursor, hphase⟩
  exact ⟨exec_bcFlush_of_fits hadm, exec_bcFlush_of_exhausted hadm⟩

end Sys2Proof.Proofs

/-! The context table's commands (41_context_table.md): the checks of CT.INIT in order, what it leaves in each case,
and the packed entry of CT.GET. -/

namespace Sys2Proof.Machine

open Sys2Proof.Claims

/-- 60_exceptions.md R281: the response to a refused command is not that of an OK with result 0. -/
theorem refusedWith_response_ne_zero {code : Byte} (hcode : code ≠ 0) (info : Byte) (s : State) :
    (refusedWith code info s).response ≠ some 0 := by
  intro h
  have hword : 0#16 ++ info ++ code ++ 0#32 = 0#64 := Option.some.inj h
  have hfield := congrArg (BitVec.extractLsb' 32 8) hword
  rw [BitVec.extractLsb'_append_eq_of_le (by omega), BitVec.extractLsb'_append_eq_right] at hfield
  exact hcode hfield

/-! ## CT.INIT -/

theorem initOperandError_of_class {s : State} {cl ip qp : Byte} (hcl : 3 ≤ cl.toNat) :
    initOperandError s cl ip qp = some ⟨.invalidUnitParameters, 0x11⟩ := if_pos hcl

theorem initOperandError_of_init {s : State} {cl ip qp : Byte} (hcl : cl.toNat < 3)
    (hip : s.params.nInitParam ≤ ip.toNat) :
    initOperandError s cl ip qp = some ⟨.invalidUnitParameters, 0x12⟩ :=
  (if_neg (Nat.not_le.2 hcl)).trans (if_pos hip)

theorem initOperandError_of_quant {s : State} {cl ip qp : Byte} (hcl : cl.toNat < 3)
    (hip : ip.toNat < s.params.nInitParam) (hqp : 51 < qp.toNat) :
    initOperandError s cl ip qp = some ⟨.invalidUnitParameters, 0x13⟩ :=
  (if_neg (Nat.not_le.2 hcl)).trans ((if_neg (Nat.not_le.2 hip)).trans (if_pos hqp))

theorem initOperandError_of_inDomain {s : State} {cl ip qp : Byte} (hcl : cl.toNat < 3)
    (hip : ip.toNat < s.params.nInitParam) (hqp : qp.toNat ≤ 51) : initOperandError s cl ip qp = none :=
  (if_neg (Nat.not_le.2 hcl)).trans ((if_neg (Nat.not_le.2 hip)).trans (if_neg (Nat.not_lt.2 hqp)))

theorem initOperandError_status {s : State} {cl ip qp : Byte} {e : CmdError}
    (he : initOperandError s cl ip qp = some e) : e.status = .invalidUnitParameters := by
  unfold initOperandError at he
  split_ifs at he <;> cases he <;> rfl

/-- 10_state.md R35: the four fields of UNITCFG as digits, where neither operand that is cut loses a bit. -/
theorem packUnitCfg_eq_ofNat {cl qp : Byte} (hcl : cl.toNat < 4) (hqp : qp.toNat < 64) (ip : Byte) (aux : Bool) :
    packUnitCfg cl ip qp aux =
      BitVec.ofNat 17 (cl.toNat + ip.toNat * 2 ^ 2 + qp.toNat * 2 ^ 10 + aux.toNat * 2 ^ 16) := by
  apply BitVec.eq_of_toNat_eq
  have haux : aux.toNat < 2 := aux.toNat_lt
  have hip := ip.isLt
  simp only [packUnitCfg, BitVec.toNat_append, BitVec.toNat_ofBool, BitVec.extractLsb'_toNat, Nat.shiftRight_zero,
    BitVec.toNat_ofNat]
  rw [Nat.mod_eq_of_lt (show cl.toNat < 2 ^ 2 by omega), Nat.mod_eq_of_lt (show qp.toNat < 2 ^ 6 by omega),
    ← Nat.shiftLeft_add_eq_or_of_lt (by omega), ← Nat.shiftLeft_add_eq_or_of_lt (by omega),
    ← Nat.shiftLeft_add_eq_or_of_lt (by omega)]
  simp only [Nat.shiftLeft_eq]
  omega

theorem exec_ctInit_of_inDomain {s : State} {cl ip qp : Byte} (he : initOperandError s cl ip qp = none) (aux : Bool) :
    exec (.ctInit cl ip qp aux) s = .next (okWith 0 { s with
      ctx := ctxInit s.params ⟨cl, ip, aux, qp⟩
      unitCfg := packUnitCfg cl ip qp aux
      ctxValid := true }) := by
  simp only [exec, execCtInit, he, complete_eq_okWith]

/-- InvalidUnitParameters does not abort the unit (60_exceptions.md R273). -/
theorem exec_ctInit_of_operandError {s : State} {cl ip qp : Byte} {e : CmdError}
    (he : initOperandError s cl ip qp = some e) (aux : Bool) :
    exec (.ctInit cl ip qp aux) s = .next (refusedWith 2 e.info s) := by
  have hstatus := initOperandError_status he
  have hkeep : abortsUnit e = false := by rw [abortsUnit, hstatus]; rfl
  simp only [exec, execCtInit, he, refuse]
  rw [raiseError_eq_refusedWith hkeep, hstatus]
  rfl

/-- The checks read the operands and the parameters alone. -/
theorem initOperandError_eq_of_params {s s' : State} (hparams : s'.params = s.params) (cl ip qp : Byte) :
    initOperandError s' cl ip qp = initOperandError s cl ip qp := by
  simp only [initOperandError, hparams]

theorem initOperandError_eq_none_of_ok {s t : State} {cl ip qp : Byte} {aux : Bool}
    (h : exec (.ctInit cl ip qp aux) s = .next t) (hok : t.response = some 0) :
    initOperandError s cl ip qp = none := by
  cases he : initOperandError s cl ip qp with
  | none => rfl
  | some e =>
    rw [exec_ctInit_of_operandError he] at h
    cases h
    exact absurd hok (refusedWith_response_ne_zero (by decide) _ s)

/-- The table an OK leaves is `CTX_INIT` at the operands, whatever stood there (41_context_table.md R154). -/
theorem ctx_of_exec_ctInit {s t : State} {cl ip qp : Byte} {aux : Bool} (he : initOperandError s cl ip qp = none)
    (h : exec (.ctInit cl ip qp aux) s = .next t) : t.ctx = ctxInit s.params ⟨cl, ip, aux, qp⟩ := by
  rw [exec_ctInit_of_inDomain he] at h
  cases h
  rfl

/-! ## CT.GET -/

theorem ctxRef_of_lt {idx : Nat} (hidx : idx < 460) (site : Byte) (s : State) :
    ctxRef idx site s = .ok s.ctx[idx] := dif_pos hidx

theorem ctxRef_of_ge {idx : Nat} (hidx : 460 ≤ idx) (site : Byte) (s : State) :
    ctxRef idx site s = .error ⟨.logicInvariantViolation, site⟩ := dif_neg (Nat.not_lt.2 hidx)

/-- 41_context_table.md R161: the packed entry under 25 zero bits. -/
theorem packEntry_setWidth (e : ContextEntry) :
    (packEntry e).setWidth 32 = 0#25 ++ BitVec.ofBool e.mps ++ e.stateIndex := by
  rw [packEntry, BitVec.setWidth_eq_append (by decide), BitVec.append_assoc]

theorem exec_ctGet_of_lt {s : State} (hctx : s.ctxValid = true) {idx : BitVec 16} (hidx : idx.toNat < 460) :
    exec (.ctGet idx) s = .next (okWith ((packEntry s.ctx[idx.toNat]).setWidth 32) s) := by
  simp only [exec, execCtGet, gated_true hctx, ctxRef_of_lt hidx, complete_eq_okWith]

theorem exec_ctGet_of_ge {s : State} (hctx : s.ctxValid = true) {idx : BitVec 16} (hidx : 460 ≤ idx.toNat) :
    exec (.ctGet idx) s = .next (refusedWith 3 0x20 s) := by
  simp only [exec, execCtGet, gated_true hctx, ctxRef_of_ge hidx, refuse]
  rw [raiseError_eq_refusedWith rfl]
  rfl

end Sys2Proof.Machine

namespace Sys2Proof.Proofs

open Sys2Proof.Machine

/-- Settles O28: one check fails or none does, and the table an OK leaves is named by the parameters and the operands
alone. -/
theorem ctInitOverwritesTheTable : Obligations.CtInitOverwritesTheTable := by
  refine ⟨fun s cl ip qp aux => ⟨fun hcl hip hqp => ?_, fun hcl => ?_, fun hcl hip => ?_, fun hcl hip hqp => ?_⟩, ?_⟩
  · rw [exec_ctInit_of_inDomain (initOperandError_of_inDomain hcl hip hqp),
      packUnitCfg_eq_ofNat (by omega) (by omega)]
  · exact exec_ctInit_of_operandError (initOperandError_of_class hcl) aux
  · exact exec_ctInit_of_operandError (initOperandError_of_init hcl hip) aux
  · exact exec_ctInit_of_operandError (initOperandError_of_quant hcl hip hqp) aux
  · intro s s' t t' cl ip qp aux hparams ht ht' hok
    have he := initOperandError_eq_none_of_ok ht hok
    have he' := (initOperandError_eq_of_params hparams cl ip qp).trans he
    rw [ctx_of_exec_ctInit he' ht', ctx_of_exec_ctInit he ht, hparams]

/-- Settles O29: the two outcomes of `CtxRef`, the entry in its packed form. -/
theorem ctGetReturnsTheEntry : Obligations.CtGetReturnsTheEntry := by
  intro s idx hctx
  refine ⟨fun hidx => ?_, exec_ctGet_of_ge hctx⟩
  rw [exec_ctGet_of_lt hctx hidx, packEntry_setWidth]

end Sys2Proof.Proofs

/-! The arithmetic decoder's commands (42_arithmetic_decoder.md): renormalisation in each of its three outcomes, what
each command leaves in each case, and what a regular bin does to its entry. -/

namespace Sys2Proof.Machine

open Sys2Proof.Claims

/-! ## How a bin command is admitted and ends -/

theorem phaseActive_eq_true_iff {s : State} : phaseActive s = true ↔ Active s := by
  simp [phaseActive, Active]

theorem contextBinAdmitted_eq_true_iff {s : State} :
    contextBinAdmitted s = true ↔ Active s ∧ s.ctxValid = true := by
  rw [contextBinAdmitted, Bool.and_eq_true, phaseActive_eq_true_iff]

/-- 60_exceptions.md R273 grade (b), R280: an error that aborts the unit also sets `phase`. -/
theorem raiseError_eq_abortedWith {e : CmdError} (he : abortsUnit e = true) (s : State) :
    raiseError e s = abortedWith e.info s := by
  have hstatus : e.status = .bufferExhausted := by simp_all [abortsUnit]
  simp [raiseError, abortedWith, refusedWith, responseWord, statusCode, he, hstatus]

theorem bitWord_eq_ite (b : Bool) : bitWord b = if b then 1 else 0 := by cases b <;> rfl

/-! ## Renormalisation -/

/-- What a renormalisation that fits hands on (42_arithmetic_decoder.md R180). -/
def renormalised (rng val : Word) (s : State) : Interval :=
  ⟨rng <<< clz32 rng, val <<< clz32 rng ||| bitsAt s (s.bitOffset.toNat + 23) (clz32 rng), clz32 rng,
    drawsAfter s (s.bitOffset.toNat + 23) (clz32 rng)⟩

theorem renormBelow_of_ge {th rng : Word} (h : th.toNat ≤ rng.toNat) (val : Word) (s : State) :
    renormBelow th rng val s = .ok ⟨rng, val, 0, s.draws⟩ := if_neg (Nat.not_lt.2 h)

theorem renormBelow_of_fits {th rng : Word} {s : State} (h : rng.toNat < th.toNat)
    (hf : s.bitOffset.toNat + clz32 rng ≤ s.maxBitOffset.toNat) (val : Word) :
    renormBelow th rng val s = .ok (renormalised rng val s) :=
  (if_pos h).trans (if_pos (decide_eq_true hf))

theorem renormBelow_of_exhausted {th rng : Word} {s : State} (h : rng.toNat < th.toNat)
    (hf : s.maxBitOffset.toNat < s.bitOffset.toNat + clz32 rng) (val : Word) :
    renormBelow th rng val s = .error (exhausted 0x04) :=
  (if_pos h).trans (if_neg fun hc => Nat.not_le.2 hf (of_decide_eq_true hc))

/-- Where nothing was renormalised the cursor and the draws stay. -/
theorem commit_unmoved (rng val : Word) (s : State) :
    commit ⟨rng, val, 0, s.draws⟩ s = { s with range := rng, value := val } := by
  simp [commit]

/-! ## AD.INIT and AD.REALIGN -/

theorem exec_adInit_of_fits {s : State} (hc : s.cursorValid = true)
    (hf : s.bitOffset.toNat + 9 ≤ s.maxBitOffset.toNat) :
    exec .adInit s = .next (okWith 0 { s with
      range := 0xFF000000
      value := bitsAt s s.bitOffset.toNat 32
      bitOffset := s.bitOffset + 9
      phase := .ready
      draws := drawsAfter s s.bitOffset.toNat 32 }) := by
  have hfits : cursorFits s initFlush = true := decide_eq_true hf
  simp only [exec, execAdInit, gated_true hc, hfits, if_true, answer_ok]
  rfl

theorem exec_adInit_of_exhausted {s : State} (hc : s.cursorValid = true)
    (hf : s.maxBitOffset.toNat < s.bitOffset.toNat + 9) :
    exec .adInit s = .next (abortedWith 0x03 s) := by
  have hover : cursorFits s initFlush = false := decide_eq_false (Nat.not_le.2 hf)
  simp only [exec, execAdInit, gated_true hc, hover, Bool.false_eq_true, if_false, answer_err]
  rw [raiseError_eq_abortedWith rfl]
  rfl

/-- An admitted AD.REALIGN is `Advance(clz32(range), 0x05)` (42_arithmetic_decoder.md R183). -/
theorem exec_adRealign_of_terminated {s : State} (hp : s.phase = .terminated) :
    exec .adRealign s = answer ((advance (clz32 s.range) 0x05 s).bind fun _ t =>
      .ok (BitVec.ofNat 32 (clz32 s.range)) { t with phase := .idle }) := gated_true (beq_iff_eq.2 hp)

theorem exec_adRealign_of_fits {s : State} (hp : s.phase = .terminated)
    (hf : s.bitOffset.toNat + clz32 s.range ≤ s.maxBitOffset.toNat) :
    exec .adRealign s = .next (okWith (BitVec.ofNat 32 (clz32 s.range))
      { s with bitOffset := s.bitOffset + BitVec.ofNat 32 (clz32 s.range), phase := .idle }) := by
  rw [exec_adRealign_of_terminated hp]
  rcases advance_cases (clz32 s.range) 0x05 s with ⟨-, hadv⟩ | ⟨hover, -⟩
  · rw [hadv]
    rfl
  · omega

theorem exec_adRealign_of_exhausted {s : State} (hp : s.phase = .terminated)
    (hf : s.maxBitOffset.toNat < s.bitOffset.toNat + clz32 s.range) :
    exec .adRealign s = .next (abortedWith 0x05 s) := by
  rw [exec_adRealign_of_terminated hp]
  rcases advance_cases (clz32 s.range) 0x05 s with ⟨hfits, -⟩ | ⟨-, hadv⟩
  · omega
  · rw [hadv, Res.bind_err, answer_err, raiseError_eq_abortedWith rfl]
    rfl

/-! ## The regular bin -/

/-- 42_arithmetic_decoder.md R172, R176 steps 2 and 3: the index is `4 * state_index + q` with q bits 30:29 of the
left-aligned `range`. -/
theorem getElem?_trans_eq_transAt (p : Params) (st : BitVec 6) (range : Word) :
    p.trans[4 * st.toNat + ((range <<< clz32 range) >>> 29).toNat % 4]? = some (transAt p st (quantized range)) := by
  have hq : (quantized range).toNat = ((range <<< clz32 range) >>> 29).toNat % 4 := by
    rw [quantized, BitVec.extractLsb'_toNat, BitVec.toNat_ushiftRight]
  have hst := st.isLt
  have hidx : ((st.setWidth 8 <<< 2) ||| (quantized range).setWidth 8).toNat =
      4 * st.toNat + (quantized range).toNat := by
    rw [BitVec.toNat_or, BitVec.toNat_shiftLeft, BitVec.toNat_setWidth_of_le (by omega),
      BitVec.toNat_setWidth_of_le (by omega), Nat.shiftLeft_eq, Nat.mod_eq_of_lt (by omega), Nat.mul_comm,
      ← Nat.two_pow_add_eq_or_of_lt (quantized range).isLt]
  rw [← hq, Vector.getElem?_eq_some_iff]
  exact ⟨by omega, by simp only [transAt, hidx]⟩

/-- 42_arithmetic_decoder.md R176 steps 3 to 5 and R178, `taken` the LPS branch, where the scaling shift is one. -/
theorem regularBin_eq {p : Params} {e : ContextEntry} {range value : Word} {tr : TransEntry} {taken : Bool}
    (hz : clz32 range ≤ 23) (htr : transAt p e.stateIndex (quantized range) = tr)
    (htaken : taken = true ↔ range - tr.lps8.setWidth 32 <<< (23 - clz32 range) ≤ value) :
    regularBin p e range value =
      { sym := if taken then !e.mps else e.mps
        range := if taken then tr.lps8.setWidth 32 <<< (23 - clz32 range)
          else range - tr.lps8.setWidth 32 <<< (23 - clz32 range)
        value := if taken then value - (range - tr.lps8.setWidth 32 <<< (23 - clz32 range)) else value
        entry := if taken then ⟨tr.nextLps, if e.stateIndex = 0 then !e.mps else e.mps⟩
          else ⟨tr.nextMps, e.mps⟩ } := by
  simp only [regularBin, scaled, htr, if_pos hz, ← htaken]
  cases taken <;> rfl

/-- 42_arithmetic_decoder.md R178: the symbol alone says which successor the entry takes. -/
theorem regularBin_entry (p : Params) (e : ContextEntry) (range value : Word) :
    (regularBin p e range value).entry =
      if (regularBin p e range value).sym = e.mps then ⟨(transAt p e.stateIndex (quantized range)).nextMps, e.mps⟩
      else ⟨(transAt p e.stateIndex (quantized range)).nextLps, if e.stateIndex = 0 then !e.mps else e.mps⟩ := by
  simp only [regularBin]
  split <;> simp

theorem exec_adBin_of_ge {s : State} (ha : contextBinAdmitted s = true) {idx : BitVec 16} (hidx : 460 ≤ idx.toNat) :
    exec (.adBin idx) s = .next (refusedWith 3 0x20 s) := by
  simp only [exec, execAdBin, gated_true ha, decodeRegular, ctxRef_of_ge hidx, Res.bind_err, answer_err]
  rw [raiseError_eq_refusedWith rfl]
  rfl

theorem exec_adBin_of_ok {s : State} (ha : contextBinAdmitted s = true) {idx : BitVec 16} (hidx : idx.toNat < 460)
    {b : RegularBin} (hb : regularBin s.params s.ctx[idx.toNat] s.range s.value = b) {r : Interval}
    (hr : renormBelow renormT b.range b.value s = .ok r) :
    exec (.adBin idx) s =
      .next (okWith (if b.sym then 1 else 0) (setDecoding (setCtx idx.toNat b.entry (commit r s)))) := by
  simp only [exec, execAdBin, gated_true ha, decodeRegular, ctxRef_of_lt hidx, hb, hr, Res.bind_ok, answer_ok,
    bitWord_eq_ite, complete_eq_okWith]

theorem exec_adBin_of_exhausted {s : State} (ha : contextBinAdmitted s = true) {idx : BitVec 16}
    (hidx : idx.toNat < 460) {b : RegularBin} (hb : regularBin s.params s.ctx[idx.toNat] s.range s.value = b)
    (hr : renormBelow renormT b.range b.value s = .error (exhausted 0x04)) :
    exec (.adBin idx) s = .next (abortedWith 0x04 s) := by
  simp only [exec, execAdBin, gated_true ha, decodeRegular, ctxRef_of_lt hidx, hb, hr, Res.bind_err, answer_err]
  rw [raiseError_eq_abortedWith rfl]
  rfl

/-! ## The terminal bin -/

/-- An admitted AD.TERM is one terminal bin; the symbol 0 leads to DECODING (42_arithmetic_decoder.md R182). -/
theorem exec_adTerm_of_active {s : State} (ha : phaseActive s = true) :
    exec .adTerm s = answer ((decodeTerminal s).bind fun b t => .ok (bitWord b) (if b then t else setDecoding t)) :=
  gated_true ha

theorem exec_adTerm_of_le {s : State} (ha : phaseActive s = true) {rng : Word}
    (hrng : s.range - scaled termWidth (clz32 s.range) = rng) (hle : rng ≤ s.value) :
    exec .adTerm s = .next (okWith 1 { s with phase := .terminated }) := by
  rw [exec_adTerm_of_active ha, decodeTerminal, hrng, if_pos hle]
  rfl

theorem exec_adTerm_of_ok {s : State} (ha : phaseActive s = true) {rng : Word}
    (hrng : s.range - scaled termWidth (clz32 s.range) = rng) (hlt : s.value < rng) {r : Interval}
    (hr : renormBelow renormT rng s.value s = .ok r) :
    exec .adTerm s = .next (okWith 0 (setDecoding (commit r s))) := by
  rw [exec_adTerm_of_active ha, decodeTerminal, hrng, if_neg (BitVec.not_le.2 hlt), hr]
  rfl

theorem exec_adTerm_of_exhausted {s : State} (ha : phaseActive s = true) {rng : Word}
    (hrng : s.range - scaled termWidth (clz32 s.range) = rng) (hlt : s.value < rng)
    (hr : renormBelow renormT rng s.value s = .error (exhausted 0x04)) :
    exec .adTerm s = .next (abortedWith 0x04 s) := by
  rw [exec_adTerm_of_active ha, decodeTerminal, hrng, if_neg (BitVec.not_le.2 hlt), hr]
  exact congrArg _ (raiseError_eq_abortedWith rfl s)

/-! ## The bypass bin -/

/-- An admitted AD.BYP is one bypass bin (42_arithmetic_decoder.md R187). -/
theorem exec_adByp_of_active {s : State} (ha : phaseActive s = true) :
    exec .adByp s = answer ((decodeBypass s).bind fun b t => .ok (bitWord b) (setDecoding t)) := gated_true ha

theorem exec_adByp_of_ok {s : State} (ha : phaseActive s = true) {r : Interval}
    (hr : renormBelow bypassT s.range s.value s = .ok r) :
    exec .adByp s =
      if r.range.toNat / 2 ≤ r.value.toNat then
        .next (okWith 1 (setDecoding (commit { r with range := r.range >>> 1, value := r.value - r.range >>> 1 } s)))
      else .next (okWith 0 (setDecoding (commit { r with range := r.range >>> 1 } s))) := by
  have hhalf : r.range >>> 1 ≤ r.value ↔ r.range.toNat / 2 ≤ r.value.toNat := by
    rw [BitVec.le_def, BitVec.toNat_ushiftRight, Nat.shiftRight_eq_div_pow, Nat.pow_one]
  simp only [exec_adByp_of_active ha, decodeBypass, hr, hhalf]
  split <;> rfl

theorem exec_adByp_of_exhausted {s : State} (ha : phaseActive s = true)
    (hr : renormBelow bypassT s.range s.value s = .error (exhausted 0x04)) :
    exec .adByp s = .next (abortedWith 0x04 s) := by
  simp only [exec_adByp_of_active ha, decodeBypass, hr]
  exact congrArg _ (raiseError_eq_abortedWith rfl s)

/-! ## The contexts -/

/-- 30_encoding.md R93: the status byte of an OK is 0, that of an error is not. -/
theorem raiseError_response_ne_ok {e : CmdError} (he : e.status ≠ .ok) (s : State) (v : Word) :
    (raiseError e s).response ≠ some (0#32 ++ v) := by
  intro h
  have hword : 0#16 ++ e.info ++ statusCode e.status ++ 0#32 = 0#32 ++ v := Option.some.inj h
  have hfield := congrArg (BitVec.extractLsb' 32 8) hword
  rw [BitVec.extractLsb'_append_eq_of_le (by omega), BitVec.extractLsb'_append_eq_right,
    BitVec.extractLsb'_append_eq_of_le (by omega)] at hfield
  cases hs : e.status <;> simp_all [statusCode]

/-- 30_encoding.md R93: the result of an OK is the low word of its response. -/
theorem okWith_response_inj {v w : Word} {s : State} (h : (okWith v s).response = some (0#32 ++ w)) : v = w := by
  have hword : 0#32 ++ v = 0#32 ++ w := Option.some.inj h
  have hfield := congrArg (BitVec.extractLsb' 0 32) hword
  rwa [BitVec.extractLsb'_append_eq_right, BitVec.extractLsb'_append_eq_right] at hfield

/-- An AD.BIN answered OK with a symbol decoded that symbol. -/
theorem decodeRegular_of_exec_adBin {s t : State} {idx : BitVec 16} {sym : Bool}
    (h : exec (.adBin idx) s = .next t) (hok : t.response = some (if sym then 1 else 0)) :
    ∃ u, decodeRegular idx.toNat 0x20 s = .ok sym u ∧ t.ctx = u.ctx := by
  replace hok : t.response = some (0#32 ++ bitWord sym) := by rw [hok]; cases sym <;> rfl
  cases effect_of_exec h with
  | notAdmitted => exact absurd hok (raiseError_response_ne_ok (by simp [badState]) s _)
  | outOfRange => exact absurd hok (raiseError_response_ne_ok (by simp [illegal]) s _)
  | rejected _ e _ _ he =>
    obtain rfl := List.mem_singleton.1 he
    exact absurd hok (raiseError_response_ne_ok (by simp) s _)
  | adBinAborted => exact absurd hok (raiseError_response_ne_ok (by simp [exhausted]) s _)
  | adBin _ b u _ hdec =>
    have hbit : bitWord b = bitWord sym := okWith_response_inj hok
    have hsym : b = sym := by revert hbit; cases b <;> cases sym <;> decide
    exact ⟨u, hsym ▸ hdec, rfl⟩

/-- 42_arithmetic_decoder.md R176 step 7: a regular bin stores the next entry and touches no other. -/
theorem ctx_of_decodeRegular {s u : State} {idx : Nat} {site : Byte} {sym : Bool} (hidx : idx < 460)
    (h : decodeRegular idx site s = .ok sym u) :
    (regularBin s.params s.ctx[idx] s.range s.value).sym = sym ∧
      u.ctx = s.ctx.setIfInBounds idx (regularBin s.params s.ctx[idx] s.range s.value).entry := by
  rcases decodeRegular_cases idx site s with ⟨hge, -⟩ | ⟨_, ⟨r, -, e⟩ | ⟨-, e⟩⟩
  · omega
  · rw [e] at h
    cases h
    exact ⟨rfl, rfl⟩
  · rw [e] at h
    cases h

/-- A procedure touches no context entry, whether it ends with a value or an error. -/
def Res.KeepsCtx {α : Type} (s : State) (r : Res α) : Prop :=
  r.Post (fun _ t => t.ctx = s.ctx) (fun _ t => t.ctx = s.ctx)

theorem Res.KeepsCtx.bind {α β : Type} {s : State} {r : Res α} {f : α → State → Res β} (hr : r.KeepsCtx s)
    (hf : ∀ a t, (f a t).KeepsCtx t) : (r.bind f).KeepsCtx s :=
  Res.Post.bind hr fun a t ht => by rw [← ht]; exact hf a t

theorem keepsCtx_ok_setDecoding {α : Type} (a : α) (s : State) : (Res.ok a (setDecoding s)).KeepsCtx s := rfl

theorem decodeTerminal_keepsCtx (s : State) : (decodeTerminal s).KeepsCtx s := by
  rcases decodeTerminal_cases s with ⟨_, e⟩ | ⟨_, ⟨r, _, e⟩ | ⟨_, e⟩⟩ <;> rw [e] <;> rfl

theorem decodeBypass_keepsCtx (s : State) : (decodeBypass s).KeepsCtx s := by
  rcases decodeBypass_cases s with ⟨r, _, ⟨_, e⟩ | ⟨_, e⟩⟩ | ⟨_, e⟩ <;> rw [e] <;> rfl

theorem bypassBits_keepsCtx (n : Nat) (v : Word) (s : State) : (bypassBits n v s).KeepsCtx s := by
  induction n generalizing v s with
  | zero => rfl
  | succ n ih => exact (decodeBypass_keepsCtx s).bind fun b t => ih _ t

theorem bypassUnary_keepsCtx (n c : Nat) (s : State) : (bypassUnary n c s).KeepsCtx s := by
  induction n generalizing c s with
  | zero => rfl
  | succ n ih =>
    refine (decodeBypass_keepsCtx s).bind fun b t => ?_
    cases b with
    | false => rfl
    | true => exact ih (c + 1) t

/-- A command that is such a procedure, admitted or not, touches no context entry. -/
theorem ctx_of_gated_answer {c : Bool} {r : Res Word} {s t : State} (hr : r.KeepsCtx s)
    (h : gated c s (answer r) = .next t) : t.ctx = s.ctx := by
  cases c with
  | false => cases h; rfl
  | true =>
    cases r with
    | ok v u => cases h; exact hr
    | err e u => cases h; exact hr

theorem ctx_of_exec_adTerm {s t : State} (h : exec .adTerm s = .next t) : t.ctx = s.ctx :=
  ctx_of_gated_answer ((decodeTerminal_keepsCtx s).bind fun b t => by cases b <;> rfl) h

theorem ctx_of_exec_adByp {s t : State} (h : exec .adByp s = .next t) : t.ctx = s.ctx :=
  ctx_of_gated_answer ((decodeBypass_keepsCtx s).bind fun _ t => keepsCtx_ok_setDecoding _ t) h

theorem ctx_of_exec_adBypn {s t : State} {n : Byte} (h : exec (.adBypn n) s = .next t) : t.ctx = s.ctx := by
  by_cases hn : n.toNat ≤ 32
  · rw [exec, execAdBypn, inCountRange_of_le hn] at h
    exact ctx_of_gated_answer ((bypassBits_keepsCtx n.toNat 0 s).bind fun _ t => keepsCtx_ok_setDecoding _ t) h
  · rw [exec, execAdBypn, inCountRange_of_lt (Nat.not_le.1 hn)] at h
    cases h
    rfl

theorem ctx_of_exec_adBypu {s t : State} {max : Byte} (h : exec (.adBypu max) s = .next t) : t.ctx = s.ctx :=
  ctx_of_gated_answer ((bypassUnary_keepsCtx max.toNat 0 s).bind fun _ t => keepsCtx_ok_setDecoding _ t) h

end Sys2Proof.Machine

namespace Sys2Proof.Proofs

open Sys2Proof.Machine Sys2Proof.Claims

/-- Settles O31: the branch the value lies in is the record of `regularBin_eq`, and each outcome of renormalisation
gives one clause. -/
theorem adBinDecodesARegularBin : Obligations.AdBinDecodesARegularBin := by
  refine ⟨fun s idx hact hctx => exec_adBin_of_ge (contextBinAdmitted_eq_true_iff.2 ⟨hact, hctx⟩), ?_⟩
  intro s idx e tr taken sym rng val e' hact hctx hz he htr htaken hsym hrng hval hnext
  have ha : contextBinAdmitted s = true := contextBinAdmitted_eq_true_iff.2 ⟨hact, hctx⟩
  obtain ⟨hidx, rfl⟩ := Vector.getElem?_eq_some_iff.1 he
  have hat := Option.some.inj ((getElem?_trans_eq_transAt s.params s.ctx[idx.toNat].stateIndex s.range).symm.trans htr)
  have hb : regularBin s.params s.ctx[idx.toNat] s.range s.value = ⟨sym, rng, val, e'⟩ := by
    rw [regularBin_eq hz hat htaken, hsym, hrng, hval, hnext]
  refine ⟨fun hr => ?_, fun _ hr hf => ?_, fun _ hr hf => ?_⟩
  · rw [exec_adBin_of_ok ha hidx hb (renormBelow_of_ge (th := renormT) hr val s), commit_unmoved]
    rfl
  · rw [exec_adBin_of_ok ha hidx hb (renormBelow_of_fits hr hf val)]
    rfl
  · exact exec_adBin_of_exhausted ha hidx hb (renormBelow_of_exhausted hr hf val)

/-- Settles O32: an OK with a symbol stores the entry that `regularBin_entry` names; the other bins store none. -/
theorem contextsAdaptOncePerRegularBin : Obligations.ContextsAdaptOncePerRegularBin := by
  constructor
  · intro s t idx sym hidx hexec hok
    obtain ⟨u, hdec, htu⟩ := decodeRegular_of_exec_adBin hexec hok
    obtain ⟨hsym, hstore⟩ := ctx_of_decodeRegular hidx hdec
    rw [regularBin_entry, hsym] at hstore
    rw [htu, hstore]
    refine ⟨?_, ⟨_, getElem?_trans_eq_transAt s.params s.ctx[idx.toNat].stateIndex s.range, ?_⟩, fun j hj => ?_⟩
    · rw [Vector.getElem_setIfInBounds_self]
      by_cases hmps : sym = s.ctx[idx.toNat].mps
      · simp [hmps]
      · by_cases hzero : s.ctx[idx.toNat].stateIndex = 0 <;> simp [hmps, hzero]
    · rw [Vector.getElem_setIfInBounds_self]
      split_ifs <;> rfl
    · exact Vector.getElem_setIfInBounds_ne j.isLt (Ne.symm hj)
  · rintro s t n (h | h | h | h)
    · exact ctx_of_exec_adTerm h
    · exact ctx_of_exec_adByp h
    · exact ctx_of_exec_adBypn h
    · exact ctx_of_exec_adBypu h

/-- Settles O33: the value against the shrunk range, then the three outcomes of renormalisation. -/
theorem adTermDecodesATerminalBin : Obligations.AdTermDecodesATerminalBin := by
  intro s rng hact hz hrng
  have ha : phaseActive s = true := phaseActive_eq_true_iff.2 hact
  have hscaled : s.range - scaled termWidth (clz32 s.range) = rng := by
    rw [scaled, if_pos hz, hrng]
    rfl
  refine ⟨exec_adTerm_of_le ha hscaled, fun hlt hr => ?_, fun hlt hr hf => ?_, fun hlt hr hf => ?_⟩
  · rw [exec_adTerm_of_ok ha hscaled hlt (renormBelow_of_ge (th := renormT) hr s.value s), commit_unmoved]
    rfl
  · rw [exec_adTerm_of_ok ha hscaled hlt (renormBelow_of_fits hr hf s.value)]
    rfl
  · exact exec_adTerm_of_exhausted ha hscaled hlt (renormBelow_of_exhausted hr hf s.value)

/-- Settles O34: `exec_adByp_of_ok` with the pair as it is or renormalised. -/
theorem adBypDecodesABypassBin : Obligations.AdBypDecodesABypassBin := by
  intro s rng val off d hact _ hwide hnarrow
  have ha : phaseActive s = true := phaseActive_eq_true_iff.2 hact
  refine ⟨fun hfits => ?_, fun hr hf => exec_adByp_of_exhausted ha (renormBelow_of_exhausted hr hf s.value),
    fun hlo hhi => clz32_eq_of_bounds (by decide) hlo hhi⟩
  by_cases hr : 0x200 ≤ s.range.toNat
  · obtain ⟨rfl, rfl, rfl, rfl⟩ := hwide hr
    simp only [exec_adByp_of_ok ha (renormBelow_of_ge (th := bypassT) hr s.value s), commit_unmoved]
    rfl
  · have hlt : s.range.toNat < 0x200 := Nat.not_le.1 hr
    obtain ⟨rfl, rfl, rfl, rfl⟩ := hnarrow hlt
    exact exec_adByp_of_ok ha (renormBelow_of_fits hlt (hfits.resolve_left hr) s.value)

/-- Settles O30: the check of 9 more bits. -/
theorem adInitPrimesTheRegisters : Obligations.AdInitPrimesTheRegisters :=
  fun _ hcursor => ⟨exec_adInit_of_fits hcursor, exec_adInit_of_exhausted hcursor⟩

/-- Settles O38: the two branches of `Advance`. -/
theorem adRealignMovesToTheTruePosition : Obligations.AdRealignMovesToTheTruePosition :=
  fun _ hphase => ⟨exec_adRealign_of_fits hphase, exec_adRealign_of_exhausted hphase⟩

end Sys2Proof.Proofs

/-! The system commands (44_system.md): what exec of NOP leaves in every state, and the obligation of R260. -/

namespace Sys2Proof.Machine

/-- 44_system.md R260: no admission check and no operands, so NOP ends in the response of 0 in every state. -/
theorem exec_nop (s : State) : exec .nop s = .next (complete 0 s) := rfl

end Sys2Proof.Machine

namespace Sys2Proof.Proofs

open Sys2Proof.Machine

/-- Settles O17: NOP only completes with 0, and completing writes nothing but the OK response. -/
theorem nopChangesNothing : Obligations.NopChangesNothing := by
  intro s
  rw [exec_nop, complete_eq_okWith]

end Sys2Proof.Proofs

/-! The encoder against the decoder (30_encoding.md R92 to R98): each round trip, row by row, and the operands the
decoder's ranges leave out. -/

namespace Sys2Proof

open Sys2Proof.Machine Sys2Proof.Claims

/-! ## The two halves of `imm` -/

theorem setWidth_extractLow (x : BitVec 16) : (x.setWidth 32).extractLsb' 0 16 = x := by
  apply BitVec.eq_of_getLsbD_eq
  intro i hi
  simp [hi, show i < 32 by omega]

theorem setWidth_extractHigh (x : BitVec 16) : (x.setWidth 32).extractLsb' 16 16 = 0 := by
  apply BitVec.eq_of_getLsbD_eq
  intro i hi
  simp [hi]

/-- A word whose high half is 0 is its low half, widened. -/
theorem extractLow_setWidth {x : Word} (h : x.extractLsb' 16 16 = 0) : (x.extractLsb' 0 16).setWidth 32 = x := by
  apply BitVec.eq_of_getLsbD_eq
  intro i hi
  by_cases hlow : i < 16
  · simp [hlow, hi]
  · have hbit := congrArg (·.getLsbD (i - 16)) h
    simp [show i - 16 < 16 by omega, show 16 + (i - 16) = i by omega] at hbit
    simp [hlow, hbit]

/-! ## Flags -/

/-- A word that holds nothing but bit 0 is that bit. -/
theorem bitZero_eq {x : Word} (h : x.extractLsb' 1 31 = 0) : (if x.getLsbD 0 then 1 else 0) = x := by
  apply BitVec.eq_of_getLsbD_eq
  intro i hi
  cases i with
  | zero => cases hx : x.getLsbD 0 <;> simp
  | succ i =>
    have hbit := congrArg (·.getLsbD i) h
    simp [show i < 31 by omega, Nat.add_comm 1 i] at hbit
    rw [hbit]
    split <;> simp

/-- The four flags of RB.DECODE's field `b`, packed (30_encoding.md R94). -/
def blockFlags (left top fld inferred : Bool) : Byte :=
  flagAt left 0 ||| flagAt top 1 ||| flagAt fld 2 ||| flagAt inferred 3

theorem blockFlags_spec (left top fld inferred : Bool) :
    (blockFlags left top fld inferred).extractLsb' 4 4 = 0 ∧ (blockFlags left top fld inferred).getLsbD 0 = left ∧
    (blockFlags left top fld inferred).getLsbD 1 = top ∧ (blockFlags left top fld inferred).getLsbD 2 = fld ∧
    (blockFlags left top fld inferred).getLsbD 3 = inferred := by
  revert left top fld inferred
  decide

theorem blockFlags_of_highNibble {b : Byte} (h : b.extractLsb' 4 4 = 0) :
    blockFlags (b.getLsbD 0) (b.getLsbD 1) (b.getLsbD 2) (b.getLsbD 3) = b := by
  revert b
  decide

/-! ## Numbers of registers and categories -/

theorem regNumber_of_regOfNumber {n : BitVec 16} {r : Reg} (h : regOfNumber n = some r) : regNumber r = n := by
  apply BitVec.eq_of_toNat_eq
  unfold regOfNumber at h
  split at h
  case h_12 =>
    split at h
    · cases h
      simp only [regNumber, BitVec.toNat_ofNat]
      omega
    · cases h
  all_goals cases h; simp only [*]; rfl

theorem catNumber_of_catOfNumber {n : Byte} {c : BlockCat} (h : catOfNumber n = some c) : catNumber c = n := by
  apply BitVec.eq_of_toNat_eq
  unfold catOfNumber at h
  split at h
  case h_7 => cases h
  all_goals cases h; simp only [*]; rfl

theorem bitCount_eq_some_iff {n m : Byte} : bitCount n = some m ↔ n.toNat ≤ 32 ∧ n = m := by
  unfold bitCount
  split <;> simp [*]

/-! ## The round trips -/

/-- 30_encoding.md R92, R94: every row finds its own fields again. -/
theorem decode_encode {i : Instr} (hw : i.wellFormed = true) : decode (encode i) = .ok i := by
  cases i with
  | rdreg reg => simp [encode, decode_formatC, decodeFields, checkRow, setWidth_extractLow, setWidth_extractHigh]
  | ctGet idx => simp [encode, decode_formatC, decodeFields, checkRow, setWidth_extractLow, setWidth_extractHigh]
  | adBin idx => simp [encode, decode_formatC, decodeFields, checkRow, setWidth_extractLow, setWidth_extractHigh]
  | bcRdbits n =>
    have hn : bitCount n = some n := bitCount_eq_some_iff.2 ⟨of_decide_eq_true hw, rfl⟩
    simp [encode, decode_formatC, decodeFields, checkRow, hn]
  | bcPeek n =>
    have hn : bitCount n = some n := bitCount_eq_some_iff.2 ⟨of_decide_eq_true hw, rfl⟩
    simp [encode, decode_formatC, decodeFields, checkRow, hn]
  | adBypn n =>
    have hn : bitCount n = some n := bitCount_eq_some_iff.2 ⟨of_decide_eq_true hw, rfl⟩
    simp [encode, decode_formatC, decodeFields, checkRow, hn]
  | ctInit cl ip qp aux => cases aux <;> simp [encode, decode_formatC, decodeFields, checkRow]
  | rbDecode cat left top fld inferred =>
    obtain ⟨hhigh, h0, h1, h2, h3⟩ := blockFlags_spec left top fld inferred
    change decode (formatC 0x40 (catNumber cat) (blockFlags left top fld inferred) 0 0) = _
    simp [decode_formatC, decodeFields, checkRow, hhigh, -BitVec.getLsbD_eq_getElem, h0, h1, h2, h3]
  | _ => simp [encode, decode_formatC, decodeFields, checkRow]

theorem eq_ofNat_of_toNat_eq {x : Byte} {k : Nat} (h : x.toNat = k) : x = BitVec.ofNat 8 k := by simp [← h]

/-- 30_encoding.md R94, R97: a row accepts only the word its command is encoded to. -/
theorem formatC_of_decodeFields_eq_ok {op a b c : Byte} {imm : Word} {i : Instr}
    (h : decodeFields op a b c imm = .ok i) : i.wellFormed = true ∧ encode i = formatC op a b c imm := by
  unfold decodeFields at h
  split at h
  case h_21 => cases h
  all_goals
    rename_i hop
    obtain rfl := eq_ofNat_of_toNat_eq hop
    obtain ⟨hzero, hi⟩ := checkRow_eq_ok_iff.1 h
    simp only [Bool.and_eq_true, beq_iff_eq] at hzero
    simp only [Option.some.injEq, Option.map_eq_some_iff, bitCount_eq_some_iff] at hi
  case h_3 =>
    obtain ⟨⟨⟨rfl, rfl⟩, rfl⟩, hhigh⟩ := hzero
    obtain ⟨reg, hreg, rfl⟩ := hi
    refine ⟨rfl, ?_⟩
    rw [encode, regNumber_of_regOfNumber hreg, extractLow_setWidth hhigh]
    rfl
  case h_6 | h_7 | h_17 =>
    obtain ⟨⟨rfl, rfl⟩, rfl⟩ := hzero
    obtain ⟨n, ⟨hn, rfl⟩, rfl⟩ := hi
    exact ⟨decide_eq_true hn, rfl⟩
  case h_11 =>
    subst hi
    exact ⟨rfl, congrArg (formatC _ _ _ _) (bitZero_eq hzero)⟩
  case h_12 | h_14 =>
    obtain ⟨⟨⟨rfl, rfl⟩, rfl⟩, hhigh⟩ := hzero
    subst hi
    exact ⟨rfl, congrArg (formatC _ _ _ _) (extractLow_setWidth hhigh)⟩
  case h_18 =>
    obtain ⟨⟨rfl, rfl⟩, rfl⟩ := hzero
    subst hi
    exact ⟨rfl, rfl⟩
  case h_20 =>
    obtain ⟨⟨hhigh, rfl⟩, rfl⟩ := hzero
    obtain ⟨cat, hcat, rfl⟩ := hi
    refine ⟨rfl, ?_⟩
    rw [encode, catNumber_of_catOfNumber hcat]
    exact congrArg (formatC _ _ · _ _) (blockFlags_of_highNibble hhigh)
  all_goals
    subst hi
    simp only [encode, hzero]
    exact ⟨rfl, rfl⟩

/-- 30_encoding.md R97: a word that decodes is the encoder's word of a well-formed command. -/
theorem encode_of_decode {w : Word64} {i : Instr} (h : decode w = .ok i) : i.wellFormed = true ∧ encode i = w := by
  obtain ⟨hw, he⟩ := formatC_of_decodeFields_eq_ok h
  exact ⟨hw, he.trans (formatC_fields w)⟩

/-! ## The encoded ranges -/

theorem checkRow_eq_operandRange_iff {z : Bool} {o : Option Instr} :
    checkRow z o = .error .operandRange ↔ z = true ∧ o = none := by
  cases z <;> cases o <;> simp [checkRow]

/-- The ranges of 30_encoding.md R98 in the fields of format C. -/
theorem operandOutOfRange_iff (w : Word64) :
    OperandOutOfRange w ↔
      ((opField w = 0x12 ∨ opField w = 0x13 ∨ opField w = 0x34) ∧ 32 < (aField w).toNat) ∨
      (opField w = 0x40 ∧ 5 < (aField w).toNat) ∨
      (opField w = 0x02 ∧ ¬ (((immField w).extractLsb' 0 16).toNat ≤ 0x0A ∨
        (0x40 ≤ ((immField w).extractLsb' 0 16).toNat ∧ ((immField w).extractLsb' 0 16).toNat ≤ 0x7F))) := by
  have himm : (immField w).extractLsb' 0 16 = w.extractLsb' 0 16 := by
    apply BitVec.eq_of_getLsbD_eq
    intro i hi
    simp [immField, hi]
  rw [himm]
  rfl

theorem regNumber_listed (r : Reg) :
    (regNumber r).toNat ≤ 0x0A ∨ (0x40 ≤ (regNumber r).toNat ∧ (regNumber r).toNat ≤ 0x7F) := by
  cases r with
  | outLevel j => exact .inr (by simp only [regNumber, BitVec.toNat_ofNat]; omega)
  | _ => exact .inl (by decide)

theorem catNumber_le (cat : BlockCat) : (catNumber cat).toNat ≤ 5 := by cases cat <;> decide

/-- The words of well-formed commands have every operand in its range (30_encoding.md R98). -/
theorem not_operandOutOfRange_encode {i : Instr} (hw : i.wellFormed = true) : ¬ OperandOutOfRange (encode i) := by
  rw [operandOutOfRange_iff]
  cases i with
  | rdreg reg =>
    have hlow : (immField (encode (.rdreg reg))).extractLsb' 0 16 = regNumber reg := by
      rw [encode, immField_formatC, setWidth_extractLow]
    rw [hlow]
    simp only [encode, opField_formatC, aField_formatC, regNumber_listed]
    decide
  | bcRdbits n => simpa [encode, Instr.wellFormed] using hw
  | bcPeek n => simpa [encode, Instr.wellFormed] using hw
  | adBypn n => simpa [encode, Instr.wellFormed] using hw
  | rbDecode cat left top fld inferred => simp [encode, catNumber_le]
  | _ => simp [encode]

theorem regOfNumber_eq_none {n : BitVec 16} (h : regOfNumber n = none) :
    ¬ (n.toNat ≤ 0x0A ∨ (0x40 ≤ n.toNat ∧ n.toNat ≤ 0x7F)) := by
  unfold regOfNumber at h
  split at h
  case h_12 =>
    split at h
    · cases h
    · simp only [imp_false] at *
      omega
  all_goals cases h

theorem catOfNumber_eq_none {n : Byte} (h : catOfNumber n = none) : 5 < n.toNat := by
  unfold catOfNumber at h
  split at h
  case h_7 =>
    simp only [imp_false] at *
    omega
  all_goals cases h

theorem bitCount_eq_none {n : Byte} (h : bitCount n = none) : 32 < n.toNat := by
  unfold bitCount at h
  split at h
  · cases h
  · omega

/-- What the decoder finds out of range is out of range (30_encoding.md R98). -/
theorem operandOutOfRange_of_decode {w : Word64} (h : decode w = .error .operandRange) : OperandOutOfRange w := by
  rw [operandOutOfRange_iff]
  unfold decode decodeFields at h
  split at h
  case h_21 => cases h
  all_goals
    rename_i hop
    have hop := eq_ofNat_of_toNat_eq hop
    obtain ⟨-, hi⟩ := checkRow_eq_operandRange_iff.1 h
    try rw [Option.map_eq_none_iff] at hi
  case h_3 => exact .inr (.inr ⟨hop, regOfNumber_eq_none hi⟩)
  case h_6 => exact .inl ⟨.inl hop, bitCount_eq_none hi⟩
  case h_7 => exact .inl ⟨.inr (.inl hop), bitCount_eq_none hi⟩
  case h_17 => exact .inl ⟨.inr (.inr hop), bitCount_eq_none hi⟩
  case h_20 => exact .inr (.inl ⟨hop, catOfNumber_eq_none hi⟩)
  all_goals cases hi

/-- 30_encoding.md R98: with the reserved bits of its row zero, a word is a command or has an operand out of range. -/
theorem decode_of_reservedBits_zero {row : Byte × Word64} (hrow : row ∈ reservedBits) {w : Word64}
    (hop : opField w = row.1) (hzero : w &&& row.2 = 0) :
    (∃ i, decode w = .ok i) ∨ decode w = .error .operandRange := by
  obtain ⟨o, ho⟩ := decode_eq_checkRow_of_mem_reservedBits hrow hop
  rw [hzero] at ho
  cases o with
  | some i => exact .inl ⟨i, ho⟩
  | none => exact .inr ho

theorem inCountRange_refused {n : Byte} (hn : 32 < n.toNat) (s : Machine.State)
    (run : Host.Outcome Machine.State Fault Refusal) :
    inCountRange n s run = .next (refusedWith 4 0x03 s) := by
  rw [inCountRange_of_lt hn, raiseError_eq_refusedWith rfl]
  rfl

end Sys2Proof

namespace Sys2Proof.Proofs

open Sys2Proof.Machine Sys2Proof.Claims

/-- Settles O1, row by row. -/
theorem decodeOfEncodeIsTheCommand : Obligations.DecodeOfEncodeIsTheCommand := fun _ hw => decode_encode hw

/-- Settles O2: a row accepts only zero reserved fields and operands that its encoder gives back. -/
theorem encodeOfDecodeIsTheWord : Obligations.EncodeOfDecodeIsTheWord := fun _ _ h => encode_of_decode h

/-- Settles O5: a word that is no command is out of range by what the decoder found, and a command's word never is. -/
theorem encodedRangesAreChecked : Obligations.EncodedRangesAreChecked := by
  refine ⟨fun row w hrow hop hzero => ?_, fun n s hn =>
    ⟨inCountRange_refused hn s _, inCountRange_refused hn s _, inCountRange_refused hn s _⟩⟩
  rcases decode_of_reservedBits_zero hrow hop hzero with ⟨i, hi⟩ | herr
  · obtain ⟨hw, rfl⟩ := encode_of_decode hi
    exact ⟨fun hout => absurd hout (not_operandOutOfRange_encode hw), fun _ => ⟨i, hi⟩⟩
  · exact ⟨fun _ s => runCommand_of_decode_eq_error herr s,
      fun hin => absurd (operandOutOfRange_of_decode herr) hin⟩

/-- Settles O6: the five words are the encoder's own. -/
theorem sampleWordsDecode : Obligations.SampleWordsDecode :=
  ⟨decode_encode (i := .rdreg (.outLevel 3)) rfl, decode_encode (i := .bcRdbits 32) rfl,
    decode_encode (i := .ctInit 2 2 51 true) rfl, decode_encode (i := .adBin 227) rfl,
    decode_encode (i := .rbDecode .chromaDC false true false false) rfl⟩

end Sys2Proof.Proofs

/-! The host's side and the bit buffer: every command answers, a step is one of five things, no command writes BUF,
the parameters or the program, and the bytes of BUF as the stream reads them. -/

namespace Sys2Proof.Machine

open Sys2Proof.Claims

/-! ## Every command answers -/

/-- An outcome that is a next state. -/
def Answers (o : Host.Outcome State Fault Refusal) : Prop := ∃ t, o = .next t

theorem answers_next (s : State) : Answers (.next s) := ⟨s, rfl⟩

theorem answers_answer (r : Res Word) : Answers (answer r) := by
  cases r with
  | ok v s => exact answers_next _
  | err e s => exact answers_next _

theorem answers_gated (c : Bool) (s : State) {run : Host.Outcome State Fault Refusal} (h : Answers run) :
    Answers (gated c s run) := by
  cases c with
  | true => exact h
  | false => exact answers_next _

theorem answers_inCountRange (n : Byte) (s : State) {run : Host.Outcome State Fault Refusal} (h : Answers run) :
    Answers (inCountRange n s run) := by
  unfold inCountRange
  split
  · exact h
  · exact answers_next _

/-- 60_exceptions.md R285: no command stops the core. -/
theorem answers_exec (i : Instr) (s : State) : Answers (exec i s) := by
  cases i with
  | nop => exact answers_next _
  | reset => exact answers_next _
  | rdreg reg => exact answers_gated _ _ (answers_next _)
  | bcOpen max =>
    change Answers (execBcOpen max s)
    unfold execBcOpen
    split <;> exact answers_next _
  | bcRdbit => exact answers_gated _ _ (answers_answer _)
  | bcRdbits n => exact answers_inCountRange _ _ (answers_gated _ _ (answers_answer _))
  | bcPeek n => exact answers_inCountRange _ _ (answers_gated _ _ (answers_next _))
  | bcFlush n => exact answers_gated _ _ (answers_answer _)
  | bcAligned => exact answers_gated _ _ (answers_next _)
  | bcMore => exact answers_gated _ _ (answers_next _)
  | ctInit cl ip qp aux =>
    change Answers (execCtInit cl ip qp aux s)
    unfold execCtInit
    split <;> exact answers_next _
  | ctGet idx =>
    refine answers_gated _ _ ?_
    split <;> exact answers_next _
  | adInit => exact answers_gated _ _ (answers_answer _)
  | adBin idx => exact answers_gated _ _ (answers_answer _)
  | adTerm => exact answers_gated _ _ (answers_answer _)
  | adByp => exact answers_gated _ _ (answers_answer _)
  | adBypn n => exact answers_inCountRange _ _ (answers_gated _ _ (answers_answer _))
  | adBypu max => exact answers_gated _ _ (answers_answer _)
  | adRealign => exact answers_gated _ _ (answers_answer _)
  | rbDecode cat left top fld inferred =>
    refine answers_gated _ _ ?_
    split
    · exact answers_answer _
    · exact answers_next _

/-! ## What a step can be -/

/-- The state after the host's write of byte k (20_memory.md R60, 70_reset_and_hazards.md R313). -/
def wroteBuf (k : Nat) (b : Byte) (s : State) : State :=
  { s with buf := memWrite s.buf k b, bufRewritten := s.bufRewritten || s.cursorValid, response := none }

/-- All that a step can do, with the host's index already moved on (10_state.md R22). -/
inductive StepEffect (s : State) : State → Prop
  | idle (h : nextAction s = none) : StepEffect s s
  | command (w : Word64) (i : Instr) (t : State) (ha : nextAction s = some (.command w)) (hd : decode w = .ok i)
      (h : exec i (hostAdvance s) = .next t) : StepEffect s t
  | illegal (w : Word64) (d : DecodeError) (ha : nextAction s = some (.command w)) (hd : decode w = .error d) :
      StepEffect s (raiseError (illegal d) (hostAdvance s))
  | write (k : Nat) (b : Byte) (ha : nextAction s = some (.writeBuf k b)) (hk : k < 4 * s.params.bufWords) :
      StepEffect s (wroteBuf k b (hostAdvance s))
  | hardwareReset (ha : nextAction s = some .hardwareReset) : StepEffect s (hardwareReset (hostAdvance s))

theorem step_of_nextAction_none {s : State} (h : nextAction s = none) : step s = .next s := by
  simp only [step, h]

theorem step_of_nextAction_some {s : State} {a : HostAction} (h : nextAction s = some a) :
    step s = act a (hostAdvance s) := by
  simp only [step, h]

theorem runCommand_of_decode_eq_ok {w : Word64} {i : Instr} (h : decode w = .ok i) (s : State) :
    runCommand w s = exec i s := by
  simp only [runCommand, h]

theorem hostWrite_of_lt {s : State} {k : Nat} (hk : k < 4 * s.params.bufWords) (b : Byte) :
    hostWrite k b s = .next (wroteBuf k b s) := if_pos hk

theorem hostWrite_of_ge {s : State} {k : Nat} (hk : 4 * s.params.bufWords ≤ k) (b : Byte) :
    hostWrite k b s = .fault .hostWriteOutsideBuf := if_neg (Nat.not_lt.2 hk)

theorem stepEffect_of_step {s t : State} (h : step s = .next t) : StepEffect s t := by
  cases ha : nextAction s with
  | none =>
    rw [step_of_nextAction_none ha] at h
    cases h
    exact .idle ha
  | some a =>
    rw [step_of_nextAction_some ha] at h
    cases a with
    | command w =>
      cases hd : decode w with
      | ok i => exact .command w i t ha hd ((runCommand_of_decode_eq_ok hd _).symm.trans h)
      | error d =>
        simp only [act, runCommand, hd] at h
        cases h
        exact .illegal w d ha hd
    | writeBuf k b =>
      by_cases hk : k < 4 * s.params.bufWords
      · rw [act, hostWrite_of_lt (s := hostAdvance s) hk] at h
        cases h
        exact .write k b ha hk
      · rw [act, hostWrite_of_ge (s := hostAdvance s) (Nat.not_lt.1 hk)] at h
        cases h
    | hardwareReset =>
      cases h
      exact .hardwareReset ha

/-- A condition on states that every step keeps: the host's index is not part of it, and every command, every error
record, every write the host may make and every reset keep it. -/
theorem step_keeps {I : State → Prop} {s t : State} (h : step s = .next t)
    (heff : ∀ i u, Effect (hostAdvance s) i u → I u)
    (herr : ∀ d, I (raiseError (illegal d) (hostAdvance s)))
    (hwrite : ∀ k b, k < 4 * s.params.bufWords → I (wroteBuf k b (hostAdvance s)))
    (hreset : I (Machine.hardwareReset (hostAdvance s))) (hidle : I s) : I t := by
  cases stepEffect_of_step h with
  | idle => exact hidle
  | command w i _ _ _ h => exact heff i t (effect_of_exec h)
  | illegal w d => exact herr d
  | write k b _ hk => exact hwrite k b hk
  | hardwareReset => exact hreset

/-! ## What commands leave of the host's side -/

/-- The host's program and index, BUF and the parameters are as they were. -/
structure HostSide (s t : State) : Prop where
  program : t.program = s.program
  programIndex : t.programIndex = s.programIndex
  buf : t.buf = s.buf
  params : t.params = s.params

theorem HostSide.refl (s : State) : HostSide s s := ⟨rfl, rfl, rfl, rfl⟩

theorem HostSide.trans {s t u : State} (h : HostSide s t) (k : HostSide t u) : HostSide s u :=
  ⟨k.program.trans h.program, k.programIndex.trans h.programIndex, k.buf.trans h.buf, k.params.trans h.params⟩

theorem BinFrame.hostSide {s t : State} (h : BinFrame s t) : HostSide s t := by
  rw [h]
  exact ⟨rfl, rfl, rfl, rfl⟩

theorem CodedBlock.hostSide {cat : BlockCat} {u t : State} {v : Word} (h : CodedBlock cat u t v) : HostSide u t := by
  obtain ⟨sig, ls, rfl, -⟩ := h
  exact ⟨rfl, rfl, rfl, rfl⟩

theorem BlockResult.hostSide {cat : BlockCat} {inferred : Bool} {u t : State} {v : Word}
    (h : BlockResult cat inferred u t v) : HostSide u t := by
  rcases h with ⟨-, rfl, -⟩ | ⟨t', rfl, h⟩
  · exact ⟨rfl, rfl, rfl, rfl⟩
  · exact h.hostSide.trans ⟨rfl, rfl, rfl, rfl⟩

theorem hostSide_hideOutputs (s : State) : HostSide s { s with outValid := false } := ⟨rfl, rfl, rfl, rfl⟩

/-- 20_memory.md R66, 10_state.md R22, R47: no command touches the host's side. -/
theorem Effect.hostSide {i : Instr} {s t : State} (h : Effect s i t) : HostSide s t := by
  cases h with
  | adBin idx b u _ h => exact (((binsFrom_regular _ _ (.refl s)).of_ok h).1.hostSide).trans ⟨rfl, rfl, rfl, rfl⟩
  | adTerm u _ h =>
    rcases decodeTerminal_cases s with ⟨_, e⟩ | ⟨_, ⟨r, _, e⟩ | ⟨_, e⟩⟩ <;> rw [e] at h <;> cases h
    exact ⟨rfl, rfl, rfl, rfl⟩
  | adByp b u _ h => exact (((binsFrom_bypass (.refl s)).of_ok h).1.hostSide).trans ⟨rfl, rfl, rfl, rfl⟩
  | adBypn n _ v u _ h => exact (((bypassBits_binsFrom _ _ s).of_ok h).1.hostSide).trans ⟨rfl, rfl, rfl, rfl⟩
  | adBypnAborted n _ u _ h =>
    exact (((bypassBits_binsFrom _ _ s).of_err h).1.1.hostSide).trans ⟨rfl, rfl, rfl, rfl⟩
  | adBypu n c u _ h => exact (((bypassUnary_binsFrom _ _ s).of_ok h).1.hostSide).trans ⟨rfl, rfl, rfl, rfl⟩
  | adBypuAborted n u _ h =>
    exact (((bypassUnary_binsFrom _ _ s).of_err h).1.1.hostSide).trans ⟨rfl, rfl, rfl, rfl⟩
  | rbDecode cat left top fld inferred v u _ hok h =>
    obtain ⟨w, hw, hres⟩ := (decodeBlock_binsFrom hok).of_ok h
    exact ((hostSide_hideOutputs s).trans (hw.1.hostSide.trans hres.hostSide)).trans ⟨rfl, rfl, rfl, rfl⟩
  | rbDecodeAborted cat left top fld inferred u _ hok h =>
    obtain ⟨w, hw, rfl⟩ := (decodeBlock_binsFrom hok).of_err h
    exact (hostSide_hideOutputs s).trans (hw.1.1.hostSide.trans ⟨rfl, rfl, rfl, rfl⟩)
  | _ => exact ⟨rfl, rfl, rfl, rfl⟩

theorem hostSide_of_exec {i : Instr} {s t : State} (h : exec i s = .next t) : HostSide s t :=
  (effect_of_exec h).hostSide

/-- What a byte of BUF reads as depends on BUF and the parameters alone. -/
theorem HostSide.bufByte {s t : State} (h : HostSide s t) (k : Nat) : bufByte t k = bufByte s k := by
  simp only [Machine.bufByte, h.buf, h.params]

/-! ## Bytes of BUF -/

/-- 20_memory.md R65: byte `k mod 4` of word `k / 4`, byte 0 the most significant. -/
theorem bufByte_eq_extract (s : State) (k : Nat) :
    bufByte s k = (bufWord s (k / 4)).extractLsb' (24 - 8 * (k % 4)) 8 := by
  obtain ⟨w, r, hr, rfl⟩ : ∃ w r, r < 4 ∧ k = 4 * w + r := ⟨k / 4, k % 4, by omega, by omega⟩
  rw [show (4 * w + r) / 4 = w by omega, show (4 * w + r) % 4 = r by omega]
  apply BitVec.eq_of_getLsbD_eq
  intro i hi
  simp only [bufWord, BitVec.getLsbD_extractLsb', BitVec.getLsbD_append, hi, decide_true, Bool.true_and]
  match r, hr with
  | 0, _ => simp [show ¬ 24 + i < 8 by omega, show ¬ 24 + i - 8 < 8 by omega, show ¬ 24 + i - 8 - 8 < 8 by omega,
      show 24 + i - 8 - 8 - 8 = i by omega]
  | 1, _ => simp [show ¬ 16 + i < 8 by omega, show ¬ 16 + i - 8 < 8 by omega, show 16 + i - 8 - 8 = i by omega, hi]
  | 2, _ => simp [show ¬ 8 + i < 8 by omega, show 8 + i - 8 = i by omega, hi]
  | 3, _ => simp [hi]

/-- 20_memory.md R62, R65: the first stream bit of a byte is its most significant one. -/
theorem bitAt_eq_byte {s : State} {p : Nat} (hr : s.bufRewritten = false) (hp : p < 32 * s.params.bufWords) (k : Nat) :
    bitAt s p k = (bufByte s (p / 8)).getLsbD (7 - p % 8) := by
  rw [bitAt_of_lt hr hp, bufByte_eq_extract, BitVec.getLsbD_extractLsb', show p / 8 / 4 = p / 32 by omega,
    show 24 - 8 * (p / 8 % 4) + (7 - p % 8) = 31 - p % 32 by omega]
  simp [show 7 - p % 8 < 8 by omega]

theorem bitsAt_byte {s : State} {k : Nat} (hr : s.bufRewritten = false) (hk : 8 * k + 8 ≤ 32 * s.params.bufWords) :
    bitsAt s (8 * k) 8 = (bufByte s k).setWidth 32 := by
  apply BitVec.eq_of_getLsbD_eq
  intro i hi
  rw [bitsAt_getLsbD s _ (by decide), BitVec.getLsbD_setWidth]
  by_cases h : i < 8
  · rw [bitAt_eq_byte hr (by omega), show (8 * k + (8 - 1 - i)) / 8 = k by omega,
      show 7 - (8 * k + (8 - 1 - i)) % 8 = i by omega]
    simp [h, hi]
  · simp [h, BitVec.getLsbD_of_ge _ i (Nat.not_lt.1 h)]

theorem bitsAt_word {s : State} {w : Nat} (hr : s.bufRewritten = false) (hw : w < s.params.bufWords) :
    bitsAt s (32 * w) 32 = bufWord s w := by
  apply BitVec.eq_of_getLsbD_eq
  intro i hi
  rw [bitsAt_getLsbD s _ (Nat.le_refl 32), bitAt_of_lt hr (by omega), show (32 * w + (32 - 1 - i)) / 32 = w by omega,
    show 31 - (32 * w + (32 - 1 - i)) % 32 = i by omega]
  simp [hi]

/-- 20_memory.md R71: a read depends on BUF, the parameters, the draws and the host's mark alone. -/
theorem bitsAt_congr {s t : State} (hbuf : t.buf = s.buf) (hparams : t.params = s.params) (hdraws : t.draws = s.draws)
    (hmark : t.bufRewritten = s.bufRewritten) (p n : Nat) : bitsAt t p n = bitsAt s p n := by
  have hbit (q k : Nat) : bitAt t q k = bitAt s q k := by
    unfold bitAt bitStored bufWord bufByte
    rw [hbuf, hparams, hdraws, hmark]
  induction n with
  | zero => rfl
  | succ n ih => simp only [bitsAt, ih, hbit]

/-- 20_memory.md R65: the byte written, and every other byte as before. -/
theorem bufByte_wroteBuf (k : Nat) (b : Byte) (s : State) (j : Nat) :
    bufByte (wroteBuf k b s) j = if j = k then b else bufByte s j := by
  unfold bufByte wroteBuf
  split
  · subst j
    rw [memRead_memWrite_same]
    rfl
  · rw [memRead_memWrite_other _ _ ‹_›]

/-! ## BC.OPEN -/

theorem exec_bcOpen_of_fits {s : State} {max : Word} (h : max.toNat ≤ 32 * s.params.bufWords) :
    exec (.bcOpen max) s = .next (complete 0 (openUnit max s)) := if_neg (Nat.not_lt.2 h)

theorem exec_bcOpen_of_exceeds {s : State} {max : Word} (h : 32 * s.params.bufWords < max.toNat) :
    exec (.bcOpen max) s = .next (refusedWith 2 0x10 s) :=
  (if_pos h).trans (congrArg Host.Outcome.next (raiseError_eq_refusedWith rfl s))

/-! ## BUF's canonical form -/

theorem bufCanonical_congr {s t : State} (hbuf : t.buf = s.buf) (hparams : t.params = s.params)
    (h : Safety.BufCanonical s) : Safety.BufCanonical t := by
  unfold Safety.BufCanonical
  rw [hbuf, hparams]
  exact h

end Sys2Proof.Machine

namespace Sys2Proof.Proofs

open Sys2Proof.Machine Sys2Proof.Claims Sys2Proof.Safety

/-- Settles O7: the step on a command word, by what the decoder says of it. -/
theorem stepRunsTheDecodedCommand : Obligations.StepRunsTheDecodedCommand := by
  intro s w ha
  have hstep : step s = runCommand w (hostAdvance s) := step_of_nextAction_some ha
  rw [hstep]
  exact ⟨fun i hi => runCommand_of_decode_eq_ok hi _, fun h => runCommand_of_decode_eq_error h _,
    fun h => runCommand_of_decode_eq_error h _, fun h => runCommand_of_decode_eq_error h _⟩

/-- Settles O8: every effect of a step moves the index once, and no command's effect moves it. -/
theorem onlyTheHostMovesTheProgramIndex : Obligations.OnlyTheHostMovesTheProgramIndex := by
  refine ⟨fun s h => step_of_nextAction_none h, fun s a t ha h => ?_, fun i s t h => ?_⟩
  · cases stepEffect_of_step h with
    | idle hnone => exact absurd (ha.symm.trans hnone) (by simp)
    | command w i _ _ _ h => exact ⟨(hostSide_of_exec h).program, (hostSide_of_exec h).programIndex⟩
    | illegal => exact ⟨rfl, rfl⟩
    | write => exact ⟨rfl, rfl⟩
    | hardwareReset => exact ⟨rfl, rfl⟩
  · exact ⟨(hostSide_of_exec h).program, (hostSide_of_exec h).programIndex⟩

/-- Settles O9: the only outcome of a step that is no next state is the host's write outside BUF. -/
theorem noCommandStopsTheCore : Obligations.NoCommandStopsTheCore := by
  refine ⟨answers_exec, fun s => ?_⟩
  cases ha : nextAction s with
  | none => exact .inl ⟨s, step_of_nextAction_none ha⟩
  | some a =>
    rw [step_of_nextAction_some ha]
    cases a with
    | command w =>
      left
      cases hd : decode w with
      | ok i =>
        obtain ⟨t, ht⟩ := answers_exec i (hostAdvance s)
        exact ⟨t, (runCommand_of_decode_eq_ok hd _).trans ht⟩
      | error d => exact ⟨_, runCommand_of_decode_eq_error hd _⟩
    | writeBuf k b =>
      by_cases hk : k < 4 * s.params.bufWords
      · exact .inl ⟨_, hostWrite_of_lt (s := hostAdvance s) hk b⟩
      · exact .inr ⟨k, b, ha, Nat.not_lt.1 hk, hostWrite_of_ge (s := hostAdvance s) (Nat.not_lt.1 hk) b⟩
    | hardwareReset => exact .inl ⟨_, rfl⟩

/-- Settles O10: the reset's own values, the response dropped. -/
theorem hardwareResetClearsTheCore : Obligations.HardwareResetClearsTheCore :=
  fun s ha => ⟨hardwareReset (hostAdvance s), step_of_nextAction_some ha, rfl, rfl, rfl, rfl, rfl, rfl, rfl, rfl, rfl,
    rfl, rfl⟩

/-- Settles O11. -/
theorem resetStateHoldsTheResetValues : Obligations.ResetStateHoldsTheResetValues :=
  ⟨rfl, rfl, rfl, rfl, rfl, rfl, rfl⟩

/-- Settles O12: every invariant is guarded by a flag that is 0 at reset; the default tables are evaluated. -/
theorem resetStateMeetsTheInvariants : Obligations.ResetStateMeetsTheInvariants := by
  have htrans : transWf resetParams := by unfold transWf; decide +kernel
  have hmap : ∀ cat left top fld, blockIndicesOk ctxMapH264 cat left top fld true = true ∧
      (cbfCtx ctxMapH264 cat left top ≠ none → blockIndicesOk ctxMapH264 cat left top fld false = true) := by
    intro cat
    cases cat <;> decide +kernel
  refine ⟨fun h => ?_, fun h => absurd rfl h, fun h => ?_, fun h => ?_, ⟨rfl, fun _ h => ?_⟩,
    by decide, by decide, by decide, by decide, htrans, hmap⟩ <;> cases h

/-- Settles O13: the write puts the byte into BUF, and BC.OPEN starts a unit whose reads are BUF's bytes. -/
theorem hostWriteIsSeenByTheNextUnit : Obligations.HostWriteIsSeenByTheNextUnit := by
  intro s t u k b max hwrite hmax hopen j hj
  have hk : k < 4 * s.params.bufWords := by
    by_contra hk
    rw [act, hostWrite_of_ge (Nat.not_lt.1 hk)] at hwrite
    cases hwrite
  rw [act, hostWrite_of_lt hk] at hwrite
  cases hwrite
  cases (exec_bcOpen_of_fits (s := wroteBuf k b s) hmax).symm.trans hopen
  rw [bitsAt_byte (s := complete 0 (openUnit max (wroteBuf k b s))) rfl
    (show 8 * j + 8 ≤ 32 * s.params.bufWords by omega)]
  exact congrArg _ (bufByte_wroteBuf k b s j)

/-- Settles O14. -/
theorem commandsNeverWriteBuf : Obligations.CommandsNeverWriteBuf :=
  fun _ _ _ h => ⟨(hostSide_of_exec h).buf, (hostSide_of_exec h).params, (hostSide_of_exec h).bufByte⟩

/-- Settles O15: only the host's write changes the list, at an address inside BUF. -/
theorem stepKeepsBufCanonical : Obligations.StepKeepsBufCanonical := by
  intro s t hs h
  refine step_keeps (I := BufCanonical) h
    (fun i u hu => bufCanonical_congr hu.hostSide.buf hu.hostSide.params hs) (fun _ => hs)
    (fun k b hk => ⟨memWf_memWrite k b hs.1, fun c hc => ?_⟩) hs hs
  rcases mem_memWrite hc with rfl | hc
  · exact hk
  · exact hs.2 c hc

/-- Settles O16: a platform's step is one member's step, stored back in its place. -/
theorem instancesDoNotInteract : Obligations.InstancesDoNotInteract := by
  intro p p' k h
  unfold platformStep at h
  split at h
  · cases h
  · rename_i s hs
    split at h <;> cases h
    rename_i t ht
    have hk : k < p.length := (List.getElem?_eq_some_iff.1 hs).1
    exact ⟨List.length_set, fun j hj => List.getElem?_set_ne (Ne.symm hj), s, t, hs, ht, List.getElem?_set_self hk⟩

/-- Settles O18. -/
theorem resetCommandCompletes : Obligations.ResetCommandCompletes :=
  fun s => ⟨complete 0 (resetCore s), rfl, rfl, rfl, rfl, rfl, rfl, rfl, rfl, rfl, rfl, rfl, rfl, rfl⟩

/-- Settles O20. -/
theorem bcOpenBindsTheCursor : Obligations.BcOpenBindsTheCursor :=
  fun _ _ => ⟨exec_bcOpen_of_fits, exec_bcOpen_of_exceeds⟩

/-- Settles O25: a byte is an aligned piece of its word, and a position's bit is one of its byte. -/
theorem streamIsBigEndian : Obligations.StreamIsBigEndian :=
  fun s hr => ⟨fun _ k hp => bitAt_eq_byte hr hp k, fun _ hk => bitsAt_byte hr hk, fun _ hw => bitsAt_word hr hw,
    bufByte_eq_extract s, fun m p n => bitsAt_congr (s := s) (t := { s with maxBitOffset := m }) rfl rfl rfl rfl p n⟩

end Sys2Proof.Proofs

/-! Reach by single bins: what every bin command does to the decoder's registers is a run of single bins, so that a
condition on these registers that every single bin keeps is kept by every bin command, whatever its status. -/

namespace Sys2Proof.Machine

open Sys2Proof.Claims Sys2Proof.Safety

/-! ## The decoder's registers -/

/-- The two states have the same interval, cursor and binding, and read the same stream. -/
structure SameDecoder (s t : State) : Prop where
  range : t.range = s.range
  value : t.value = s.value
  bitOffset : t.bitOffset = s.bitOffset
  maxBitOffset : t.maxBitOffset = s.maxBitOffset
  cursorValid : t.cursorValid = s.cursorValid
  buf : t.buf = s.buf
  params : t.params = s.params
  bufRewritten : t.bufRewritten = s.bufRewritten

theorem SameDecoder.refl (s : State) : SameDecoder s s := ⟨rfl, rfl, rfl, rfl, rfl, rfl, rfl, rfl⟩

theorem SameDecoder.trans {s t u : State} (h : SameDecoder s t) (k : SameDecoder t u) : SameDecoder s u :=
  ⟨k.range.trans h.range, k.value.trans h.value, k.bitOffset.trans h.bitOffset, k.maxBitOffset.trans h.maxBitOffset,
    k.cursorValid.trans h.cursorValid, k.buf.trans h.buf, k.params.trans h.params,
    k.bufRewritten.trans h.bufRewritten⟩

theorem sameDecoder_hideOutputs (s : State) : SameDecoder s { s with outValid := false } :=
  ⟨rfl, rfl, rfl, rfl, rfl, rfl, rfl, rfl⟩

theorem sameDecoder_setDecoding (s : State) : SameDecoder s (setDecoding s) := ⟨rfl, rfl, rfl, rfl, rfl, rfl, rfl, rfl⟩

theorem sameDecoder_complete (v : Word) (s : State) : SameDecoder s (complete v s) :=
  ⟨rfl, rfl, rfl, rfl, rfl, rfl, rfl, rfl⟩

theorem sameDecoder_raiseError (e : CmdError) (s : State) : SameDecoder s (raiseError e s) :=
  ⟨rfl, rfl, rfl, rfl, rfl, rfl, rfl, rfl⟩

theorem sameDecoder_loseBlock (s : State) : SameDecoder s (loseBlock s) := ⟨rfl, rfl, rfl, rfl, rfl, rfl, rfl, rfl⟩

theorem BlockResult.sameDecoder {cat : BlockCat} {inferred : Bool} {u t : State} {v : Word}
    (h : BlockResult cat inferred u t v) : SameDecoder u t := by
  rcases h with ⟨-, rfl, -⟩ | ⟨t', rfl, sig, ls, rfl, -⟩ <;> exact ⟨rfl, rfl, rfl, rfl, rfl, rfl, rfl, rfl⟩

theorem BlockResult.draws {cat : BlockCat} {inferred : Bool} {u t : State} {v : Word}
    (h : BlockResult cat inferred u t v) : t.draws = u.draws + 1 := by
  rcases h with ⟨-, rfl, -⟩ | ⟨t', rfl, sig, ls, rfl, -⟩ <;> rfl

/-! ## Reach -/

/-- One single bin that succeeds. -/
def BinStep (s t : State) (b : Bool) : Prop :=
  (∃ idx site, decodeRegular idx site s = .ok b t) ∨ decodeTerminal s = .ok b t ∨ decodeBypass s = .ok b t

/-- u is reached from s by single bins that succeed, up to registers that no bin reads or writes. -/
inductive BinReach (s : State) : State → Prop
  | start {u : State} (h : SameDecoder s u) (hd : u.draws = s.draws) : BinReach s u
  | step {u w : State} {b : Bool} (h : BinReach s u) (hb : BinStep u w b) : BinReach s w

theorem BinReach.refl (s : State) : BinReach s s := .start (.refl s) rfl

/-- Where a loop over bins ends, by error or not, is reached by bins. -/
theorem binRule_binReach (s : State) :
    BinRule s.params.ctxMap (fun _ => BinReach s) (fun _ t => BinReach s t ∧ t.params = s.params) where
  regular := fun _ idx t _ h => by
    rcases decodeRegular_cases idx 0x21 t with ⟨_, e⟩ | ⟨_, ⟨r, _, e⟩ | ⟨_, e⟩⟩
    · rw [e]; exact h.1
    · have hstep : BinReach s _ := .step h.1 (.inl ⟨idx, 0x21, e⟩)
      rw [e]; exact ⟨hstep, h.2⟩
    · rw [e]; exact h.1
  bypass := fun _ t h => by
    rcases decodeBypass_cases t with ⟨r, _, ⟨_, e⟩ | ⟨_, e⟩⟩ | ⟨_, e⟩
    · have hstep : BinReach s _ := .step h.1 (.inr (.inr e))
      rw [e]; exact ⟨hstep, h.2⟩
    · have hstep : BinReach s _ := .step h.1 (.inr (.inr e))
      rw [e]; exact ⟨hstep, h.2⟩
    · rw [e]; exact h.1
  drop := fun _ _ h => h
  map := fun _ _ h => by rw [h.2]

/-- The draws a bin command leaves: those of its bins, and RB.DECODE's one for its output block. -/
def DrawsFrom (i : Instr) (u t : State) : Prop :=
  t.draws = u.draws ∨ ((∃ cat left top fld inf, i = .rbDecode cat left top fld inf) ∧ t.draws = u.draws + 1)

/-- What a bin command leaves of the decoder's registers is reached by single bins (42_arithmetic_decoder.md R174,
43_residual_block.md R225). -/
theorem binReach_of_effect {i : Instr} {s t : State} (hi : isBinCommand i = true) (h : Effect s i t) :
    ∃ u, BinReach s u ∧ SameDecoder u t ∧ DrawsFrom i u t := by
  have R := binRule_binReach s
  have hs : BinReach s s ∧ s.params = s.params := ⟨.refl s, rfl⟩
  have herr (e : CmdError) (u : State) (hu : BinReach s u) :
      ∃ u', BinReach s u' ∧ SameDecoder u' (raiseError e u) ∧ DrawsFrom i u' (raiseError e u) :=
    ⟨u, hu, sameDecoder_raiseError e u, .inl rfl⟩
  have hdone (v : Word) (u : State) (hu : BinReach s u) :
      ∃ u', BinReach s u' ∧ SameDecoder u' (complete v (setDecoding u)) ∧ DrawsFrom i u' (complete v (setDecoding u)) :=
    ⟨u, hu, (sameDecoder_setDecoding u).trans (sameDecoder_complete v _), .inl rfl⟩
  cases h with
  | notAdmitted => exact herr _ s hs.1
  | outOfRange => exact herr _ s hs.1
  | rejected => exact herr _ s hs.1
  | adBin idx b u _ h => exact hdone _ u (.step hs.1 (.inl ⟨_, _, h⟩))
  | adBinAborted => exact herr _ s hs.1
  | adTerm u _ h => exact hdone _ u (.step hs.1 (.inr (.inl h)))
  | adTermLast _ h => exact ⟨_, .step hs.1 (.inr (.inl h)), sameDecoder_complete _ _, .inl rfl⟩
  | adTermAborted => exact herr _ s hs.1
  | adByp b u _ h => exact hdone _ u (.step hs.1 (.inr (.inr h)))
  | adBypAborted => exact herr _ s hs.1
  | adBypn n _ v u _ h => exact hdone _ u ((R.bypassBits _ 0 0 s hs).of_ok h).1.1
  | adBypnAborted n _ u _ h => exact herr _ u ((R.bypassBits _ 0 0 s hs).of_err h)
  | adBypu n c u _ h => exact hdone _ u ((R.bypassUnary _ 0 0 s hs).of_ok h).1.1
  | adBypuAborted n u _ h => exact herr _ u ((R.bypassUnary _ 0 0 s hs).of_err h)
  | rbDecode cat left top fld inferred v u _ hok h =>
    have hhide : BinReach s { s with outValid := false } := .start (sameDecoder_hideOutputs s) rfl
    obtain ⟨w, hw, hres⟩ := (R.decodeBlock hok (k := 0) ⟨hhide, rfl⟩).of_ok h
    exact ⟨w, hw.1, hres.sameDecoder.trans (sameDecoder_complete _ _), .inr ⟨⟨_, _, _, _, _, rfl⟩, hres.draws⟩⟩
  | rbDecodeAborted cat left top fld inferred u _ hok h =>
    have hhide : BinReach s { s with outValid := false } := .start (sameDecoder_hideOutputs s) rfl
    obtain ⟨w, hw, rfl⟩ := (R.decodeBlock hok (k := 0) ⟨hhide, rfl⟩).of_err h
    exact ⟨w, hw, (sameDecoder_loseBlock w).trans (sameDecoder_raiseError _ _), .inr ⟨⟨_, _, _, _, _, rfl⟩, rfl⟩⟩
  | _ => cases hi

/-- A condition on the decoder's registers that every single bin keeps is kept by every run of bins. -/
theorem BinReach.keeps {J : State → Prop} {s u : State} (h : BinReach s u) (hs : J s)
    (hsame : ∀ t t', SameDecoder t t' → J t → J t') (hstep : ∀ t t' b, J t → BinStep t t' b → J t') : J u := by
  induction h with
  | start h => exact hsame _ _ h hs
  | step _ hb ih => exact hstep _ _ _ ih hb

/-- A condition on the decoder's registers that every single bin keeps is kept by every bin command, whatever its
status. -/
theorem binCommand_keeps {J : State → Prop} {i : Instr} {s t : State} (hi : isBinCommand i = true)
    (h : Effect s i t) (hs : J s) (hsame : ∀ t t', SameDecoder t t' → J t → J t')
    (hstep : ∀ t t' b, J t → BinStep t t' b → J t') : J t := by
  obtain ⟨u, hu, hut, -⟩ := binReach_of_effect hi h
  exact hsame u t hut (hu.keeps hs hsame hstep)

/-! ## What one bin does to the interval -/

/-- The interval that a single bin hands to renormalisation, its threshold, and what the bin leaves of it
(42_arithmetic_decoder.md R176, R181, R186): a regular bin and a terminal bin of symbol 0 take a sub-interval and
renormalise it, a bypass bin renormalises first and takes half, a terminal bin of symbol 1 takes nothing. -/
inductive BinInterval (s t : State) : Prop
  | lps (w : Word) (r : Interval) (hw : ∃ k : Fin 256, w = s.params.trans[k].lps8.setWidth 32)
      (hle : s.range - scaled w (clz32 s.range) ≤ s.value)
      (hr : renormBelow renormT (scaled w (clz32 s.range)) (s.value - (s.range - scaled w (clz32 s.range))) s = .ok r)
      (ht : SameDecoder (commit r s) t) (hd : t.draws = r.draws)
  | upper (w : Word) (r : Interval) (hw : (∃ k : Fin 256, w = s.params.trans[k].lps8.setWidth 32) ∨ w = termWidth)
      (hlt : s.value < s.range - scaled w (clz32 s.range))
      (hr : renormBelow renormT (s.range - scaled w (clz32 s.range)) s.value s = .ok r)
      (ht : SameDecoder (commit r s) t) (hd : t.draws = r.draws)
  | bypass (r : Interval) (v : Word) (hr : renormBelow bypassT s.range s.value s = .ok r)
      (hv : (r.range >>> 1 ≤ r.value ∧ v = r.value - r.range >>> 1) ∨ (r.value < r.range >>> 1 ∧ v = r.value))
      (ht : SameDecoder (commit ⟨r.range >>> 1, v, r.adv, r.draws⟩ s) t) (hd : t.draws = r.draws)
  | stay (ht : SameDecoder s t) (hd : t.draws = s.draws)

theorem transAt_eq_getElem (p : Params) (st : BitVec 6) (q : BitVec 2) : ∃ k : Fin 256, transAt p st q = p.trans[k] :=
  ⟨⟨((st.setWidth 8 <<< 2) ||| q.setWidth 8).toNat, BitVec.isLt _⟩, rfl⟩

/-- The regular bin's two branches (42_arithmetic_decoder.md R176). -/
theorem regularBin_cases (p : Params) (e : ContextEntry) (range value : Word) :
    ∃ k : Fin 256, let w := p.trans[k].lps8.setWidth 32
      (range - scaled w (clz32 range) ≤ value ∧
        (regularBin p e range value).range = scaled w (clz32 range) ∧
        (regularBin p e range value).value = value - (range - scaled w (clz32 range))) ∨
      (value < range - scaled w (clz32 range) ∧
        (regularBin p e range value).range = range - scaled w (clz32 range) ∧
        (regularBin p e range value).value = value) := by
  obtain ⟨k, hk⟩ := transAt_eq_getElem p e.stateIndex (quantized range)
  refine ⟨k, ?_⟩
  simp only [← hk, regularBin]
  split
  · exact .inl ⟨‹_›, rfl, rfl⟩
  · exact .inr ⟨BitVec.not_le.1 ‹_›, rfl, rfl⟩

theorem binInterval_of_binStep {s t : State} {b : Bool} (h : BinStep s t b) : BinInterval s t := by
  rcases h with ⟨idx, site, h⟩ | h | h
  · rcases decodeRegular_cases idx site s with ⟨_, e⟩ | ⟨hidx, ⟨r, hr, e⟩ | ⟨_, e⟩⟩ <;> rw [e] at h <;> cases h
    obtain ⟨k, ⟨hle, hrange, hvalue⟩ | ⟨hlt, hrange, hvalue⟩⟩ := regularBin_cases s.params (s.ctx[idx]) s.range s.value
    · rw [hrange, hvalue] at hr
      exact .lps _ r ⟨k, rfl⟩ hle hr ⟨rfl, rfl, rfl, rfl, rfl, rfl, rfl, rfl⟩ rfl
    · rw [hrange, hvalue] at hr
      exact .upper _ r (.inl ⟨k, rfl⟩) hlt hr ⟨rfl, rfl, rfl, rfl, rfl, rfl, rfl, rfl⟩ rfl
  · rcases decodeTerminal_cases s with ⟨_, e⟩ | ⟨hlt, ⟨r, hr, e⟩ | ⟨_, e⟩⟩ <;> rw [e] at h <;> cases h
    · exact .stay ⟨rfl, rfl, rfl, rfl, rfl, rfl, rfl, rfl⟩ rfl
    · exact .upper _ r (.inr rfl) hlt hr (.refl _) rfl
  · rcases decodeBypass_cases s with ⟨r, hr, ⟨hle, e⟩ | ⟨hlt, e⟩⟩ | ⟨_, e⟩ <;> rw [e] at h <;> cases h
    · exact .bypass r _ hr (.inl ⟨hle, rfl⟩) (.refl _) rfl
    · exact .bypass r _ hr (.inr ⟨hlt, rfl⟩) (.refl _) rfl

/-- The binding, the stream and the parameters are as they were. -/
structure SameBinding (s t : State) : Prop where
  maxBitOffset : t.maxBitOffset = s.maxBitOffset
  cursorValid : t.cursorValid = s.cursorValid
  buf : t.buf = s.buf
  params : t.params = s.params
  bufRewritten : t.bufRewritten = s.bufRewritten

theorem SameBinding.trans {s t u : State} (h : SameBinding s t) (k : SameBinding t u) : SameBinding s u :=
  ⟨k.maxBitOffset.trans h.maxBitOffset, k.cursorValid.trans h.cursorValid, k.buf.trans h.buf,
    k.params.trans h.params, k.bufRewritten.trans h.bufRewritten⟩

theorem SameDecoder.sameBinding {s t : State} (h : SameDecoder s t) : SameBinding s t :=
  ⟨h.maxBitOffset, h.cursorValid, h.buf, h.params, h.bufRewritten⟩

theorem sameBinding_commit (r : Interval) (s : State) : SameBinding s (commit r s) := ⟨rfl, rfl, rfl, rfl, rfl⟩

theorem BinInterval.sameBinding {s t : State} (h : BinInterval s t) : SameBinding s t := by
  cases h with
  | lps w r _ _ _ ht => exact (sameBinding_commit r s).trans ht.sameBinding
  | upper w r _ _ _ ht => exact (sameBinding_commit r s).trans ht.sameBinding
  | bypass r v _ _ ht => exact (sameBinding_commit _ s).trans ht.sameBinding
  | stay ht => exact ht.sameBinding

/-- The cursor stays within the valid bits and moves by at most 32. -/
structure CursorMoved (s t : State) : Prop where
  bound : t.bitOffset.toNat ≤ s.maxBitOffset.toNat
  near : t.bitOffset.toNat ≤ s.bitOffset.toNat + 32

theorem cursorMoved_commit {s t : State} {th rng val v w : Word} {r : Interval} {d : Nat}
    (hb : s.bitOffset.toNat ≤ s.maxBitOffset.toNat) (hr : renormBelow th rng val s = .ok r)
    (ht : SameDecoder (commit ⟨v, w, r.adv, d⟩ s) t) : CursorMoved s t := by
  obtain ⟨hfit, hadv⟩ := renormBelow_adv hr hb
  have hoff : t.bitOffset.toNat = s.bitOffset.toNat + r.adv := by
    rw [ht.bitOffset]
    exact toNat_bitOffset_add hfit
  exact ⟨by omega, by omega⟩

theorem BinInterval.cursorMoved {s t : State} (h : BinInterval s t)
    (hb : s.bitOffset.toNat ≤ s.maxBitOffset.toNat) : CursorMoved s t := by
  cases h with
  | lps w r _ _ hr ht => exact cursorMoved_commit hb hr ht
  | upper w r _ _ hr ht => exact cursorMoved_commit hb hr ht
  | bypass r v hr _ ht => exact cursorMoved_commit hb hr ht
  | stay ht => exact ⟨by rw [ht.bitOffset]; exact hb, by rw [ht.bitOffset]; omega⟩

/-- A bin command leaves the binding, whatever its status. -/
theorem sameBinding_of_binCommand {i : Instr} {s t : State} (hi : isBinCommand i = true) (h : Effect s i t) :
    SameBinding s t :=
  binCommand_keeps hi h (SameDecoder.refl s).sameBinding (fun _ _ htt' ht => ht.trans htt'.sameBinding)
    fun _ _ _ ht hb => ht.trans (binInterval_of_binStep hb).sameBinding

/-! ## What a command leaves of the decoder -/

/-- 60_exceptions.md R273: no rejection aborts the unit. -/
theorem abortsUnit_of_mem_rejection {i : Instr} {e : CmdError} (h : e ∈ rejection i) : abortsUnit e = false := by
  cases i <;> simp only [rejection, List.mem_cons, List.not_mem_nil, or_false] at h
  case ctInit => rcases h with rfl | rfl | rfl <;> rfl
  all_goals subst h; rfl

theorem raiseError_phase_of_not_abort {e : CmdError} (h : abortsUnit e = false) (s : State) :
    (raiseError e s).phase = s.phase := by simp [h]

theorem decoderReadable_of_phaseActive {s : State} (h : phaseActive s = true) : decoderReadable s = true := by
  simp [decoderReadable, h]

theorem phaseActive_of_contextBinAdmitted {s : State} (h : contextBinAdmitted s = true) : phaseActive s = true :=
  (Bool.and_eq_true_iff.1 h).1

/-- A bin command finds the decoder active, or is refused. -/
theorem binCommand_cases {i : Instr} {s t : State} (hi : isBinCommand i = true) (h : Effect s i t) :
    phaseActive s = true ∨ ∃ e, abortsUnit e = false ∧ t = raiseError e s := by
  cases h with
  | notAdmitted => exact .inr ⟨_, rfl, rfl⟩
  | outOfRange => exact .inr ⟨_, rfl, rfl⟩
  | rejected _ e _ _ he => exact .inr ⟨e, abortsUnit_of_mem_rejection he, rfl⟩
  | adBin _ _ _ ha => exact .inl (phaseActive_of_contextBinAdmitted ha)
  | adBinAborted _ ha => exact .inl (phaseActive_of_contextBinAdmitted ha)
  | adTerm _ ha => exact .inl ha
  | adTermLast ha => exact .inl ha
  | adTermAborted ha => exact .inl ha
  | adByp _ _ ha => exact .inl ha
  | adBypAborted ha => exact .inl ha
  | adBypn _ _ _ _ ha => exact .inl ha
  | adBypnAborted _ _ _ ha => exact .inl ha
  | adBypu _ _ _ ha => exact .inl ha
  | adBypuAborted _ _ ha => exact .inl ha
  | rbDecode _ _ _ _ _ _ _ ha => exact .inl (phaseActive_of_contextBinAdmitted ha)
  | rbDecodeAborted _ _ _ _ _ _ ha => exact .inl (phaseActive_of_contextBinAdmitted ha)
  | _ => cases hi

/-- AD.INIT that fits (42_arithmetic_decoder.md R175). -/
def primedState (s : State) : State :=
  { commit ⟨rangeInit, bitsAt s s.bitOffset.toNat initPeek, initFlush,
      drawsAfter s s.bitOffset.toNat initPeek⟩ s with phase := .ready }

/-- A command that decodes no bin leaves the decoder unreadable, primes it, or changes nothing of it. -/
theorem otherCommand_cases {i : Instr} {s t : State} (hi : isBinCommand i = false) (h : Effect s i t) :
    decoderReadable t = false ∨
    (s.bitOffset.toNat + 9 ≤ s.maxBitOffset.toNat ∧ t = complete 0 (primedState s)) ∨
    (SameDecoder s t ∧ t.phase = s.phase) := by
  have hconsume (ha : consumeAdmitted s = true) : decoderReadable s = false := by
    obtain ⟨-, hphase | hphase⟩ := consumeAdmitted_eq_true_iff.1 ha <;>
      simp [decoderReadable, phaseActive, hphase]
  cases h with
  | notAdmitted => exact .inr (.inr ⟨sameDecoder_raiseError _ s, raiseError_phase_of_not_abort rfl s⟩)
  | outOfRange => exact .inr (.inr ⟨sameDecoder_raiseError _ s, raiseError_phase_of_not_abort rfl s⟩)
  | rejected _ e _ _ he =>
    exact .inr (.inr ⟨sameDecoder_raiseError _ s, raiseError_phase_of_not_abort (abortsUnit_of_mem_rejection he) s⟩)
  | reset => exact .inl rfl
  | bcOpen => exact .inl rfl
  | bcRdbit ha => exact .inl (hconsume ha)
  | bcRdbits _ _ ha => exact .inl (hconsume ha)
  | bcFlush _ ha => exact .inl (hconsume ha)
  | adInit _ hf => exact .inr (.inl ⟨hf, rfl⟩)
  | adInitAborted => exact .inl rfl
  | adRealign => exact .inl rfl
  | adRealignAborted => exact .inl rfl
  | nop => exact .inr (.inr ⟨sameDecoder_complete _ s, rfl⟩)
  | rdreg => exact .inr (.inr ⟨sameDecoder_complete _ s, rfl⟩)
  | bcPeek => exact .inr (.inr ⟨⟨rfl, rfl, rfl, rfl, rfl, rfl, rfl, rfl⟩, rfl⟩)
  | bcAligned => exact .inr (.inr ⟨sameDecoder_complete _ s, rfl⟩)
  | bcMore => exact .inr (.inr ⟨sameDecoder_complete _ s, rfl⟩)
  | ctInit => exact .inr (.inr ⟨⟨rfl, rfl, rfl, rfl, rfl, rfl, rfl, rfl⟩, rfl⟩)
  | ctGet => exact .inr (.inr ⟨sameDecoder_complete _ s, rfl⟩)
  | _ => cases hi

end Sys2Proof.Machine

/-! The interval between commands and between bins (42_arithmetic_decoder.md section 6, 10_state.md R45):
renormalisation is exact, the width stays an aligned 9-bit number, the value stays below it, and its low bits stay the
stream's. -/

namespace Sys2Proof.Machine

open Sys2Proof.Claims Sys2Proof.Safety

/-! ## Renormalisation -/

theorem renorm_of_fits {rng : Word} {s : State} (h : s.bitOffset.toNat + clz32 rng ≤ s.maxBitOffset.toNat)
    (val : Word) : renorm rng val s = .ok (renormalised rng val s) := if_pos (decide_eq_true h)

/-- New bits under a shifted value that loses none of its own. -/
theorem splice_toNat {val bits : Word} {z : Nat} (hv : val.toNat * 2 ^ z < 2 ^ 32) (hb : bits.toNat < 2 ^ z) :
    (val <<< z ||| bits).toNat = val.toNat * 2 ^ z + bits.toNat := by
  rw [BitVec.toNat_or, BitVec.toNat_shiftLeft, Nat.shiftLeft_eq, Nat.mod_eq_of_lt hv, Nat.mul_comm,
    ← Nat.two_pow_add_eq_or_of_lt hb]

theorem ne_zero_of_lt {val rng : Word} (h : val < rng) : rng ≠ 0 := by
  rintro rfl
  exact absurd (BitVec.lt_def.1 h) (Nat.not_lt_zero _)

/-- 42_arithmetic_decoder.md R203: below `rng` the value loses no bit, and stays below the new range. -/
theorem renormalised_value {rng val : Word} (h : val < rng) (s : State) :
    (renormalised rng val s).value.toNat =
      val.toNat * 2 ^ clz32 rng + (bitsAt s (s.bitOffset.toNat + 23) (clz32 rng)).toNat ∧
    (renormalised rng val s).value < (renormalised rng val s).range := by
  have hrange := toNat_shiftLeft_clz32 (ne_zero_of_lt h)
  have hbits := bitsAt_lt s (s.bitOffset.toNat + 23) (clz32_le rng)
  have hlt : (val.toNat + 1) * 2 ^ clz32 rng ≤ rng.toNat * 2 ^ clz32 rng := Nat.mul_le_mul_right _ (BitVec.lt_def.1 h)
  rw [Nat.add_mul, Nat.one_mul] at hlt
  have hword := (rng <<< clz32 rng).isLt
  have hvalue : (renormalised rng val s).value.toNat =
      val.toNat * 2 ^ clz32 rng + (bitsAt s (s.bitOffset.toNat + 23) (clz32 rng)).toNat :=
    splice_toNat (by omega) hbits
  refine ⟨hvalue, BitVec.lt_def.2 ?_⟩
  rw [hvalue]
  change _ < (rng <<< clz32 rng).toNat
  omega

theorem renormBelow_value_lt {th rng val : Word} {s : State} {r : Interval} (h : val < rng)
    (hr : renormBelow th rng val s = .ok r) : r.value < r.range := by
  rcases renormBelow_cases th rng val s with ⟨_, e⟩ | ⟨_, _, e⟩ | ⟨_, _, e⟩ <;> rw [e] at hr <;> cases hr
  · exact h
  · exact (renormalised_value h s).2

/-! ## The width -/

theorem clz32_lt_renormT {rng : Word} (h : rng < renormT) : 24 ≤ clz32 rng := by
  by_contra hz
  exact absurd (clz32_le_23_iff.1 (by omega)) (BitVec.not_le.2 h)

/-- A width left-aligned by at least 23 places is aligned. -/
theorem rangeAligned_shiftLeft_clz32 {rng : Word} (h0 : rng ≠ 0) (hz : 23 ≤ clz32 rng) :
    RangeAligned (rng <<< clz32 rng) := by
  have hclz := clz32_shiftLeft_clz32 h0
  exact rangeAligned_of_mul (toNat_shiftLeft_clz32 h0) (clz32_le_23_iff.1 (by omega)) (by omega)

/-- A nonzero sub-interval of an aligned interval is aligned once it is renormalised. -/
theorem renormBelow_rangeAligned {z q : Nat} {rng val : Word} {s : State} {r : Interval} (hz : z ≤ clz32 rng)
    (h0 : rng ≠ 0) (he : rng.toNat = q * 2 ^ (23 - z)) (hr : renormBelow renormT rng val s = .ok r) :
    RangeAligned r.range := by
  rcases renormBelow_cases renormT rng val s with ⟨hge, e⟩ | ⟨hlt, _, e⟩ | ⟨_, _, e⟩ <;> rw [e] at hr <;> cases hr
  · exact rangeAligned_of_mul he (BitVec.not_lt.1 hge) (by change 23 - clz32 rng ≤ 23 - z; omega)
  · exact rangeAligned_shiftLeft_clz32 h0 (by have := clz32_lt_renormT hlt; omega)

theorem ne_zero_of_rangeAligned {r : Word} (h : RangeAligned r) : r ≠ 0 := by
  rintro rfl
  exact absurd (BitVec.le_def.1 h.1) (by decide)

theorem clz32_le_of_rangeAligned {r : Word} (h : RangeAligned r) : clz32 r ≤ 23 := clz32_le_23_iff.2 h.1

theorem clz32_of_lt_bypassT {r : Word} (h : RangeAligned r) (hlt : r < bypassT) : clz32 r = 23 :=
  clz32_eq_of_bounds (by decide) (BitVec.le_def.1 h.1) (BitVec.lt_def.1 hlt)

/-- 42_arithmetic_decoder.md R186: what a bypass bin halves is aligned and at least 0x200. -/
theorem renormBelow_bypassT {rng val : Word} {s : State} {r : Interval} (h : RangeAligned rng)
    (hr : renormBelow bypassT rng val s = .ok r) : RangeAligned r.range ∧ bypassT ≤ r.range := by
  rcases renormBelow_cases bypassT rng val s with ⟨hge, e⟩ | ⟨hlt, _, e⟩ | ⟨_, _, e⟩ <;> rw [e] at hr <;> cases hr
  · exact ⟨h, BitVec.not_lt.1 hge⟩
  · have h0 := ne_zero_of_rangeAligned h
    have hz : 23 ≤ clz32 rng := (clz32_of_lt_bypassT h hlt).ge
    refine ⟨rangeAligned_shiftLeft_clz32 h0 hz, BitVec.le_def.2 ?_⟩
    have hclz := clz32_shiftLeft_clz32 h0
    obtain ⟨-, hlow, -⟩ := clz32_spec (ne_zero_of_rangeAligned (rangeAligned_shiftLeft_clz32 h0 hz))
    rw [hclz] at hlow
    exact le_trans (by decide) hlow

/-- Half of an aligned width of at least 0x200 is aligned, and a multiple of the unit one place down. -/
theorem half_rangeAligned {r : Word} (h : RangeAligned r) (h2 : bypassT ≤ r) :
    RangeAligned (r >>> 1) ∧ clz32 (r >>> 1) = clz32 r + 1 ∧ r.toNat = 2 * (r >>> 1).toNat := by
  obtain ⟨heven, hclz⟩ := half_toNat h h2
  have hle : (0x100 : Word) ≤ r >>> 1 := BitVec.le_def.2 (by
    have := BitVec.le_def.1 h2
    change 0x200 ≤ r.toNat at this
    change 0x100 ≤ _
    omega)
  have hz : clz32 (r >>> 1) ≤ 23 := clz32_le_23_iff.2 hle
  obtain ⟨q, -, -, -, hq⟩ := rangeAligned_iff.1 h
  refine ⟨⟨hle, ?_⟩, hclz, heven⟩
  have hhalf : (r >>> 1).toNat = q * 2 ^ (23 - clz32 (r >>> 1)) := by
    rw [hq, show 23 - clz32 r = 23 - clz32 (r >>> 1) + 1 by omega, Nat.pow_succ, ← Nat.mul_assoc] at heven
    omega
  rw [hhalf, Nat.mul_mod_left]

/-- An LPS width of a well-formed TRANS, or the terminal width, is 1 to 255 (42_arithmetic_decoder.md R172). -/
theorem lpsWidth_bounds {p : Params} (hwf : transWf p) {w : Word}
    (hw : (∃ k : Fin 256, w = p.trans[k].lps8.setWidth 32) ∨ w = termWidth) : 1 ≤ w.toNat ∧ w.toNat < 256 := by
  rcases hw with ⟨k, rfl⟩ | rfl
  · have hne : p.trans[k].lps8.toNat ≠ 0 := fun h => hwf k (BitVec.eq_of_toNat_eq h)
    have hlt := p.trans[k].lps8.isLt
    rw [BitVec.toNat_setWidth_of_le (by omega)]
    omega
  · decide

/-- 42_arithmetic_decoder.md R200: a single bin leaves an aligned range. -/
theorem BinInterval.rangeAligned {s t : State} (h : BinInterval s t) (hwf : transWf s.params)
    (hs : RangeAligned s.range) : RangeAligned t.range := by
  cases h with
  | lps w r hw _ hr ht =>
    obtain ⟨h1, h2⟩ := lpsWidth_bounds hwf (.inl hw)
    obtain ⟨-, h0, hz, -⟩ := sub_scaled hs h1 h2
    rw [ht.range]
    exact renormBelow_rangeAligned hz h0 (scaled_toNat (clz32_le_of_rangeAligned hs) (by omega)) hr
  | upper w r hw hlt hr ht =>
    obtain ⟨h1, h2⟩ := lpsWidth_bounds hwf hw
    obtain ⟨-, -, -, hz, q, -, hq⟩ := sub_scaled hs h1 h2
    rw [ht.range]
    exact renormBelow_rangeAligned hz (ne_zero_of_lt hlt) hq hr
  | bypass r v hr _ ht =>
    obtain ⟨ha, h2⟩ := renormBelow_bypassT hs hr
    rw [ht.range]
    exact (half_rangeAligned ha h2).1
  | stay ht => rwa [ht.range]

/-! ## The value -/

/-- 42_arithmetic_decoder.md R201: a single bin leaves the value below an aligned range. -/
theorem BinInterval.valueBelowRange {s t : State} (h : BinInterval s t) (hwf : transWf s.params)
    (hs : RangeAligned s.range) (hv : ValueBelowRange s) : ValueBelowRange t := by
  unfold ValueBelowRange at *
  cases h with
  | lps w r hw hle hr ht =>
    obtain ⟨h1, h2⟩ := lpsWidth_bounds hwf (.inl hw)
    obtain ⟨hlt, -⟩ := sub_scaled hs h1 h2
    rw [ht.range, ht.value]
    refine renormBelow_value_lt (BitVec.lt_def.2 ?_) hr
    rw [BitVec.toNat_sub_of_le hle]
    rw [BitVec.le_def, BitVec.toNat_sub_of_le (BitVec.le_of_lt hlt)] at hle
    rw [BitVec.toNat_sub_of_le (BitVec.le_of_lt hlt)]
    rw [BitVec.lt_def] at hlt hv
    omega
  | upper w r _ hlt hr ht =>
    rw [ht.range, ht.value]
    exact renormBelow_value_lt hlt hr
  | bypass r v hr hcase ht =>
    obtain ⟨ha, h2⟩ := renormBelow_bypassT hs hr
    obtain ⟨-, -, heven⟩ := half_rangeAligned ha h2
    have hbelow := BitVec.lt_def.1 (renormBelow_value_lt hv hr)
    rw [ht.range, ht.value]
    rcases hcase with ⟨hle, rfl⟩ | ⟨hlt, rfl⟩
    · refine BitVec.lt_def.2 ?_
      change (r.value - r.range >>> 1).toNat < (r.range >>> 1).toNat
      rw [BitVec.toNat_sub_of_le hle]
      omega
    · exact hlt
  | stay ht => rwa [ht.range, ht.value]

/-- A longer read of the same position has the shorter one on top (20_memory.md R64). -/
theorem bitsAt_shiftRight (s : State) (p n m : Nat) (h : n + m ≤ 32) :
    bitsAt s p (n + m) >>> m = bitsAt s p n := by
  apply BitVec.eq_of_getLsbD_eq
  intro i hi
  rw [BitVec.getLsbD_ushiftRight, bitsAt_getLsbD s p h, bitsAt_getLsbD s p (by omega),
    show n + m - 1 - (m + i) = n - 1 - i by omega]
  simp [show m + i < n + m ↔ i < n by omega]

/-- 42_arithmetic_decoder.md R201: the first 32 bits are below the initial range where their first 9 are at most 509. -/
theorem bitsAt_lt_rangeInit_iff (s : State) (p : Nat) : bitsAt s p 32 < rangeInit ↔ (bitsAt s p 9).toNat ≤ 509 := by
  have hinit : rangeInit.toNat = 510 * 2 ^ 23 := rfl
  have hshift : bitsAt s p 32 >>> 23 = bitsAt s p 9 := bitsAt_shiftRight s p 9 23 (by decide)
  rw [← hshift, BitVec.toNat_ushiftRight, Nat.shiftRight_eq_div_pow, BitVec.lt_def, hinit]
  omega

/-! ## The read-ahead -/

/-- The low k bits of a value at a cursor position are the stream's bits ahead of it, inside BUF (10_state.md R45). -/
def Mirrors (s : State) (off : Nat) (value : Word) (k : Nat) : Prop :=
  ∀ j, j < k → off + 22 - j < 32 * s.params.bufWords → value.getLsbD j = bitAt s (off + 22 - j) 0

/-- 10_state.md R45, whatever the phase. -/
def ReadAhead (s : State) : Prop :=
  s.bufRewritten = false → Mirrors s s.bitOffset.toNat s.value (23 - clz32 s.range)

theorem Mirrors.mono {s : State} {off k k' : Nat} {value : Word} (h : Mirrors s off value k) (hk : k' ≤ k) :
    Mirrors s off value k' := fun j hj => h j (by omega)

/-- A position inside BUF reads the same in states with the same stream. -/
theorem bitAt_inside_congr {s t : State} {p : Nat} (hbuf : t.buf = s.buf) (hparams : t.params = s.params)
    (hs : s.bufRewritten = false) (ht : t.bufRewritten = false) (hp : p < 32 * s.params.bufWords) (k k' : Nat) :
    bitAt t p k = bitAt s p k' := by
  rw [bitAt_of_lt hs hp, bitAt_of_lt ht (hparams ▸ hp)]
  simp only [bufWord, bufByte, hbuf, hparams]

theorem Mirrors.congr {s t : State} {off k : Nat} {value : Word} (h : Mirrors s off value k) (hbuf : t.buf = s.buf)
    (hparams : t.params = s.params) (hs : s.bufRewritten = false) (ht : t.bufRewritten = false) :
    Mirrors t off value k := by
  intro j hj hin
  rw [hparams] at hin
  rw [h j hj hin, bitAt_inside_congr hbuf hparams hs ht hin 0 0]

/-- Subtracting a multiple of 2^k leaves the low k bits as they were. -/
theorem getLsbD_sub_of_multiple {v x : Word} {k j : Nat} (hle : x ≤ v) (hx : x.toNat % 2 ^ k = 0) (hj : j < k) :
    (v - x).getLsbD j = v.getLsbD j := by
  obtain ⟨m, hm⟩ := Nat.dvd_of_mod_eq_zero hx
  have hle := BitVec.le_def.1 hle
  have hlow : (v - x).toNat % 2 ^ k = v.toNat % 2 ^ k := by
    rw [BitVec.toNat_sub_of_le (BitVec.le_def.2 hle), hm]
    exact Nat.sub_mul_mod (by omega)
  have hbit (y : Word) : y.getLsbD j = (y.toNat % 2 ^ k).testBit j := by
    rw [Nat.testBit_mod_two_pow, BitVec.testBit_toNat]
    simp [hj]
  rw [hbit, hbit, hlow]

theorem Mirrors.sub {s : State} {off k : Nat} {v x : Word} (h : Mirrors s off v k) (hle : x ≤ v)
    (hx : x.toNat % 2 ^ k = 0) : Mirrors s off (v - x) k :=
  fun j hj hin => (getLsbD_sub_of_multiple hle hx hj).trans (h j hj hin)

/-- The last bits read into a word mirror the stream behind a cursor that has passed them all. -/
theorem mirrors_splice {s : State} {off n k : Nat} {hi : Word} (hr : s.bufRewritten = false) (hn : n ≤ 32)
    (hkn : k ≤ n) : Mirrors s (off + n) (hi <<< n ||| bitsAt s (off + 23) n) k := by
  intro j hj hin
  have hpos : off + 23 + (n - 1 - j) = off + n + 22 - j := by omega
  rw [BitVec.getLsbD_or, BitVec.getLsbD_shiftLeft, bitsAt_getLsbD s _ hn, hpos,
    bitAt_inside_congr rfl rfl hr hr hin (n - 1 - j) 0]
  simp [show j < n by omega]

/-- A renormalisation keeps the mirror, or replaces every bit of it. -/
theorem renormBelow_mirrors {th rng val : Word} {s : State} {r : Interval} (hr : renormBelow th rng val s = .ok r)
    (hb : s.bufRewritten = false) (hth : rng < th → 23 ≤ clz32 rng)
    (hm : Mirrors s s.bitOffset.toNat val (23 - clz32 rng)) :
    Mirrors s (s.bitOffset.toNat + r.adv) r.value (23 - clz32 r.range) := by
  rcases renormBelow_cases th rng val s with ⟨_, e⟩ | ⟨hlt, _, e⟩ | ⟨_, _, e⟩ <;> rw [e] at hr <;> cases hr
  · exact hm
  · exact mirrors_splice hb (clz32_le rng) (le_trans (Nat.sub_le 23 _) (hth hlt))

theorem readAhead_congr {s t : State} (h : SameDecoder s t) (hs : ReadAhead s) : ReadAhead t := by
  intro ht
  have hb : s.bufRewritten = false := h.bufRewritten.symm.trans ht
  rw [h.bitOffset, h.value, h.range]
  exact (hs hb).congr h.buf h.params hb ht

theorem readAhead_commit {s : State} {th rng val v w : Word} {r : Interval} {d : Nat}
    (hb : s.bitOffset.toNat ≤ s.maxBitOffset.toNat) (hr : renormBelow th rng val s = .ok r)
    (hm : s.bufRewritten = false → Mirrors s (s.bitOffset.toNat + r.adv) w (23 - clz32 v)) :
    ReadAhead (commit ⟨v, w, r.adv, d⟩ s) := by
  intro hbuf
  have hoff : (s.bitOffset + BitVec.ofNat 32 r.adv).toNat = s.bitOffset.toNat + r.adv :=
    toNat_bitOffset_add (renormBelow_adv hr hb).1
  rw [commit_bitOffset, hoff]
  exact (hm hbuf).congr rfl rfl hbuf hbuf

/-- 10_state.md R45: a single bin keeps the read-ahead. -/
theorem BinInterval.readAhead {s t : State} (h : BinInterval s t) (hwf : transWf s.params) (hs : RangeAligned s.range)
    (hb : s.bitOffset.toNat ≤ s.maxBitOffset.toNat) (hra : ReadAhead s) : ReadAhead t := by
  cases h with
  | lps w r hw hle hr ht =>
    obtain ⟨h1, h2⟩ := lpsWidth_bounds hwf (.inl hw)
    obtain ⟨-, -, hz, -, q, -, hq⟩ := sub_scaled hs h1 h2
    refine readAhead_congr ht (readAhead_commit hb hr fun hbuf => ?_)
    refine renormBelow_mirrors hr hbuf (fun hlt => by have := clz32_lt_renormT hlt; omega) ?_
    exact ((hra hbuf).sub hle (by rw [hq, Nat.mul_mod_left])).mono (by omega)
  | upper w r hw hlt hr ht =>
    obtain ⟨h1, h2⟩ := lpsWidth_bounds hwf hw
    obtain ⟨-, -, -, hz, -⟩ := sub_scaled hs h1 h2
    refine readAhead_congr ht (readAhead_commit hb hr fun hbuf => ?_)
    refine renormBelow_mirrors hr hbuf (fun hlt => by have := clz32_lt_renormT hlt; omega) ?_
    exact (hra hbuf).mono (by omega)
  | bypass r v hr hcase ht =>
    obtain ⟨ha, h2⟩ := renormBelow_bypassT hs hr
    obtain ⟨hhalf, hclz, -⟩ := half_rangeAligned ha h2
    refine readAhead_congr ht (readAhead_commit hb hr fun hbuf => ?_)
    have hm := renormBelow_mirrors hr hbuf (fun hlt => (clz32_of_lt_bypassT hs hlt).ge) (hra hbuf)
    have hm' : Mirrors s (s.bitOffset.toNat + r.adv) r.value (23 - clz32 (r.range >>> 1)) := hm.mono (by omega)
    rcases hcase with ⟨hle, rfl⟩ | ⟨-, rfl⟩
    · exact hm'.sub hle hhalf.2
    · exact hm'
  | stay ht => exact readAhead_congr ht hra

end Sys2Proof.Machine

/-! The invariants of 10_state.md, 40_bitcursor.md and 42_arithmetic_decoder.md: each is a condition that every effect
of a command and every action of the host keeps. -/

namespace Sys2Proof.Machine

open Sys2Proof.Claims Sys2Proof.Safety

/-! ## What bin commands leave -/

/-- All but the decoder's registers, the contexts, the output block and the record of the command are as they were. -/
def BinCommandFrame (s t : State) : Prop :=
  t = { s with
    range := t.range, value := t.value, bitOffset := t.bitOffset, ctx := t.ctx, phase := t.phase, draws := t.draws,
    outCbf := t.outCbf, outNLevels := t.outNLevels, outSig := t.outSig, outLevel := t.outLevel, outValid := t.outValid,
    lastErr := t.lastErr, response := t.response }

theorem BinCommandFrame.trans {s t u : State} (h : BinCommandFrame s t) (k : BinCommandFrame t u) :
    BinCommandFrame s u := by
  unfold BinCommandFrame at *
  rw [k, h]

theorem BinFrame.command {s t : State} (h : BinFrame s t) : BinCommandFrame s t := by
  rw [h]
  rfl

theorem binCommandFrame_raiseError (e : CmdError) (s : State) : BinCommandFrame s (raiseError e s) := rfl

theorem binCommandFrame_complete (v : Word) (s : State) : BinCommandFrame s (complete v s) := rfl

theorem binCommandFrame_hideOutputs (s : State) : BinCommandFrame s { s with outValid := false } := rfl

theorem BlockResult.command {cat : BlockCat} {inferred : Bool} {u t : State} {v : Word}
    (h : BlockResult cat inferred u t v) : BinCommandFrame u t := by
  rcases h with ⟨-, rfl, -⟩ | ⟨t', rfl, sig, ls, rfl, -⟩ <;> rfl

/-- A terminal bin is in the frame of a bin. -/
theorem binFrame_terminal {s u : State} {b : Bool} (h : decodeTerminal s = .ok b u) : BinFrame s u := by
  rcases decodeTerminal_cases s with ⟨_, e⟩ | ⟨_, ⟨r, _, e⟩ | ⟨_, e⟩⟩ <;> rw [e] at h <;> cases h
  · exact rfl
  · exact binFrame_commit r s

/-- The state after a bin command that is no RB.DECODE: refused where it stood, or the record of an error or of a
completion on what its bins left. -/
inductive BinEnd (s : State) : State → Prop
  | error (e : CmdError) (u : State) (h : BinFrame s u) : BinEnd s (raiseError e u)
  | done (v : Word) (u : State) (h : BinFrame s u) : BinEnd s (complete v u)

/-- The state after RB.DECODE: refused, or its result on what its bins left. -/
inductive BlockEnd (cat : BlockCat) (inferred : Bool) (s : State) : State → Prop
  | refused (e : CmdError) (hkeep : abortsUnit e = false) : BlockEnd cat inferred s (raiseError e s)
  | exhausted (u : State) (h : BinsFrom { s with outValid := false } u) :
      BlockEnd cat inferred s (raiseError (exhausted 0x04) (loseBlock u))
  | done (u t : State) (v : Word) (h : BinsFrom { s with outValid := false } u) (hr : BlockResult cat inferred u t v) :
      BlockEnd cat inferred s (complete v t)

theorem binEnd_of_effect {i : Instr} {s t : State} (hi : isBinCommand i = true)
    (hrb : ∀ cat left top fld inf, i ≠ .rbDecode cat left top fld inf) (h : Effect s i t) : BinEnd s t := by
  have hdone (v : Word) {u : State} (hu : BinFrame s u) : BinEnd s (complete v (setDecoding u)) :=
    .done v _ (hu.trans (binFrame_setDecoding u))
  cases h with
  | notAdmitted => exact .error _ s (.refl s)
  | outOfRange => exact .error _ s (.refl s)
  | rejected => exact .error _ s (.refl s)
  | adBin idx b u _ h => exact hdone _ ((binsFrom_regular _ _ (.refl s)).of_ok h).1
  | adBinAborted => exact .error _ s (.refl s)
  | adTerm u _ h => exact hdone _ (binFrame_terminal h)
  | adTermLast => exact .done _ { s with phase := .terminated } rfl
  | adTermAborted => exact .error _ s (.refl s)
  | adByp b u _ h => exact hdone _ ((binsFrom_bypass (.refl s)).of_ok h).1
  | adBypAborted => exact .error _ s (.refl s)
  | adBypn n _ v u _ h => exact hdone _ ((bypassBits_binsFrom _ _ s).of_ok h).1
  | adBypnAborted n _ u _ h => exact .error _ u ((bypassBits_binsFrom _ _ s).of_err h).1.1
  | adBypu n c u _ h => exact hdone _ ((bypassUnary_binsFrom _ _ s).of_ok h).1
  | adBypuAborted n u _ h => exact .error _ u ((bypassUnary_binsFrom _ _ s).of_err h).1.1
  | rbDecode cat left top fld inferred => exact absurd rfl (hrb cat left top fld inferred)
  | rbDecodeAborted cat left top fld inferred => exact absurd rfl (hrb cat left top fld inferred)
  | _ => cases hi

theorem blockEnd_of_effect {cat : BlockCat} {left top fld inferred : Bool} {s t : State}
    (h : Effect s (.rbDecode cat left top fld inferred) t) : BlockEnd cat inferred s t := by
  cases h with
  | notAdmitted => exact .refused _ rfl
  | outOfRange => exact .refused _ rfl
  | rejected _ e _ _ he => exact .refused e (abortsUnit_of_mem_rejection he)
  | rbDecode _ _ _ _ _ v u _ hok h =>
    obtain ⟨w, hw, hres⟩ := (decodeBlock_binsFrom hok).of_ok h
    exact .done w u v hw hres
  | rbDecodeAborted _ _ _ _ _ u _ hok h =>
    obtain ⟨w, hw, rfl⟩ := (decodeBlock_binsFrom hok).of_err h
    exact .exhausted w hw.1

theorem BinEnd.command {s t : State} (h : BinEnd s t) : BinCommandFrame s t := by
  cases h with
  | error e u h => exact h.command.trans (binCommandFrame_raiseError e u)
  | done v u h => exact h.command.trans (binCommandFrame_complete v u)

theorem BlockEnd.command {cat : BlockCat} {inferred : Bool} {s t : State} (h : BlockEnd cat inferred s t) :
    BinCommandFrame s t := by
  cases h with
  | refused e => exact binCommandFrame_raiseError e s
  | exhausted u h =>
    exact (binCommandFrame_hideOutputs s).trans (h.1.command.trans rfl)
  | done u t v h hr =>
    exact (binCommandFrame_hideOutputs s).trans (h.1.command.trans (hr.command.trans (binCommandFrame_complete v t)))

/-- Every bin command, whatever its status, is in the frame of bin commands. -/
theorem binCommandFrame_of_effect {i : Instr} {s t : State} (hi : isBinCommand i = true) (h : Effect s i t) :
    BinCommandFrame s t := by
  by_cases hrb : ∃ cat left top fld inf, i = .rbDecode cat left top fld inf
  · obtain ⟨cat, left, top, fld, inf, rfl⟩ := hrb
    exact (blockEnd_of_effect h).command
  · exact (binEnd_of_effect hi (fun cat left top fld inf hi => hrb ⟨cat, left, top, fld, inf, hi⟩) h).command

/-! ## The output block -/

/-- The output block is as it was. -/
structure SameOutputs (s t : State) : Prop where
  outCbf : t.outCbf = s.outCbf
  outNLevels : t.outNLevels = s.outNLevels
  outSig : t.outSig = s.outSig
  outLevel : t.outLevel = s.outLevel
  outValid : t.outValid = s.outValid

theorem BinFrame.sameOutputs {s t : State} (h : BinFrame s t) : SameOutputs s t := by
  rw [h]
  exact ⟨rfl, rfl, rfl, rfl, rfl⟩

theorem BinEnd.sameOutputs {s t : State} (h : BinEnd s t) : SameOutputs s t := by
  cases h with
  | error e u h => exact ⟨h.sameOutputs.1, h.sameOutputs.2, h.sameOutputs.3, h.sameOutputs.4, h.sameOutputs.5⟩
  | done v u h => exact ⟨h.sameOutputs.1, h.sameOutputs.2, h.sameOutputs.3, h.sameOutputs.4, h.sameOutputs.5⟩

theorem outputs_mem_writtenBy_iff {i : Instr} :
    .outputs ∈ writtenBy i ↔ i = .reset ∨ ∃ cat left top fld inf, i = .rbDecode cat left top fld inf := by
  cases i <;> simp [writtenBy]

/-- 10_state.md R21: RESET and RB.DECODE alone write the output block. -/
theorem sameOutputs_of_effect {i : Instr} {s t : State} (hi : .outputs ∉ writtenBy i) (h : Effect s i t) :
    SameOutputs s t := by
  rw [outputs_mem_writtenBy_iff, not_or] at hi
  cases hbin : isBinCommand i with
  | true =>
    have hrb cat left top fld inf (hirb : i = .rbDecode cat left top fld inf) := hi.2 ⟨cat, left, top, fld, inf, hirb⟩
    exact (binEnd_of_effect hbin hrb h).sameOutputs
  | false =>
    cases h with
    | reset => exact absurd rfl hi.1
    | adBin | adBinAborted | adTerm | adTermLast | adTermAborted | adByp | adBypAborted | adBypn | adBypnAborted
    | adBypu | adBypuAborted | rbDecode | rbDecodeAborted => cases hbin
    | _ => exact ⟨rfl, rfl, rfl, rfl, rfl⟩

theorem outputConsistent_congr {s t : State} (h : SameOutputs s t) (hs : OutputConsistent s) : OutputConsistent t := by
  unfold OutputConsistent
  rw [h.outValid, h.outSig, h.outNLevels, h.outLevel, h.outCbf]
  exact hs

theorem ne_zero_of_levelOk {w : Word} (h : LevelOk w) : w ≠ 0 := by
  rintro rfl
  exact absurd h.1 (by decide)

/-- The registers that a block with coefficients leaves (43_residual_block.md R225, R232). -/
theorem CodedBlock.outputs {cat : BlockCat} {u t : State} {v : Word} (h : CodedBlock cat u t v) :
    t.outValid = true ∧ t.outCbf = true ∧ 1 ≤ t.outNLevels.toNat ∧ popcount t.outSig = t.outNLevels.toNat ∧
    v = BitVec.ofNat 32 (256 * t.outNLevels.toNat + 1) ∧
    (∀ i, t.outSig.getLsbD i = true → catStart cat ≤ i ∧ i ≤ catLast cat) ∧
    ∀ j : Fin 64, j.val < t.outNLevels.toNat → LevelOk t.outLevel[j] := by
  obtain ⟨sig, ls, rfl, rfl, hpop, hpos, hmax, hbits, hlev⟩ := h
  have hlen : (BitVec.ofNat 7 ls.length).toNat = ls.length := by
    rw [BitVec.toNat_ofNat, Nat.mod_eq_of_lt (by omega)]
  simp only [storeBlock_outValid, storeBlock_outCbf, storeBlock_outNLevels, storeBlock_outSig, storeBlock_outLevel,
    hlen]
  refine ⟨trivial, trivial, hpos, hpop.symm, ?_, hbits, fun j hj => ?_⟩
  · apply BitVec.eq_of_toNat_eq
    have hword : (BitVec.ofNat 32 ls.length).toNat = ls.length := by
      rw [BitVec.toNat_ofNat, Nat.mod_eq_of_lt (by omega)]
    rw [splice_toNat (by rw [hword]; omega) (by decide), hword, BitVec.toNat_ofNat, Nat.mod_eq_of_lt (by omega)]
    simp
    omega
  · rw [levelRegisters_lt j hj]
    exact hlev _ (List.getElem_mem _)

theorem CodedBlock.outputConsistent {cat : BlockCat} {u t : State} {v : Word} (h : CodedBlock cat u t v) :
    OutputConsistent t := by
  obtain ⟨-, hcbf, -, hpop, -, -, hlev⟩ := h.outputs
  exact fun _ => ⟨hpop, fun j hj => ne_zero_of_levelOk (hlev j hj), fun h0 => by rw [hcbf] at h0; cases h0⟩

theorem outputConsistent_storeEmptyBlock (u : State) : OutputConsistent (storeEmptyBlock u) :=
  fun _ => ⟨show popcount 0 = 0 by decide, fun _ hj => absurd hj (Nat.not_lt_zero _), fun _ => ⟨rfl, rfl⟩⟩

theorem BlockResult.outputConsistent {cat : BlockCat} {inferred : Bool} {u t : State} {v : Word}
    (h : BlockResult cat inferred u t v) : OutputConsistent t := by
  rcases h with ⟨-, rfl, -⟩ | ⟨t', rfl, h⟩
  · exact outputConsistent_storeEmptyBlock u
  · exact h.outputConsistent

/-- 10_state.md R39: every command keeps the output block consistent. -/
theorem outputConsistent_of_effect {i : Instr} {s t : State} (hs : OutputConsistent s) (h : Effect s i t) :
    OutputConsistent t := by
  by_cases hi : .outputs ∈ writtenBy i
  · rcases outputs_mem_writtenBy_iff.1 hi with rfl | ⟨cat, left, top, fld, inf, rfl⟩
    · cases h with
      | reset => exact fun h => nomatch h
      | _ => exact hs
    · cases blockEnd_of_effect h with
      | refused => exact hs
      | exhausted u hu => exact fun h => nomatch hu.1.sameOutputs.outValid.symm.trans h
      | done u t v _ hr => exact hr.outputConsistent
  · exact outputConsistent_congr (sameOutputs_of_effect hi h) hs

end Sys2Proof.Machine

/-! The invariants of the cursor and the interval over every step (10_state.md R23, R24, R45; 30_encoding.md R100;
42_arithmetic_decoder.md R200, R201). -/

namespace Sys2Proof.Machine

open Sys2Proof.Claims Sys2Proof.Safety

/-! ## The cursor -/

theorem cursorInBounds_iff {s : State} :
    CursorInBounds s ↔ (s.cursorValid = true →
      s.bitOffset.toNat ≤ s.maxBitOffset.toNat ∧ s.maxBitOffset.toNat ≤ 32 * s.params.bufWords) := Iff.rfl

/-- A cursor that moved within the valid bits of the same binding. -/
theorem cursorInBounds_of_move {s t : State} (hs : CursorInBounds s) (hb : SameBinding s t)
    (hm : s.bitOffset.toNat ≤ s.maxBitOffset.toNat → t.bitOffset.toNat ≤ s.maxBitOffset.toNat) : CursorInBounds t := by
  rw [cursorInBounds_iff] at *
  rw [hb.cursorValid, hb.maxBitOffset, hb.params]
  exact fun hv => ⟨hm (hs hv).1, (hs hv).2⟩

theorem cursorInBounds_congr {s t : State} (h : SameDecoder s t) (hs : CursorInBounds s) : CursorInBounds t :=
  cursorInBounds_of_move hs h.sameBinding fun hb => by rwa [h.bitOffset]

/-- A move that was checked (40_bitcursor.md R122). -/
theorem cursorInBounds_of_fits {s t : State} {n : Nat} (hs : CursorInBounds s) (hb : SameBinding s t)
    (hf : s.bitOffset.toNat + n ≤ s.maxBitOffset.toNat) (ht : t.bitOffset = s.bitOffset + BitVec.ofNat 32 n) :
    CursorInBounds t :=
  cursorInBounds_of_move hs hb fun _ => by rwa [ht, toNat_bitOffset_add hf]

/-- 10_state.md R23, R24: every command keeps the cursor in bounds. -/
theorem cursorInBounds_of_effect {i : Instr} {s t : State} (hs : CursorInBounds s) (h : Effect s i t) :
    CursorInBounds t := by
  cases hbin : isBinCommand i with
  | true =>
    exact binCommand_keeps hbin h hs (fun _ _ hsame => cursorInBounds_congr hsame) fun _ _ _ ht hb =>
      cursorInBounds_of_move ht (binInterval_of_binStep hb).sameBinding
        fun hle => ((binInterval_of_binStep hb).cursorMoved hle).bound
  | false =>
    cases h with
    | reset => exact fun h => nomatch h
    | bcOpen max hmax => exact fun _ => ⟨BitVec.le_def.2 (Nat.zero_le _), hmax⟩
    | bcRdbit _ hf => exact cursorInBounds_of_fits hs ⟨rfl, rfl, rfl, rfl, rfl⟩ hf rfl
    | bcRdbits n _ _ hf => exact cursorInBounds_of_fits hs ⟨rfl, rfl, rfl, rfl, rfl⟩ hf rfl
    | bcFlush n _ hf => exact cursorInBounds_of_fits hs ⟨rfl, rfl, rfl, rfl, rfl⟩ hf rfl
    | adInit _ hf => exact cursorInBounds_of_fits hs ⟨rfl, rfl, rfl, rfl, rfl⟩ hf rfl
    | adRealign _ hf => exact cursorInBounds_of_fits hs ⟨rfl, rfl, rfl, rfl, rfl⟩ hf rfl
    | adBin | adBinAborted | adTerm | adTermLast | adTermAborted | adByp | adBypAborted | adBypn | adBypnAborted
    | adBypu | adBypuAborted | rbDecode | rbDecodeAborted => cases hbin
    | _ => exact hs

/-! ## The phase -/

theorem phaseHasCursor_congr {s t : State} (hc : t.cursorValid = s.cursorValid) (hp : t.phase = s.phase)
    (hs : PhaseHasCursor s) : PhaseHasCursor t := by
  unfold PhaseHasCursor
  rw [hc, hp]
  exact hs

theorem phase_ne_idle_of_phaseActive {s : State} (h : phaseActive s = true) : s.phase ≠ .idle := by
  intro hp
  simp [phaseActive, hp] at h

/-- 30_encoding.md R100: every command keeps that a phase other than IDLE has a bound cursor. -/
theorem phaseHasCursor_of_effect {i : Instr} {s t : State} (hs : PhaseHasCursor s) (h : Effect s i t) :
    PhaseHasCursor t := by
  cases hbin : isBinCommand i with
  | true =>
    rcases binCommand_cases hbin h with hact | ⟨e, hkeep, rfl⟩
    · exact fun _ => (sameBinding_of_binCommand hbin h).cursorValid.trans (hs (phase_ne_idle_of_phaseActive hact))
    · exact phaseHasCursor_congr (s := s) rfl (raiseError_phase_of_not_abort hkeep s) hs
  | false =>
    cases h with
    | notAdmitted => exact phaseHasCursor_congr rfl (raiseError_phase_of_not_abort rfl s) hs
    | outOfRange => exact phaseHasCursor_congr rfl (raiseError_phase_of_not_abort rfl s) hs
    | rejected _ e _ _ he =>
      exact phaseHasCursor_congr (s := s) rfl (raiseError_phase_of_not_abort (abortsUnit_of_mem_rejection he) s) hs
    | reset => exact fun hne => absurd rfl hne
    | bcOpen => exact fun _ => rfl
    | adInit ha => exact fun _ => ha
    | adInitAborted ha => exact fun _ => ha
    | adRealign => exact fun hne => absurd rfl hne
    | adRealignAborted ha => exact fun _ => hs (by rw [ha]; decide)
    | adBin | adBinAborted | adTerm | adTermLast | adTermAborted | adByp | adBypAborted | adBypn | adBypnAborted
    | adBypu | adBypuAborted | rbDecode | rbDecodeAborted => cases hbin
    | _ => exact hs

/-! ## The interval -/

theorem decoderReadable_congr {s t : State} (hp : t.phase = s.phase) : decoderReadable t = decoderReadable s := by
  simp only [decoderReadable, phaseActive, hp]

/-- A condition on the decoder's registers while they are readable that a bin keeps and AD.INIT meets is kept by every
command. -/
theorem readable_keeps {J : State → Prop} {i : Instr} {s t : State} (hs : decoderReadable s = true → J s)
    (h : Effect s i t) (hsame : ∀ t t', SameDecoder t t' → J t → J t') (hstep : ∀ t t' b, J t → BinStep t t' b → J t')
    (hinit : s.bitOffset.toNat + 9 ≤ s.maxBitOffset.toNat → J (primedState s)) : decoderReadable t = true → J t := by
  intro hread
  cases hbin : isBinCommand i with
  | true =>
    rcases binCommand_cases hbin h with hact | ⟨e, hkeep, rfl⟩
    · exact binCommand_keeps hbin h (hs (decoderReadable_of_phaseActive hact)) hsame hstep
    · have hphase := raiseError_phase_of_not_abort hkeep s
      exact hsame _ _ (sameDecoder_raiseError e s) (hs ((decoderReadable_congr hphase).symm.trans hread))
  | false =>
    rcases otherCommand_cases hbin h with hno | ⟨hf, rfl⟩ | ⟨hsd, hphase⟩
    · exact absurd (hno.symm.trans hread) (by decide)
    · exact hsame _ _ (sameDecoder_complete 0 _) (hinit hf)
    · exact hsame s t hsd (hs ((decoderReadable_congr hphase).symm.trans hread))

/-- The interval is aligned under a well-formed TRANS: what every single bin keeps (42_arithmetic_decoder.md R200). -/
def AlignedInterval (s : State) : Prop := transWf s.params ∧ RangeAligned s.range

theorem alignedInterval_congr {s t : State} (h : SameDecoder s t) (hs : AlignedInterval s) : AlignedInterval t := by
  unfold AlignedInterval
  rw [h.params, h.range]
  exact hs

theorem alignedInterval_of_binStep {s t : State} {b : Bool} (hs : AlignedInterval s) (h : BinStep s t b) :
    AlignedInterval t := by
  have hi := binInterval_of_binStep h
  exact ⟨hi.sameBinding.params ▸ hs.1, hi.rangeAligned hs.1 hs.2⟩

theorem rangeAligned_rangeInit : RangeAligned rangeInit := ⟨by decide, by decide⟩

theorem intervalAligned_of_effect {i : Instr} {s t : State} (hwf : transWf s.params) (hs : IntervalAligned s)
    (h : Effect s i t) : IntervalAligned t := fun hread =>
  (readable_keeps (J := AlignedInterval) (fun hr => ⟨hwf, hs hr⟩) h (fun _ _ => alignedInterval_congr)
    (fun _ _ _ => alignedInterval_of_binStep) (fun _ => ⟨hwf, rangeAligned_rangeInit⟩) hread).2

/-- The value is below an aligned range: what every single bin keeps (42_arithmetic_decoder.md R201). -/
theorem valueBelowRange_of_binCommand {i : Instr} {s t : State} (hi : isBinCommand i = true) (hwf : transWf s.params)
    (hs : RangeAligned s.range) (hv : ValueBelowRange s) (h : Effect s i t) : ValueBelowRange t := by
  refine (binCommand_keeps (J := fun u => AlignedInterval u ∧ ValueBelowRange u) hi h ⟨⟨hwf, hs⟩, hv⟩
    (fun u u' hsame hu => ⟨alignedInterval_congr hsame hu.1, ?_⟩)
    fun u u' b hu hb => ⟨alignedInterval_of_binStep hu.1 hb,
      (binInterval_of_binStep hb).valueBelowRange hu.1.1 hu.1.2 hu.2⟩).2
  unfold ValueBelowRange
  rw [hsame.value, hsame.range]
  exact hu.2

/-! ## The read-ahead -/

/-- What a single bin needs and keeps of the read-ahead (10_state.md R45). -/
def ReadAheadInterval (s : State) : Prop :=
  AlignedInterval s ∧ s.bitOffset.toNat ≤ s.maxBitOffset.toNat ∧ ReadAhead s

theorem readAheadInterval_congr {s t : State} (h : SameDecoder s t) (hs : ReadAheadInterval s) :
    ReadAheadInterval t :=
  ⟨alignedInterval_congr h hs.1, by rw [h.bitOffset, h.maxBitOffset]; exact hs.2.1, readAhead_congr h hs.2.2⟩

theorem readAheadInterval_of_binStep {s t : State} {b : Bool} (hs : ReadAheadInterval s) (h : BinStep s t b) :
    ReadAheadInterval t := by
  obtain ⟨halign, hbound, hra⟩ := hs
  have hi := binInterval_of_binStep h
  exact ⟨alignedInterval_of_binStep halign h, by rw [hi.sameBinding.maxBitOffset]; exact (hi.cursorMoved hbound).bound,
    hi.readAhead halign.1 halign.2 hbound hra⟩

/-- AD.INIT reads 32 bits and moves past 9 of them (42_arithmetic_decoder.md R175). -/
theorem readAhead_primedState {s : State} (hf : s.bitOffset.toNat + 9 ≤ s.maxBitOffset.toNat) :
    ReadAhead (primedState s) := by
  intro hb j hj hin
  have hclz : clz32 (primedState s).range = 0 := by
    change clz32 0xFF000000 = 0
    decide
  have hoff : (primedState s).bitOffset.toNat = s.bitOffset.toNat + 9 := toNat_bitOffset_add hf
  rw [hclz] at hj
  rw [hoff] at hin ⊢
  change (bitsAt s s.bitOffset.toNat 32).getLsbD j = _
  have hbit := bitAt_inside_congr (s := s) (t := primedState s) rfl rfl hb hb hin 0 (32 - 1 - j)
  rw [hbit, bitsAt_getLsbD s _ (Nat.le_refl 32),
    show s.bitOffset.toNat + (32 - 1 - j) = s.bitOffset.toNat + 9 + 22 - j by omega]
  simp [show j < 32 by omega]

/-- While the decoder is readable its read-ahead is the stream's: 10_state.md R45. -/
def ReadableReadAhead (s : State) : Prop := decoderReadable s = true → ReadAhead s

theorem readableReadAhead_of_effect {i : Instr} {s t : State} (hwf : transWf s.params) (hp : PhaseHasCursor s)
    (hc : CursorInBounds s) (hi : IntervalAligned s) (hs : ReadableReadAhead s) (h : Effect s i t) :
    ReadableReadAhead t := fun hread => by
  refine (readable_keeps (J := ReadAheadInterval) (fun hr => ⟨⟨hwf, hi hr⟩, ?_, hs hr⟩) h
    (fun _ _ => readAheadInterval_congr) (fun _ _ _ => readAheadInterval_of_binStep) (fun hf => ?_) hread).2.2
  · exact (cursorInBounds_iff.1 hc (hp fun hidle => by simp [decoderReadable, phaseActive, hidle] at hr)).1
  · have hoff : (primedState s).bitOffset.toNat = s.bitOffset.toNat + 9 := toNat_bitOffset_add hf
    exact ⟨⟨hwf, rangeAligned_rangeInit⟩, by rw [hoff]; exact hf, readAhead_primedState hf⟩

/-- A host that writes BUF while a unit is open leaves nothing to mirror (70_reset_and_hazards.md R313). -/
theorem readableReadAhead_wroteBuf {s : State} (hp : PhaseHasCursor s) (k : Nat) (b : Byte) :
    ReadableReadAhead (wroteBuf k b s) := by
  intro hread hbuf
  have hidle : s.phase ≠ .idle := fun h => by simp [wroteBuf, decoderReadable, phaseActive, h] at hread
  simp [wroteBuf, hp hidle] at hbuf

end Sys2Proof.Machine

namespace Sys2Proof.Proofs

open Sys2Proof.Machine Sys2Proof.Claims Sys2Proof.Safety

/-- Settles O40: every move of the cursor was checked against the valid bits, and BC.OPEN checks those against BUF. -/
theorem stepKeepsCursorInBounds : Obligations.StepKeepsCursorInBounds := fun s _ hs h =>
  step_keeps (I := CursorInBounds) h (fun _ _ => cursorInBounds_of_effect (s := hostAdvance s) hs)
    (fun _ => hs) (fun _ _ _ => hs) (fun h => nomatch h) hs

/-- Settles O41. -/
theorem stepKeepsPhaseHasCursor : Obligations.StepKeepsPhaseHasCursor := fun s _ hs h =>
  step_keeps (I := PhaseHasCursor) h (fun _ _ => phaseHasCursor_of_effect (s := hostAdvance s) hs)
    (fun _ => hs) (fun _ _ _ => hs) (fun hne => absurd rfl hne) hs

/-- Settles O42: a sub-interval of an aligned interval is aligned once renormalised, and so is half of one. -/
theorem stepKeepsIntervalAligned : Obligations.StepKeepsIntervalAligned := by
  refine ⟨fun s t hwf hs h => ?_, fun s t b hwf hs h => (binInterval_of_binStep h).rangeAligned hwf hs, fun r hr => ?_⟩
  · exact step_keeps (I := IntervalAligned) h (fun _ _ => intervalAligned_of_effect (s := hostAdvance s) hwf hs)
      (fun _ => hs) (fun _ _ _ => hs) (fun h => nomatch h) hs
  · obtain ⟨q, hlo, hhi, -, hq⟩ := rangeAligned_iff.1 hr
    exact ⟨q, hlo, hhi, hq⟩

/-- Settles O43: AD.INIT's value against its range is the top 9 bits against 510; each bin keeps the containment. -/
theorem binCommandsKeepValueBelowRange : Obligations.BinCommandsKeepValueBelowRange := by
  refine ⟨fun s t h hans => ?_, fun i s t hi hwf hs hv h =>
    valueBelowRange_of_binCommand hi hwf hs hv (effect_of_exec h), fun s t b hwf hs hv h =>
    (binInterval_of_binStep h).valueBelowRange hwf hs hv⟩
  cases effect_of_exec h with
  | notAdmitted => exact absurd hans (raiseError_response_ne_ok (by simp [badState]) s 0)
  | outOfRange => exact absurd hans (raiseError_response_ne_ok (by simp [illegal]) s 0)
  | rejected _ e _ _ he => cases he
  | adInitAborted => exact absurd hans (raiseError_response_ne_ok (by simp [exhausted]) s 0)
  | adInit => exact bitsAt_lt_rangeInit_iff s s.bitOffset.toNat

/-- Settles O44: RESET and RB.DECODE alone write the block, and RB.DECODE writes a consistent one or hides it. -/
theorem stepKeepsOutputConsistent : Obligations.StepKeepsOutputConsistent := fun s _ hs h =>
  step_keeps (I := OutputConsistent) h (fun _ _ => outputConsistent_of_effect (s := hostAdvance s) hs)
    (fun _ => hs) (fun _ _ _ => hs) (fun h => nomatch h) hs

/-- Settles O45: a renormalisation splices in the next bits of the stream, and what a bin subtracts is a multiple of
the unit above the read-ahead. -/
theorem stepKeepsTheReadAhead : Obligations.StepKeepsTheReadAhead := by
  intro s t hwf hp hc hi hs h
  exact step_keeps (I := ReadableReadAhead) h
    (fun _ _ => readableReadAhead_of_effect (s := hostAdvance s) hwf hp hc hi hs)
    (fun _ => hs) (fun k b _ => readableReadAhead_wroteBuf (s := hostAdvance s) hp k b) (fun h => nomatch h) hs

/-- Settles O39: `renormalised` is what `Renorm` gives, and its facts are those of a shift that loses no bit. -/
theorem renormalisationIsExact : Obligations.RenormalisationIsExact := by
  intro s rng val h0 hf
  have hclz : clz32 (renormalised rng val s).range = 0 := clz32_shiftLeft_clz32 h0
  refine ⟨renormalised rng val s, renorm_of_fits hf val, hclz, toNat_shiftLeft_clz32 h0, rfl,
    fun hlt => renormalised_value hlt s, ?_⟩
  rw [hclz, Nat.add_zero]
  exact toNat_bitOffset_add hf

end Sys2Proof.Proofs

/-! How a command ends, read off its response: the response word determines status, information byte and result, and
each command has its own list of errors (60_exceptions.md R271 to R278). -/

namespace Sys2Proof.Machine

open Sys2Proof.Claims Sys2Proof.Safety

/-! ## The response word -/

/-- 30_encoding.md R93: the response word determines its three fields. -/
theorem responseWord_inj {info info' code code' : Byte} {r r' : Word}
    (h : 0#16 ++ info ++ code ++ r = 0#16 ++ info' ++ code' ++ r') : code = code' ∧ info = info' ∧ r = r' := by
  refine ⟨?_, ?_, ?_⟩
  · have hfield := congrArg (BitVec.extractLsb' 32 8) h
    rwa [BitVec.extractLsb'_append_eq_of_le (by omega), BitVec.extractLsb'_append_eq_right,
      BitVec.extractLsb'_append_eq_of_le (by omega), BitVec.extractLsb'_append_eq_right] at hfield
  · have hfield := congrArg (BitVec.extractLsb' 40 8) h
    rwa [BitVec.extractLsb'_append_eq_of_le (by omega), BitVec.extractLsb'_append_eq_of_le (by omega),
      BitVec.extractLsb'_append_eq_right, BitVec.extractLsb'_append_eq_of_le (by omega),
      BitVec.extractLsb'_append_eq_of_le (by omega), BitVec.extractLsb'_append_eq_right] at hfield
  · have hfield := congrArg (BitVec.extractLsb' 0 32) h
    rwa [BitVec.extractLsb'_append_eq_right, BitVec.extractLsb'_append_eq_right] at hfield

theorem answered_complete (v : Word) (u : State) : Answered (complete v u) 0 0 v := rfl

theorem answered_raiseError (e : CmdError) (u : State) :
    Answered (raiseError e u) (statusCode e.status) e.info 0 := rfl

theorem answered_unique {t : State} {code code' info info' : Byte} {r r' : Word} (h : Answered t code info r)
    (h' : Answered t code' info' r') : code = code' ∧ info = info' ∧ r = r' :=
  responseWord_inj (Option.some.inj (h.symm.trans h'))

theorem answered_complete_iff {v : Word} {u : State} {code info : Byte} {r : Word} :
    Answered (complete v u) code info r ↔ code = 0 ∧ info = 0 ∧ r = v :=
  ⟨fun h => answered_unique h (answered_complete v u), by rintro ⟨rfl, rfl, rfl⟩; rfl⟩

theorem answered_raiseError_iff {e : CmdError} {u : State} {code info : Byte} {r : Word} :
    Answered (raiseError e u) code info r ↔ code = statusCode e.status ∧ info = e.info ∧ r = 0 :=
  ⟨fun h => answered_unique h (answered_raiseError e u), by rintro ⟨rfl, rfl, rfl⟩; rfl⟩

theorem statusCode_eq_zero_iff {st : Status} : statusCode st = 0 ↔ st = .ok := by cases st <;> decide

/-! ## The errors of a command -/

/-- The errors that abort the unit, by command (60_exceptions.md R273 grade (b)). -/
def abortion : Instr → List CmdError
  | .nop => []
  | .reset => []
  | .rdreg _ => []
  | .bcOpen _ => []
  | .bcRdbit => []
  | .bcRdbits _ => []
  | .bcPeek _ => []
  | .bcFlush _ => []
  | .bcAligned => []
  | .bcMore => []
  | .ctInit _ _ _ _ => []
  | .ctGet _ => []
  | .adInit => [exhausted 0x03]
  | .adBin _ => [exhausted 0x04]
  | .adTerm => [exhausted 0x04]
  | .adByp => [exhausted 0x04]
  | .adBypn _ => [exhausted 0x04]
  | .adBypu _ => [exhausted 0x04]
  | .adRealign => [exhausted 0x05]
  | .rbDecode _ _ _ _ _ => [exhausted 0x04]

/-- The errors a command can end with where it stands. -/
inductive RefusalError (s : State) (i : Instr) : CmdError → Prop
  | notAdmitted (h : admission s i = false) : RefusalError s i (badState s)
  | outOfRange (h : i.wellFormed = false) : RefusalError s i (illegal .operandRange)
  | rejected (e : CmdError) (h : e ∈ rejection i) : RefusalError s i e

/-- How a command ends: with OK, refused where it stood, or with its unit aborted. -/
inductive Ending (s : State) (i : Instr) : State → Prop
  | done (v : Word) (u : State) : Ending s i (complete v u)
  | refused (e : CmdError) (h : RefusalError s i e) : Ending s i (raiseError e s)
  | aborted (e : CmdError) (u : State) (h : e ∈ abortion i) : Ending s i (raiseError e u)

theorem ending_of_effect {i : Instr} {s t : State} (h : Effect s i t) : Ending s i t := by
  cases h with
  | notAdmitted _ h => exact .refused _ (.notAdmitted h)
  | outOfRange _ h => exact .refused _ (.outOfRange h)
  | rejected _ e _ _ h => exact .refused e (.rejected e h)
  | adInitAborted | adBinAborted | adTermAborted | adBypAborted | adBypnAborted | adBypuAborted | adRealignAborted
  | rbDecodeAborted => exact .aborted _ _ List.mem_cons_self
  | _ => exact .done _ _

theorem abortsUnit_of_mem_abortion {i : Instr} {e : CmdError} (h : e ∈ abortion i) : abortsUnit e = true := by
  cases i <;> simp only [abortion, List.mem_cons, List.not_mem_nil, or_false] at h <;> subst h <;> rfl

theorem status_of_abortsUnit {e : CmdError} (h : abortsUnit e = true) : e.status = .bufferExhausted := by
  simp_all [abortsUnit]

theorem status_of_mem_rejection {i : Instr} {e : CmdError} (h : e ∈ rejection i) :
    e.status ≠ .ok ∧ e.status ≠ .badState := by
  cases i <;> simp only [rejection, List.mem_cons, List.not_mem_nil, or_false] at h
  case ctInit => rcases h with rfl | rfl | rfl <;> decide
  all_goals subst h; decide

end Sys2Proof.Machine

/-! Admission, phase, statuses and writers of every command (30_encoding.md R100, 10_state.md R21, R32,
60_exceptions.md R278), each by the effects of a command. -/

namespace Sys2Proof.Machine

open Sys2Proof.Claims Sys2Proof.Safety

/-! ## Admission -/

/-- 30_encoding.md R100: the state's byte is STATUS's low byte. -/
theorem statusByte_eq_stateByte (s : State) : statusByte s = stateByte s := by
  unfold statusByte statusBits stateByte
  generalize s.phase = p, s.cursorValid = c, s.ctxValid = x, s.outValid = o
  revert c x o
  cases p <;> decide

theorem decoderReadable_eq_true_iff {s : State} : decoderReadable s = true ↔ Active s ∨ s.phase = .terminated := by
  rw [decoderReadable, Bool.or_eq_true, phaseActive_eq_true_iff, beq_iff_eq]

/-- The condition each meaning checks is the table's (30_encoding.md R100). -/
theorem admission_eq_true_iff (s : State) (i : Instr) : admission s i = true ↔ Admitted s i := by
  cases i with
  | rdreg reg =>
    cases reg with
    | range => exact decoderReadable_eq_true_iff
    | value => exact decoderReadable_eq_true_iff
    | outLevel j => simp [admission, regReadable, Admitted]
    | _ => simp [admission, regReadable, Admitted]
  | bcRdbit => exact consumeAdmitted_eq_true_iff
  | bcRdbits n => exact consumeAdmitted_eq_true_iff
  | bcFlush n => exact consumeAdmitted_eq_true_iff
  | adBin idx => exact contextBinAdmitted_eq_true_iff
  | rbDecode cat left top fld inf => exact contextBinAdmitted_eq_true_iff
  | adTerm => exact phaseActive_eq_true_iff
  | adByp => exact phaseActive_eq_true_iff
  | adBypn n => exact phaseActive_eq_true_iff
  | adBypu n => exact phaseActive_eq_true_iff
  | _ => simp [admission, Admitted]

theorem admission_eq_false_iff (s : State) (i : Instr) : admission s i = false ↔ ¬ Admitted s i := by
  rw [← admission_eq_true_iff, Bool.not_eq_true]

/-- 60_exceptions.md R276: BadState changes only the record. -/
theorem raiseError_badState (s : State) : raiseError (badState s) s = refusedWith 5 (stateByte s) s := by
  rw [raiseError_eq_refusedWith rfl, ← statusByte_eq_stateByte]
  rfl

theorem gated_of_not_admitted {c : Bool} {s : State} {run : Host.Outcome State Fault Refusal} (h : c = false) :
    gated c s run = .next (refusedWith 5 (stateByte s) s) := by rw [gated_false h, raiseError_badState]

/-- 30_encoding.md R100: a well-formed command that is not admitted is refused before anything else. -/
theorem exec_of_not_admitted {i : Instr} {s : State} (hw : i.wellFormed = true) (ha : ¬ Admitted s i) :
    exec i s = .next (refusedWith 5 (stateByte s) s) := by
  have ha := (admission_eq_false_iff s i).2 ha
  cases i with
  | nop | reset | bcOpen | ctInit => cases ha
  | bcRdbits n | bcPeek n | adBypn n =>
    exact (inCountRange_of_le (of_decide_eq_true hw)).trans (gated_of_not_admitted ha)
  | _ => exact gated_of_not_admitted ha

/-- The status of a command that was admitted is never BadState (30_encoding.md R100). -/
theorem answered_of_admitted {i : Instr} {s t : State} (hw : i.wellFormed = true) (ha : Admitted s i)
    (h : Effect s i t) : ∃ code info r, Answered t code info r ∧ code ≠ 5 := by
  cases ending_of_effect h with
  | done v u => exact ⟨0, 0, v, rfl, by decide⟩
  | refused e he =>
    refine ⟨_, _, _, answered_raiseError e s, ?_⟩
    cases he with
    | notAdmitted hno => exact absurd ha ((admission_eq_false_iff s i).1 hno)
    | outOfRange hno => exact absurd (hw.symm.trans hno) (by decide)
    | rejected _ he =>
      have hbad := (status_of_mem_rejection he).2
      cases hst : e.status <;> simp_all [statusCode]
  | aborted e u he =>
    refine ⟨_, _, _, answered_raiseError e u, ?_⟩
    rw [status_of_abortsUnit (abortsUnit_of_mem_abortion he)]
    decide

/-! ## Statuses -/

theorem mem_opcodes_iff {op : Byte} : op ∈ opcodes ↔ ∃ row ∈ reservedBits, row.1 = op := by
  have h : opcodes = reservedBits.map Prod.fst := rfl
  rw [h, List.mem_map]

theorem decode_of_mem_opcodes {w : Word64} (h : opField w ∈ opcodes) : ∃ z i, decode w = checkRow z i := by
  obtain ⟨row, hrow, hop⟩ := mem_opcodes_iff.1 h
  obtain ⟨i, hi⟩ := decode_eq_checkRow_of_mem_reservedBits hrow hop.symm
  exact ⟨_, i, hi⟩

theorem checkRow_ne_undefinedOp (z : Bool) (i : Option Instr) : checkRow z i ≠ .error .undefinedOp := by
  cases z <;> cases i <;> simp [checkRow]

/-- 30_encoding.md R96: an opcode is undefined exactly where it is none of the twenty. -/
theorem decode_eq_undefinedOp_iff {w : Word64} : decode w = .error .undefinedOp ↔ opField w ∉ opcodes := by
  refine ⟨fun h hop => ?_, fun h => decodeFields_of_not_mem_opcodes h _ _ _ _⟩
  obtain ⟨z, i, hi⟩ := decode_of_mem_opcodes hop
  exact checkRow_ne_undefinedOp z i (hi.symm.trans h)

theorem mem_opcodes_of_decode {w : Word64} (h : decode w ≠ .error .undefinedOp) : opField w ∈ opcodes :=
  not_not.1 fun hop => h (decode_eq_undefinedOp_iff.2 hop)

/-- The opcode of a command (30_encoding.md R94, R95). -/
def opcodeOf (i : Instr) : Byte := opField (encode i)

/-- The rows of 60_exceptions.md R278 for a word that is no command. -/
theorem statusAllowed_of_decodeError {w : Word64} {d : DecodeError} (h : decode w = .error d) (s : State) :
    StatusAllowed s (opField w) 4 (illegalInfo d) := by
  cases d with
  | undefinedOp => exact .inr (.inl ⟨rfl, rfl, decode_eq_undefinedOp_iff.1 h⟩)
  | reservedNonzero => exact .inr (.inr (.inl ⟨rfl, rfl, mem_opcodes_of_decode (by simp [h])⟩))
  | operandRange =>
    refine .inr (.inr (.inr (.inl ⟨rfl, rfl, ?_⟩)))
    have hrange := (operandOutOfRange_iff w).1 (operandOutOfRange_of_decode h)
    rcases hrange with ⟨hop | hop | hop, -⟩ | ⟨hop, -⟩ | ⟨hop, -⟩ <;> rw [hop] <;> decide

/-- The rows of 60_exceptions.md R278 for an admitted command's errors. -/
theorem statusAllowed_of_mem {i : Instr} {e : CmdError} (h : e ∈ rejection i ∨ e ∈ abortion i) (s : State) :
    StatusAllowed s (opcodeOf i) (statusCode e.status) e.info := by
  refine .inr (.inr (.inr (.inr (.inr ?_))))
  cases i <;> simp only [rejection, abortion, List.mem_cons, List.not_mem_nil, or_false, false_or, or_self] at h
  case ctInit => rcases h with rfl | rfl | rfl <;> simp [opcodeOf, encode, statusCode]
  case adBin => rcases h with rfl | rfl <;> simp [opcodeOf, encode, statusCode, exhausted]
  case rbDecode => rcases h with rfl | rfl <;> simp [opcodeOf, encode, statusCode, exhausted]
  all_goals subst h; simp [opcodeOf, encode, statusCode, exhausted]

/-- A command that can be refused admission is none of NOP, RESET, BC.OPEN and CT.INIT (30_encoding.md R100). -/
theorem opcodeOf_of_not_admitted {i : Instr} {s : State} (h : admission s i = false) :
    opcodeOf i ∉ ([0x00, 0x01, 0x10, 0x20] : List Byte) := by
  cases i with
  | nop | reset | bcOpen | ctInit => cases h
  | _ => simp [opcodeOf, encode]

/-- 60_exceptions.md R278: what a well-formed command can answer. -/
theorem statusAllowed_of_effect {i : Instr} {s t : State} (hw : i.wellFormed = true)
    (hop : opcodeOf i ∈ opcodes) (h : Effect s i t) :
    ∃ code info r, Answered t code info r ∧ StatusAllowed s (opcodeOf i) code info := by
  cases ending_of_effect h with
  | done v u => exact ⟨0, 0, v, rfl, .inl ⟨rfl, rfl, hop⟩⟩
  | aborted e u he => exact ⟨_, _, _, answered_raiseError e u, statusAllowed_of_mem (.inr he) s⟩
  | refused e he =>
    refine ⟨_, _, _, answered_raiseError e s, ?_⟩
    cases he with
    | notAdmitted hno =>
      exact .inr (.inr (.inr (.inr (.inl ⟨rfl, statusByte_eq_stateByte s, hop, opcodeOf_of_not_admitted hno⟩))))
    | outOfRange hno => exact absurd (hw.symm.trans hno) (by decide)
    | rejected _ he => exact statusAllowed_of_mem (.inl he) s

/-! ## The phase -/

/-- A refused command leaves the phase, and the table says so (10_state.md R32). -/
theorem phaseAfter_of_refusal {i : Instr} {s : State} {e : CmdError} (h : RefusalError s i e) (r : Word) (p : Phase) :
    phaseAfter i (statusCode e.status) r p = p := by
  cases h with
  | notAdmitted h =>
    cases i with
    | nop | reset | bcOpen | ctInit => cases h
    | _ => rfl
  | outOfRange h =>
    cases i with
    | bcRdbits | bcPeek | adBypn => rfl
    | _ => cases h
  | rejected _ h =>
    cases i <;> simp only [rejection, List.mem_cons, List.not_mem_nil, or_false] at h
    case ctInit => rfl
    all_goals subst h; rfl

theorem abortsUnit_of_refusal {i : Instr} {s : State} {e : CmdError} (h : RefusalError s i e) :
    abortsUnit e = false := by
  cases h with
  | notAdmitted => rfl
  | outOfRange => rfl
  | rejected _ h => exact abortsUnit_of_mem_rejection h

theorem BlockResult.phase {cat : BlockCat} {inferred : Bool} {u t : State} {v : Word}
    (h : BlockResult cat inferred u t v) : t.phase = .decoding := by
  rcases h with ⟨-, rfl, -⟩ | ⟨t', rfl, -⟩ <;> rfl

/-- 10_state.md R32: the phase after every command. -/
theorem phaseAfter_of_effect {i : Instr} {s t : State} (h : Effect s i t) :
    ∃ code info r, Answered t code info r ∧ t.phase = phaseAfter i code r s.phase := by
  have hrefused {e : CmdError} (he : RefusalError s i e) :
      ∃ code info r, Answered (raiseError e s) code info r ∧ (raiseError e s).phase = phaseAfter i code r s.phase :=
    ⟨_, _, _, answered_raiseError e s, (raiseError_phase_of_not_abort (abortsUnit_of_refusal he) s).trans
      (phaseAfter_of_refusal he 0 _).symm⟩
  cases h with
  | notAdmitted _ h => exact hrefused (.notAdmitted h)
  | outOfRange _ h => exact hrefused (.outOfRange h)
  | rejected _ e _ _ h => exact hrefused (.rejected e h)
  | adInitAborted | adBinAborted | adTermAborted | adBypAborted | adBypnAborted | adBypuAborted | adRealignAborted
  | rbDecodeAborted => exact ⟨_, _, _, answered_raiseError _ _, rfl⟩
  | rbDecode cat left top fld inferred v u _ hok h =>
    obtain ⟨_, _, hres⟩ := (decodeBlock_binsFrom hok).of_ok h
    exact ⟨0, 0, v, rfl, hres.phase⟩
  | _ => exact ⟨0, 0, _, rfl, rfl⟩

/-! ## Writers -/

/-- 10_state.md R21: the commands that are not listed for a register leave it. -/
theorem bitOffset_of_effect {i : Instr} {s t : State} (hi : .bitOffset ∉ writtenBy i) (h : Effect s i t) :
    t.bitOffset = s.bitOffset := by
  cases i with
  | nop | rdreg | bcPeek | bcAligned | bcMore | ctInit | ctGet => cases h <;> rfl
  | _ => simp [writtenBy] at hi

theorem binding_of_effect {i : Instr} {s t : State} (hi : .binding ∉ writtenBy i) (h : Effect s i t) :
    t.maxBitOffset = s.maxBitOffset ∧ t.cursorValid = s.cursorValid := by
  cases hbin : isBinCommand i with
  | true => exact ⟨(sameBinding_of_binCommand hbin h).maxBitOffset, (sameBinding_of_binCommand hbin h).cursorValid⟩
  | false =>
    cases i with
    | reset | bcOpen => simp [writtenBy] at hi
    | adBin | adTerm | adByp | adBypn | adBypu | rbDecode => cases hbin
    | _ => cases h <;> exact ⟨rfl, rfl⟩

theorem interval_of_effect {i : Instr} {s t : State} (hi : .interval ∉ writtenBy i) (h : Effect s i t) :
    t.range = s.range ∧ t.value = s.value := by
  cases i with
  | reset | adInit | adBin | adTerm | adByp | adBypn | adBypu | rbDecode => simp [writtenBy] at hi
  | _ => cases h <;> exact ⟨rfl, rfl⟩

/-- A command that does not write the phase leaves it, refused or not. -/
theorem phase_of_effect {i : Instr} {s t : State} (hi : .phase ∉ writtenBy i) (h : Effect s i t) :
    t.phase = s.phase := by
  obtain ⟨code, info, r, -, hp⟩ := phaseAfter_of_effect h
  rw [hp]
  cases i with
  | reset | bcOpen | adInit | adBin | adTerm | adByp | adBypn | adBypu | adRealign | rbDecode =>
    simp [writtenBy] at hi
  | _ => rfl

theorem ctx_of_effect {i : Instr} {s t : State} (hi : .contexts ∉ writtenBy i) (hx : exec i s = .next t) :
    t.ctx = s.ctx := by
  have h := effect_of_exec hx
  cases i with
  | reset | ctInit | adBin | rbDecode => simp [writtenBy] at hi
  | adTerm => exact ctx_of_exec_adTerm hx
  | adByp => exact ctx_of_exec_adByp hx
  | adBypn => exact ctx_of_exec_adBypn hx
  | adBypu => exact ctx_of_exec_adBypu hx
  | _ => cases h <;> rfl

theorem BinCommandFrame.ctxValid {s t : State} (h : BinCommandFrame s t) : t.ctxValid = s.ctxValid := by rw [h]

theorem BinCommandFrame.unitCfg {s t : State} (h : BinCommandFrame s t) : t.unitCfg = s.unitCfg := by rw [h]

theorem ctxValid_of_effect {i : Instr} {s t : State} (hi : .ctxValid ∉ writtenBy i) (h : Effect s i t) :
    t.ctxValid = s.ctxValid := by
  cases hbin : isBinCommand i with
  | true => exact (binCommandFrame_of_effect hbin h).ctxValid
  | false =>
    cases i with
    | reset | bcOpen | ctInit => simp [writtenBy] at hi
    | adBin | adTerm | adByp | adBypn | adBypu | rbDecode => cases hbin
    | _ => cases h <;> rfl

theorem unitCfg_of_effect {i : Instr} {s t : State} (hi : .unitCfg ∉ writtenBy i) (h : Effect s i t) :
    t.unitCfg = s.unitCfg := by
  cases hbin : isBinCommand i with
  | true => exact (binCommandFrame_of_effect hbin h).unitCfg
  | false =>
    cases i with
    | reset | ctInit => simp [writtenBy] at hi
    | adBin | adTerm | adByp | adBypn | adBypu | rbDecode => cases hbin
    | _ => cases h <;> rfl

/-! ## Draws -/

/-- A renormalisation that fits draws nothing where a word follows the last valid bit (70_reset_and_hazards.md R312). -/
theorem draws_of_renormBelow {th rng val : Word} {s : State} {r : Interval} (hr : renormBelow th rng val s = .ok r)
    (hb : s.bufRewritten = false) (hspare : s.maxBitOffset.toNat + 32 ≤ 32 * s.params.bufWords) :
    r.draws = s.draws := by
  rcases renormBelow_cases th rng val s with ⟨_, e⟩ | ⟨_, hf, e⟩ | ⟨_, _, e⟩ <;> rw [e] at hr <;> cases hr
  · rfl
  · exact drawsAfter_of_inside hb (by omega)

theorem BinInterval.draws {s t : State} (h : BinInterval s t) (hb : s.bufRewritten = false)
    (hspare : s.maxBitOffset.toNat + 32 ≤ 32 * s.params.bufWords) : t.draws = s.draws := by
  cases h with
  | lps w r _ _ hr _ hd => exact hd.trans (draws_of_renormBelow hr hb hspare)
  | upper w r _ _ hr _ hd => exact hd.trans (draws_of_renormBelow hr hb hspare)
  | bypass r v hr _ _ hd => exact hd.trans (draws_of_renormBelow hr hb hspare)
  | stay _ hd => exact hd

theorem BinReach.draws {s u : State} (h : BinReach s u) (hb : s.bufRewritten = false)
    (hspare : s.maxBitOffset.toNat + 32 ≤ 32 * s.params.bufWords) : u.draws = s.draws := by
  suffices SameBinding s u ∧ u.draws = s.draws from this.2
  induction h with
  | start h hd => exact ⟨h.sameBinding, hd⟩
  | @step u w b _ hbin ih =>
    have hi := binInterval_of_binStep hbin
    have hdraws := hi.draws (ih.1.bufRewritten.trans hb) (by rw [ih.1.maxBitOffset, ih.1.params]; exact hspare)
    exact ⟨ih.1.trans hi.sameBinding, hdraws.trans ih.2⟩

/-- 70_reset_and_hazards.md R312: a command that decodes no bin draws nothing, RESET apart. -/
theorem draws_of_otherCommand {i : Instr} {s t : State} (hi : isBinCommand i = false) (hreset : i ≠ .reset)
    (hc : CursorInBounds s) (hb : s.bufRewritten = false)
    (hspare : s.maxBitOffset.toNat + 32 ≤ 32 * s.params.bufWords) (h : Effect s i t) : t.draws = s.draws := by
  cases h with
  | reset => exact absurd rfl hreset
  | bcRdbit _ hf => exact drawsAfter_of_inside hb (by omega)
  | bcRdbits n hn _ hf => exact drawsAfter_of_inside hb (by omega)
  | bcPeek n hn ha =>
    have hbound := (cursorInBounds_iff.1 hc ha).1
    exact drawsAfter_of_inside hb (by omega)
  | adInit ha =>
    have hbound := (cursorInBounds_iff.1 hc ha).1
    exact drawsAfter_of_inside hb (show s.bitOffset.toNat + 32 ≤ _ by omega)
  | adBin | adBinAborted | adTerm | adTermLast | adTermAborted | adByp | adBypAborted | adBypn | adBypnAborted
  | adBypu | adBypuAborted | rbDecode | rbDecodeAborted => cases hi
  | _ => rfl

/-! ## The cursor's commands -/

/-- 40_bitcursor.md R120: a BC.* command but BC.OPEN moves the cursor and draws, or is refused. -/
theorem cursorCommand_cases {i : Instr} {s t : State} (hi : isCursorCommand i = true) (h : Effect s i t) :
    (∃ v off d, t = complete v { s with bitOffset := off, draws := d }) ∨
    ∃ e, RefusalError s i e ∧ t = raiseError e s := by
  cases h with
  | notAdmitted _ h => exact .inr ⟨_, .notAdmitted h, rfl⟩
  | outOfRange _ h => exact .inr ⟨_, .outOfRange h, rfl⟩
  | rejected _ e _ _ h => exact .inr ⟨e, .rejected e h, rfl⟩
  | bcRdbit => exact .inl ⟨_, _, _, rfl⟩
  | bcRdbits => exact .inl ⟨_, _, _, rfl⟩
  | bcPeek => exact .inl ⟨_, s.bitOffset, _, rfl⟩
  | bcFlush n => exact .inl ⟨_, s.bitOffset + BitVec.ofNat 32 n.toNat, s.draws, rfl⟩
  | bcAligned => exact .inl ⟨_, s.bitOffset, s.draws, rfl⟩
  | bcMore => exact .inl ⟨_, s.bitOffset, s.draws, rfl⟩
  | _ => cases hi

theorem status_of_refusal {i : Instr} {s : State} {e : CmdError} (h : RefusalError s i e) : e.status ≠ .ok := by
  cases h with
  | notAdmitted => simp [badState]
  | outOfRange => simp [illegal]
  | rejected _ h => exact (status_of_mem_rejection h).1

/-- A refused command changes only the record, and its status is no OK (60_exceptions.md R280, R281). -/
theorem raiseError_of_refusal {i : Instr} {s : State} {e : CmdError} (h : RefusalError s i e) :
    statusCode e.status ≠ 0 ∧ raiseError e s = refusedWith (statusCode e.status) e.info s :=
  ⟨fun h0 => status_of_refusal h (statusCode_eq_zero_iff.1 h0),
    raiseError_eq_refusedWith (abortsUnit_of_refusal h) s⟩

end Sys2Proof.Machine

namespace Sys2Proof.Proofs

open Sys2Proof.Machine Sys2Proof.Claims Sys2Proof.Safety

/-- Settles O26: the cursor stays in bounds after every command, and a refused one leaves it. -/
theorem cursorCommandsKeepTheBound : Obligations.CursorCommandsKeepTheBound := by
  intro i s t code info r hi hv hc h hans
  have heff := effect_of_exec h
  have hbounds := cursorInBounds_of_effect hc heff
  rcases hi with hi | ⟨max, rfl⟩
  · have hbind : .binding ∉ writtenBy i := by
      cases i with
      | reset | bcOpen => cases hi
      | _ => simp [writtenBy]
    have hvt := (binding_of_effect hbind heff).2.trans hv
    refine ⟨fun _ => (hbounds hvt).1, fun hcode => ?_⟩
    rcases cursorCommand_cases hi heff with ⟨v, off, d, rfl⟩ | ⟨e, he, rfl⟩
    · rw [(answered_complete_iff.1 hans).1] at hcode
      cases hcode
    · exact ⟨rfl, raiseError_phase_of_not_abort (abortsUnit_of_refusal he) s, rfl⟩
  · cases heff with
    | notAdmitted _ hno => cases hno
    | outOfRange _ hno => cases hno
    | rejected _ e _ _ he =>
      exact ⟨fun _ => (hbounds hv).1, fun _ =>
        ⟨rfl, raiseError_phase_of_not_abort (abortsUnit_of_mem_rejection he) s, rfl⟩⟩
    | bcOpen max hmax =>
      refine ⟨fun _ => (hbounds rfl).1, fun hcode => ?_⟩
      rw [(answered_complete_iff.1 hans).1] at hcode
      cases hcode

/-- Settles O27. -/
theorem cursorCommandsWriteOnlyTheCursor : Obligations.CursorCommandsWriteOnlyTheCursor := by
  intro i s t hi h
  rcases cursorCommand_cases hi (effect_of_exec h) with ⟨v, off, d, rfl⟩ | ⟨e, he, rfl⟩
  · exact .inl ⟨v, rfl, rfl⟩
  · exact .inr ⟨_, _, raiseError_of_refusal he⟩

/-- Settles O46: the meanings' conditions are the table's, and no other error is a BadState. -/
theorem admissionFollowsTheTable : Obligations.AdmissionFollowsTheTable := by
  refine fun i s hw => ⟨exec_of_not_admitted hw, fun ha => ?_⟩
  obtain ⟨t, ht⟩ := answers_exec i s
  obtain ⟨code, info, r, hans⟩ := answered_of_admitted hw ha (effect_of_exec ht)
  exact ⟨t, code, info, r, ht, hans⟩

/-- Settles O47: the table row by row, and the phase that a refused word and a reset leave. -/
theorem phaseFollowsTheTable : Obligations.PhaseFollowsTheTable := by
  refine ⟨fun i s t h => phaseAfter_of_effect (effect_of_exec h), fun w d s t hd h => ?_, fun s t h => ?_⟩
  · rw [runCommand_of_decode_eq_error hd] at h
    cases h
    rfl
  · cases h
    rfl

/-- Settles O48: a word that decodes is its command's own word, so its opcode is that of the command's row. -/
theorem statusesFollowTheTable : Obligations.StatusesFollowTheTable := by
  intro w s t h
  cases hd : decode w with
  | ok i =>
    obtain ⟨hw, rfl⟩ := encode_of_decode hd
    rw [runCommand_of_decode_eq_ok hd] at h
    exact statusAllowed_of_effect hw (mem_opcodes_of_decode (by simp [hd])) (effect_of_exec h)
  | error d =>
    rw [runCommand_of_decode_eq_error hd] at h
    cases h
    exact ⟨4, illegalInfo d, 0, rfl, statusAllowed_of_decodeError hd s⟩

/-- Settles O50, group by group. -/
theorem registersChangeOnlyByTheirWriters : Obligations.RegistersChangeOnlyByTheirWriters := by
  intro i s t h
  have heff := effect_of_exec h
  refine ⟨fun hi => bitOffset_of_effect hi heff, fun hi => binding_of_effect hi heff,
    fun hi => interval_of_effect hi heff, fun hi => phase_of_effect hi heff, fun hi => ctx_of_effect hi h,
    fun hi => ctxValid_of_effect hi heff, fun hi => unitCfg_of_effect hi heff, fun hi => ?_⟩
  obtain ⟨hcbf, hn, hsig, hlev, hvalid⟩ := sameOutputs_of_effect hi heff
  exact ⟨hcbf, hn, hsig, hlev, hvalid⟩

/-- Settles O51: the admission table with every flag 0. -/
theorem afterResetOnlySixCommandsAreAdmitted : Obligations.AfterResetOnlySixCommandsAreAdmitted := by
  intro i s hw hphase hcur hctx hout
  have hsix : Admitted s i ↔ (i = .nop ∨ i = .reset ∨ i = .rdreg .status ∨ i = .rdreg .lastErr ∨
      (∃ max, i = .bcOpen max) ∨ ∃ cl ip qp aux, i = .ctInit cl ip qp aux) := by
    cases i with
    | rdreg reg => cases reg <;> simp [Admitted, Active, hphase, hcur, hctx, hout]
    | _ => simp [Admitted, Active, hphase, hcur, hctx]
  have hbyte : stateByte s = 0x00 := by simp [stateByte, hphase, hcur, hctx, hout]
  obtain ⟨hno, hyes⟩ := admissionFollowsTheTable i s hw
  rw [← hsix, ← hbyte]
  exact ⟨hyes, hno⟩

/-- Settles O52: no read passes the spare word. -/
theorem spareWordLeavesNothingToDraw : Obligations.SpareWordLeavesNothingToDraw := by
  intro i s t _ hc hb hspare h
  have heff := effect_of_exec h
  cases hbin : isBinCommand i with
  | false =>
    refine ⟨fun hreset _ => draws_of_otherCommand hbin hreset hc hb hspare heff, ?_⟩
    rintro ⟨cat, left, top, fld, inf, rfl⟩
    cases hbin
  | true =>
    obtain ⟨u, hu, -, hdraws⟩ := binReach_of_effect hbin heff
    have hreach := hu.draws hb hspare
    rcases hdraws with hd | ⟨hrb, hd⟩
    · exact ⟨fun _ _ => hd.trans hreach, fun _ => by omega⟩
    · obtain ⟨cat, left, top, fld, inf, rfl⟩ := hrb
      exact ⟨fun _ hno => absurd rfl (hno cat left top fld inf), fun _ => by omega⟩

end Sys2Proof.Proofs

/-! RDREG and the cursor's reads and queries, branch by branch (44_system.md R263, R264; 40_bitcursor.md R122 to
R128). -/

namespace Sys2Proof.Machine

open Sys2Proof.Claims

/-! ## RDREG -/

/-- 44_system.md R263: a readable register is answered in its layout, and nothing else happens. -/
theorem exec_rdreg_of_readable {s : State} {reg : Reg} (h : regReadable s reg = true) :
    exec (.rdreg reg) s = .next (okWith (regValue s reg) s) := gated_true h

theorem regValue_status (s : State) : regValue s .status = (stateByte s).setWidth 32 := by
  rw [← statusByte_eq_stateByte]
  apply BitVec.eq_of_toNat_eq
  have hlt := (statusBits s).isLt
  simp only [regValue, statusWord, statusByte, BitVec.toNat_setWidth]
  omega

/-! ## The cursor's reads -/

theorem consumeBits_of_fits {s : State} {n : Nat} (h : s.bitOffset.toNat + n ≤ s.maxBitOffset.toNat) :
    consumeBits n s = .ok (bitsAt s s.bitOffset.toNat n)
      { moveCursor s n with draws := drawsAfter s s.bitOffset.toNat n } := by
  rcases advance_cases n 0x01 s with ⟨-, hadv⟩ | ⟨hover, -⟩
  · rw [consumeBits, hadv, Res.bind_ok]
  · omega

theorem consumeBits_of_exhausted {s : State} {n : Nat} (h : s.maxBitOffset.toNat < s.bitOffset.toNat + n) :
    consumeBits n s = .err (exhausted 0x01) s := by
  rcases advance_cases n 0x01 s with ⟨hfits, -⟩ | ⟨-, hadv⟩
  · omega
  · rw [consumeBits, hadv, Res.bind_err]

/-- An admitted BC.RDBIT or BC.RDBITS, in each outcome of its check (40_bitcursor.md R122). -/
theorem answer_consumeBits {s : State} {n : Nat} {w : Word} (hw : w = BitVec.ofNat 32 n) :
    (s.bitOffset.toNat + n ≤ s.maxBitOffset.toNat →
      answer (consumeBits n s) = .next (okWith (bitsAt s s.bitOffset.toNat n)
        { s with bitOffset := s.bitOffset + w, draws := drawsAfter s s.bitOffset.toNat n })) ∧
    (s.maxBitOffset.toNat < s.bitOffset.toNat + n →
      answer (consumeBits n s) = .next (refusedWith 1 0x01 s)) := by
  subst hw
  refine ⟨fun h => ?_, fun h => ?_⟩
  · rw [consumeBits_of_fits h, answer_ok]
    rfl
  · rw [consumeBits_of_exhausted h, answer_err, raiseError_eq_refusedWith rfl]
    rfl

theorem exec_bcRdbit_of_admitted {s : State} (h : consumeAdmitted s = true) :
    exec .bcRdbit s = answer (consumeBits 1 s) := gated_true h

theorem exec_bcRdbits_of_admitted {s : State} {n : Byte} (hn : n.toNat ≤ 32) (h : consumeAdmitted s = true) :
    exec (.bcRdbits n) s = answer (consumeBits n.toNat s) := (inCountRange_of_le hn).trans (gated_true h)

/-! ## The cursor's queries -/

theorem exec_bcPeek_of_cursorValid {s : State} {n : Byte} (hn : n.toNat ≤ 32) (h : s.cursorValid = true) :
    exec (.bcPeek n) s = .next (okWith (bitsAt s s.bitOffset.toNat n.toNat)
      { s with draws := drawsAfter s s.bitOffset.toNat n.toNat }) := (inCountRange_of_le hn).trans (gated_true h)

theorem exec_bcAligned_of_cursorValid {s : State} (h : s.cursorValid = true) :
    exec .bcAligned s = .next (okWith (if 8 ∣ s.bitOffset.toNat then 1 else 0) s) := by
  simp only [Nat.dvd_iff_mod_eq_zero]
  exact gated_true h

theorem exec_bcMore_of_cursorValid {s : State} (h : s.cursorValid = true) :
    exec .bcMore s = .next (okWith (if s.bitOffset.toNat < s.maxBitOffset.toNat then 1 else 0) s) := gated_true h

end Sys2Proof.Machine

namespace Sys2Proof.Proofs

open Sys2Proof.Machine Sys2Proof.Claims

/-- Settles O19: each register's condition is its row of the table, each layout its row of the register list. -/
theorem rdregReturnsTheRegister : Obligations.RdregReturnsTheRegister := by
  intro s
  refine ⟨?_, ?_, fun hc => ⟨exec_rdreg_of_readable hc, exec_rdreg_of_readable hc⟩, fun hp => ?_, fun hx => ?_,
    fun ho => ⟨?_, ?_, exec_rdreg_of_readable ho, exec_rdreg_of_readable ho, fun j hj => ?_⟩⟩
  · rw [exec_rdreg_of_readable rfl, regValue_status]
  · rw [exec_rdreg_of_readable rfl, regValue, BitVec.setWidth_eq_append (by decide)]
    rfl
  · have hread : decoderReadable s = true := decoderReadable_eq_true_iff.2 hp
    exact ⟨exec_rdreg_of_readable hread, exec_rdreg_of_readable hread⟩
  · rw [exec_rdreg_of_readable (reg := .unitCfg) hx, regValue, BitVec.setWidth_eq_append (by decide)]
    rfl
  · rw [exec_rdreg_of_readable (reg := .outCbf) ho, regValue, bitWord_eq_ite]
  · rw [exec_rdreg_of_readable (reg := .outNLevels) ho, regValue, BitVec.setWidth_eq_append (by decide)]
    rfl
  · have hread : regReadable s (.outLevel j) = true := by simp [regReadable, ho, hj]
    exact exec_rdreg_of_readable hread

/-- Settles O21: the two branches of `Advance`. -/
theorem bcReadsConsumeBits : Obligations.BcReadsConsumeBits := by
  intro s hc hp
  have ha : consumeAdmitted s = true := consumeAdmitted_eq_true_iff.2 ⟨hc, hp⟩
  rw [exec_bcRdbit_of_admitted ha]
  obtain ⟨hfits, hover⟩ := answer_consumeBits (s := s) (n := 1) (w := 1) rfl
  refine ⟨hfits, hover, fun n hn => ?_⟩
  rw [exec_bcRdbits_of_admitted hn ha]
  exact answer_consumeBits (BitVec.ofNat_toNat _ _).symm

/-- Settles O23. -/
theorem bcQueriesAnswer : Obligations.BcQueriesAnswer := fun _ hc =>
  ⟨fun _ hn => exec_bcPeek_of_cursorValid hn hc, exec_bcAligned_of_cursorValid hc, exec_bcMore_of_cursorValid hc⟩

end Sys2Proof.Proofs

/-! Bins run as commands of their own: a single bin neither sees nor touches the phase, the response and `out_valid`, so
the loops of AD.BYPN and AD.BYPU are their AD.BYP commands (42_arithmetic_decoder.md R188, R189). -/

namespace Sys2Proof.Machine

open Sys2Proof.Claims

/-! ## What a bin does not see -/

/-- The state with another phase, response and `out_valid`. -/
def retag (p : Phase) (r : Option Word64) (v : Bool) (s : State) : State :=
  { s with phase := p, response := r, outValid := v }

/-- The two states differ in phase, response and `out_valid` alone. -/
def Twin (s t : State) : Prop := t = retag t.phase t.response t.outValid s

theorem Twin.refl (s : State) : Twin s s := rfl

theorem Twin.trans {s t u : State} (h : Twin s t) (k : Twin t u) : Twin s u := by
  unfold Twin at *
  rw [k, h]
  rfl

theorem twin_hideOutputs (s : State) : Twin { s with outValid := false } s := rfl

/-- A procedure's result with its state changed. -/
def Res.mapState {α : Type} (f : State → State) : Res α → Res α
  | .ok a s => .ok a (f s)
  | .err e s => .err e (f s)

theorem renormBelow_retag (p : Phase) (r : Option Word64) (v : Bool) (th rng val : Word) (s : State) :
    renormBelow th rng val (retag p r v s) = renormBelow th rng val s := by
  have hbits (q n : Nat) : bitsAt (retag p r v s) q n = bitsAt s q n :=
    bitsAt_congr (s := s) (t := retag p r v s) rfl rfl rfl rfl q n
  unfold renormBelow renorm
  simp only [hbits]
  rfl

theorem decodeBypass_retag (p : Phase) (r : Option Word64) (v : Bool) (s : State) :
    decodeBypass (retag p r v s) = (decodeBypass s).mapState (retag p r v) := by
  have hrange : (retag p r v s).range = s.range := rfl
  have hvalue : (retag p r v s).value = s.value := rfl
  unfold decodeBypass
  rw [hrange, hvalue, renormBelow_retag]
  generalize renormBelow bypassT s.range s.value s = o
  cases o with
  | error e => rfl
  | ok i =>
    by_cases hle : i.range >>> 1 ≤ i.value
    · simp only [if_pos hle]
      rfl
    · simp only [if_neg hle]
      rfl

theorem decodeRegular_retag (p : Phase) (r : Option Word64) (v : Bool) (idx : Nat) (site : Byte) (s : State) :
    decodeRegular idx site (retag p r v s) = (decodeRegular idx site s).mapState (retag p r v) := by
  by_cases hidx : idx < 460
  · have hparams : (retag p r v s).params = s.params := rfl
    have hctx : (retag p r v s).ctx = s.ctx := rfl
    have hrange : (retag p r v s).range = s.range := rfl
    have hvalue : (retag p r v s).value = s.value := rfl
    unfold decodeRegular
    rw [ctxRef_of_lt hidx, ctxRef_of_lt hidx]
    simp only [hparams, hctx, hrange, hvalue, renormBelow_retag]
    generalize renormBelow renormT _ _ s = o
    cases o <;> rfl
  · rw [decodeRegular, decodeRegular, ctxRef_of_ge (Nat.not_lt.1 hidx), ctxRef_of_ge (Nat.not_lt.1 hidx)]
    rfl

/-! ## One AD.BYP -/

/-- An AD.BYP that is answered with a bin is the bypass bin of its state's twin (42_arithmetic_decoder.md R187). -/
theorem exec_adByp_of_twin {s t : State} (h : Twin s t) (ha : phaseActive t = true) {b : Bool} {s' : State}
    (hb : decodeBypass s = .ok b s') :
    ∃ t', exec .adByp t = .next t' ∧ Answered t' 0 0 (bitWord b) ∧ t'.phase = .decoding ∧ t'.outValid = t.outValid ∧
      Twin s' t' := by
  rw [h] at ha ⊢
  rw [exec_adByp_of_active ha, decodeBypass_retag, hb]
  exact ⟨_, rfl, rfl, rfl, rfl, rfl⟩

/-- The response of an AD.BYP says what its state's twin decodes. -/
theorem decodeBypass_of_exec_adByp {s t t' : State} (h : Twin s t) (ha : phaseActive t = true)
    (hx : exec .adByp t = .next t') {b : Bool} (hans : Answered t' 0 0 (bitWord b)) :
    ∃ s', decodeBypass s = .ok b s' ∧ t'.phase = .decoding ∧ t'.outValid = t.outValid ∧ Twin s' t' := by
  cases hb : decodeBypass s with
  | ok b' s' =>
    obtain ⟨u, hu, hbit, hp, hv, htwin⟩ := exec_adByp_of_twin h ha hb
    cases hu.symm.trans hx
    have hword := (answered_unique hbit hans).2.2
    have hbb : b' = b := by revert hword; cases b' <;> cases b <;> decide
    exact ⟨s', by rw [hbb], hp, hv, htwin⟩
  | err e s' =>
    exfalso
    rw [h] at ha hx
    rw [exec_adByp_of_active ha, decodeBypass_retag, hb] at hx
    cases hx
    rcases decodeBypass_cases s with ⟨r, _, ⟨_, e'⟩ | ⟨_, e'⟩⟩ | ⟨_, e'⟩ <;> rw [e'] at hb <;> cases hb
    exact absurd (answered_raiseError_iff.1 hans).1 (by decide)

theorem phaseActive_of_decoding {s : State} (h : s.phase = .decoding) : phaseActive s = true := by
  simp [phaseActive, h]

/-- A response of 1 or 0 is an OK with that bin (30_encoding.md R93). -/
theorem answered_bit {t : State} {b : Bool} (h : t.response = some (if b then 1 else 0)) :
    Answered t 0 0 (bitWord b) := by
  unfold Answered
  rw [h]
  cases b <;> rfl

/-! ## AD.BYPN -/

theorem bypRun_succ {n : Nat} {t u : State} {bins : List Bool} (h : bypRun (n + 1) t = some (bins, u)) :
    ∃ t' b bins', exec .adByp t = .next t' ∧ Answered t' 0 0 (bitWord b) ∧ bypRun n t' = some (bins', u) ∧
      bins = b :: bins' := by
  unfold bypRun at h
  split at h
  · rename_i t' hx
    split at h
    · rename_i hr
      obtain ⟨⟨bins', u'⟩, hrun, he⟩ := Option.map_eq_some_iff.1 h
      cases he
      exact ⟨t', true, bins', hx, answered_bit hr, hrun, rfl⟩
    · split at h
      · rename_i hr
        obtain ⟨⟨bins', u'⟩, hrun, he⟩ := Option.map_eq_some_iff.1 h
        cases he
        exact ⟨t', false, bins', hx, answered_bit hr, hrun, rfl⟩
      · cases h
  · cases h
  · cases h

theorem msbFirst_foldl (bins : List Bool) (v : Nat) :
    bins.foldl (fun v b => 2 * v + b.toNat) v = v * 2 ^ bins.length + msbFirst bins := by
  unfold msbFirst
  induction bins generalizing v with
  | nil => simp
  | cons b rest ih =>
    rw [List.foldl_cons, List.foldl_cons, ih, ih (2 * 0 + b.toNat), List.length_cons, Nat.pow_succ]
    ring

/-- The first bin is the most significant. -/
theorem msbFirst_cons (b : Bool) (bins : List Bool) :
    msbFirst (b :: bins) = b.toNat * 2 ^ bins.length + msbFirst bins := by
  rw [msbFirst, List.foldl_cons, Nat.mul_zero, Nat.zero_add]
  exact msbFirst_foldl bins b.toNat

/-- Appending a bin to a word, its top bit lost. -/
theorem ofNat_shiftLeft_or_bitWord (v : Nat) (b : Bool) :
    BitVec.ofNat 32 v <<< 1 ||| bitWord b = BitVec.ofNat 32 (2 * v + b.toNat) := by
  have hor : BitVec.ofNat 32 v <<< 1 ||| bitWord b = BitVec.ofNat 32 v <<< 1 + bitWord b := by
    rw [BitVec.add_eq_or_of_and_eq_zero]
    apply BitVec.eq_of_getLsbD_eq
    intro i hi
    cases i <;> simp
  have hbit : bitWord b = BitVec.ofNat 32 b.toNat := by cases b <;> rfl
  apply BitVec.eq_of_toNat_eq
  rw [hor, hbit]
  simp only [BitVec.toNat_add, BitVec.toNat_shiftLeft, BitVec.toNat_ofNat, Nat.shiftLeft_eq]
  omega

/-- n AD.BYP commands are the loop of AD.BYPN on the twin state (42_arithmetic_decoder.md R188). -/
theorem bypassBits_of_bypRun {n : Nat} {s t u : State} {bins : List Bool} (h : bypRun n t = some (bins, u))
    (hst : Twin s t) (ha : phaseActive t = true) (v : Nat) :
    bins.length = n ∧ ∃ w, bypassBits n (BitVec.ofNat 32 v) s = .ok (BitVec.ofNat 32 (v * 2 ^ n + msbFirst bins)) w ∧
      Twin w u ∧ u.outValid = t.outValid := by
  induction n generalizing s t bins v with
  | zero =>
    cases h
    exact ⟨rfl, s, by simp [bypassBits, msbFirst], hst, rfl⟩
  | succ n ih =>
    obtain ⟨t', b, bins', hx, hans, hrun, rfl⟩ := bypRun_succ h
    obtain ⟨s', hdec, hp, hv, htwin⟩ := decodeBypass_of_exec_adByp hst ha hx hans
    obtain ⟨hlen, w, hw, hwu, hvalid⟩ := ih hrun htwin (phaseActive_of_decoding hp) (2 * v + b.toNat)
    refine ⟨by rw [List.length_cons, hlen], w, ?_, hwu, hvalid.trans hv⟩
    rw [bypassBits, hdec, Res.bind_ok, ofNat_shiftLeft_or_bitWord, hw, msbFirst_cons, hlen, Nat.pow_succ]
    congr 2
    ring

theorem exec_adBypn_of_ok {s w : State} {n : Byte} {v : Word} (ha : phaseActive s = true) (hn : n.toNat ≤ 32)
    (h : bypassBits n.toNat 0 s = .ok v w) : exec (.adBypn n) s = .next (complete v (setDecoding w)) := by
  rw [exec, execAdBypn, inCountRange_of_le hn, gated_true ha, h]
  rfl

/-! ## AD.BYPU -/

theorem bypUntilZero_succ {n ones : Nat} {t u : State} (h : bypUntilZero (n + 1) t = some (ones, u)) :
    ∃ t', exec .adByp t = .next t' ∧
      ((Answered t' 0 0 (bitWord true) ∧ ∃ ones', bypUntilZero n t' = some (ones', u) ∧ ones = ones' + 1) ∨
       (Answered t' 0 0 (bitWord false) ∧ ones = 0 ∧ u = t')) := by
  unfold bypUntilZero at h
  split at h
  · rename_i t' hx
    refine ⟨t', hx, ?_⟩
    split at h
    · rename_i hr
      obtain ⟨⟨ones', u'⟩, hrun, he⟩ := Option.map_eq_some_iff.1 h
      cases he
      exact .inl ⟨answered_bit (b := true) hr, ones', hrun, rfl⟩
    · split at h
      · rename_i hr
        cases h
        exact .inr ⟨answered_bit (b := false) hr, rfl, rfl⟩
      · cases h
  · cases h
  · cases h

/-- AD.BYP commands up to a 0 are the loop of AD.BYPU on the twin state (42_arithmetic_decoder.md R189). -/
theorem bypassUnary_of_bypUntilZero {n ones : Nat} {s t u : State} (h : bypUntilZero n t = some (ones, u))
    (hst : Twin s t) (ha : phaseActive t = true) (c : Nat) :
    ones ≤ n ∧ ∃ w, bypassUnary n c s = .ok (c + ones) w ∧ Twin w u ∧ u.outValid = t.outValid := by
  induction n generalizing s t ones c with
  | zero =>
    cases h
    exact ⟨Nat.le_refl 0, s, rfl, hst, rfl⟩
  | succ n ih =>
    obtain ⟨t', hx, ⟨hans, ones', hrun, rfl⟩ | ⟨hans, rfl, rfl⟩⟩ := bypUntilZero_succ h
    · obtain ⟨s', hdec, hp, hv, htwin⟩ := decodeBypass_of_exec_adByp hst ha hx hans
      obtain ⟨hle, w, hw, hwu, hvalid⟩ := ih hrun htwin (phaseActive_of_decoding hp) (c + 1)
      refine ⟨Nat.succ_le_succ hle, w, ?_, hwu, hvalid.trans hv⟩
      rw [bypassUnary, hdec, Res.bind_ok, if_pos rfl, hw, Nat.add_assoc, Nat.add_comm 1]
    · obtain ⟨s', hdec, hp, hv, htwin⟩ := decodeBypass_of_exec_adByp hst ha hx hans
      exact ⟨Nat.zero_le _, s', by rw [bypassUnary, hdec]; rfl, htwin, hv⟩

theorem exec_adBypu_of_ok {s w : State} {max : Byte} {c : Nat} (ha : phaseActive s = true)
    (h : bypassUnary max.toNat 0 s = .ok c w) :
    exec (.adBypu max) s = .next (complete (BitVec.ofNat 32 c) (setDecoding w)) := by
  rw [exec, execAdBypu, gated_true ha, h]
  rfl

/-- What a loop leaves is what its commands leave, once phase and response are set. -/
theorem complete_setDecoding_of_twin {w u : State} (h : Twin w u) (hv : u.outValid = w.outValid) (v : Word) :
    complete v (setDecoding w) = okWith v { u with phase := .decoding } := by
  rw [h, hv]
  rfl

/-! ## Enough valid bits -/

/-- From s0 with n bins' worth of valid bits: k bins' worth are left, and the cursor has moved no further. -/
def BinsFit (s0 : State) (n k : Nat) (t : State) : Prop :=
  BinsFrom s0 t ∧ t.bitOffset.toNat + 32 * k ≤ s0.bitOffset.toNat + 32 * n

theorem binsFit_of_binStep {s0 t u : State} {n k : Nat} {b : Bool}
    (hn : s0.bitOffset.toNat + 32 * n ≤ s0.maxBitOffset.toNat) (h : BinsFit s0 n (k + 1) t) (hstep : BinStep t u b)
    (hfrom : BinsFrom s0 u) : BinsFit s0 n k u := by
  have hmax : t.maxBitOffset = s0.maxBitOffset := h.1.1.maxBitOffset
  have hmove := (binInterval_of_binStep hstep).cursorMoved (by rw [hmax]; have := h.2; omega)
  exact ⟨hfrom, by have := h.2; have := hmove.near; omega⟩

/-- A renormalisation with 32 valid bits left does not fail. -/
theorem renormBelow_ne_error {s : State} (h : s.bitOffset.toNat + 32 ≤ s.maxBitOffset.toNat) (th rng val : Word)
    (e : CmdError) : renormBelow th rng val s ≠ .error e := by
  intro he
  rcases renormBelow_cases th rng val s with ⟨_, e'⟩ | ⟨_, _, e'⟩ | ⟨_, hf, e'⟩ <;> rw [e'] at he <;> cases he
  have := clz32_le rng
  omega

/-- No bin of a loop fails while the valid bits suffice for a renormalisation at every one. -/
theorem binRule_binsFit {s0 : State} {n : Nat} (hn : s0.bitOffset.toNat + 32 * n ≤ s0.maxBitOffset.toNat) :
    BinRule s0.params.ctxMap (fun _ _ => False) (BinsFit s0 n) where
  regular := fun k idx t hidx h => by
    have hfit : t.bitOffset.toNat + 32 ≤ t.maxBitOffset.toNat := by rw [h.1.1.maxBitOffset]; have := h.2; omega
    have hfrom := binsFrom_regular idx 0x21 h.1
    rcases decodeRegular_cases idx 0x21 t with ⟨hge, _⟩ | ⟨_, ⟨r, _, e⟩ | ⟨he, _⟩⟩
    · omega
    · have hu := hfrom.of_ok e
      have hfit' := binsFit_of_binStep hn h (.inl ⟨idx, 0x21, e⟩) hu
      rw [e]; exact hfit'
    · exact absurd he (renormBelow_ne_error hfit _ _ _ _)
  bypass := fun k t h => by
    have hfit : t.bitOffset.toNat + 32 ≤ t.maxBitOffset.toNat := by rw [h.1.1.maxBitOffset]; have := h.2; omega
    have hfrom := binsFrom_bypass h.1
    rcases decodeBypass_cases t with ⟨r, _, ⟨_, e⟩ | ⟨_, e⟩⟩ | ⟨he, _⟩
    · have hfit' := binsFit_of_binStep hn h (.inr (.inr e)) (hfrom.of_ok e)
      rw [e]; exact hfit'
    · have hfit' := binsFit_of_binStep hn h (.inr (.inr e)) (hfrom.of_ok e)
      rw [e]; exact hfit'
    · exact absurd he (renormBelow_ne_error hfit _ _ _ _)
  drop := fun k t h => ⟨h.1, by have := h.2; omega⟩
  map := fun _ t h => by rw [h.1.1.params]

/-- A guarantee without errors is one of a result. -/
theorem Res.Post.exists_ok {α : Type} {Q : α → State → Prop} {r : Res α} (h : r.Post Q (fun _ _ => False)) :
    ∃ a t, r = .ok a t ∧ Q a t := by
  cases r with
  | ok a t => exact ⟨a, t, rfl, h⟩
  | err e t => exact h.elim

theorem Res.KeepsCtx.of_ok {α : Type} {s t : State} {r : Res α} {a : α} (h : r.KeepsCtx s) (e : r = .ok a t) :
    t.ctx = s.ctx := Res.Post.of_ok h e

/-- Bins that touch no context leave all but the interval, the cursor and the draws (42_arithmetic_decoder.md R184). -/
theorem complete_of_bypassBins {s u : State} (h : BinsFrom s u) (hctx : u.ctx = s.ctx) (v : Word) :
    complete v (setDecoding u) = { s with
      range := u.range, value := u.value, bitOffset := u.bitOffset, draws := u.draws,
      response := (complete v u).response, phase := .decoding } := by
  rw [h.1, hctx]
  rfl

end Sys2Proof.Machine

namespace Sys2Proof.Proofs

open Sys2Proof.Machine Sys2Proof.Claims

/-- Settles O35. -/
theorem adBypnIsRepeatedAdByp : Obligations.AdBypnIsRepeatedAdByp := by
  intro s u n bins hact hn hrun
  have ha : phaseActive s = true := phaseActive_eq_true_iff.2 hact
  obtain ⟨-, w, hw, htwin, hvalid⟩ := bypassBits_of_bypRun hrun (.refl s) ha 0
  rw [Nat.zero_mul, Nat.zero_add] at hw
  have hframe : w.outValid = s.outValid := ((bypassBits_binsFrom _ _ s).of_ok hw).1.sameOutputs.outValid
  rw [exec_adBypn_of_ok ha hn hw, complete_setDecoding_of_twin htwin (hvalid.trans hframe.symm)]

/-- Settles O36. -/
theorem adBypuIsAdBypUntilZero : Obligations.AdBypuIsAdBypUntilZero := by
  intro s u max ones hact hrun
  have ha : phaseActive s = true := phaseActive_eq_true_iff.2 hact
  obtain ⟨hle, w, hw, htwin, hvalid⟩ := bypassUnary_of_bypUntilZero hrun (.refl s) ha 0
  rw [Nat.zero_add] at hw
  have hframe : w.outValid = s.outValid := ((bypassUnary_binsFrom _ _ s).of_ok hw).1.sameOutputs.outValid
  exact ⟨hle, by rw [exec_adBypu_of_ok ha hw, complete_setDecoding_of_twin htwin (hvalid.trans hframe.symm)]⟩

/-- Settles O37: with 32 valid bits for each bin no renormalisation fails. -/
theorem bypassLoopsComplete : Obligations.BypassLoopsComplete := by
  intro s n hact hfit
  have ha : phaseActive s = true := phaseActive_eq_true_iff.2 hact
  have R := binRule_binsFit hfit
  have hs : BinsFit s n.toNat (0 + n.toNat) s := ⟨.refl s, by omega⟩
  refine ⟨fun hn => ?_, ?_⟩
  · obtain ⟨v, u, hu, hP, hv⟩ := (R.bypassBits n.toNat 0 0 s hs).exists_ok
    have hctx := (bypassBits_keepsCtx n.toNat 0 s).of_ok hu
    have hlt : v.toNat < 2 ^ n.toNat := by simpa using hv (by simpa using Nat.pow_le_pow_right (by omega) hn)
    exact ⟨_, v, exec_adBypn_of_ok ha hn hu, rfl, hlt, complete_of_bypassBins hP.1 hctx v⟩
  · obtain ⟨c, u, hu, hP, -, hc⟩ := (R.bypassUnary n.toNat 0 0 s hs).exists_ok
    have hctx := (bypassUnary_keepsCtx n.toNat 0 s).of_ok hu
    have hlt := n.isLt
    have hle : (BitVec.ofNat 32 c).toNat ≤ n.toNat := by
      rw [BitVec.toNat_ofNat, Nat.mod_eq_of_lt (by omega)]
      omega
    exact ⟨_, _, exec_adBypu_of_ok ha hu, rfl, hle, complete_of_bypassBins hP.1 hctx _⟩

end Sys2Proof.Proofs

/-! The read-ahead bits decide no symbol (42_arithmetic_decoder.md R202): two states that differ in them alone go
through every bin the same way. -/

namespace Sys2Proof.Machine

open Sys2Proof.Claims Sys2Proof.Safety

/-- The two states differ in `value` alone. -/
def AgreeButValue (s t : State) : Prop := t = { s with value := t.value }

theorem agreeButValue_set (v : Word) (s : State) : AgreeButValue s { s with value := v } := rfl

/-- The two results are the same, their states up to `value`. -/
inductive Res.Agree {α : Type} : Res α → Res α → Prop
  | ok (a : α) {s t : State} (h : AgreeButValue s t) : Res.Agree (.ok a s) (.ok a t)
  | err (e : CmdError) {s t : State} (h : AgreeButValue s t) : Res.Agree (.err e s) (.err e t)

/-- Renormalisation splits its outcome by `rng` and the cursor alone. -/
theorem renormBelow_agree (th rng val val' v : Word) (s : State) :
    (∃ e, renormBelow th rng val s = .error e ∧ renormBelow th rng val' { s with value := v } = .error e) ∨
    ∃ r w, renormBelow th rng val s = .ok r ∧
      renormBelow th rng val' { s with value := v } = .ok { r with value := w } := by
  by_cases hth : rng.toNat < th.toNat
  · by_cases hf : s.bitOffset.toNat + clz32 rng ≤ s.maxBitOffset.toNat
    · exact .inr ⟨_, _, renormBelow_of_fits hth hf val,
        renormBelow_of_fits (s := { s with value := v }) hth hf val'⟩
    · have hf := Nat.not_le.1 hf
      exact .inl ⟨_, renormBelow_of_exhausted hth hf val,
        renormBelow_of_exhausted (s := { s with value := v }) hth hf val'⟩
  · have hth := Nat.not_lt.1 hth
    exact .inr ⟨_, _, renormBelow_of_ge hth val s, renormBelow_of_ge hth val' { s with value := v }⟩

/-- A multiple of 2^k compares with a word by the word's bits from k on. -/
theorem le_iff_of_multiple {x a b : Word} {k : Nat} (hx : x.toNat % 2 ^ k = 0) (hab : a >>> k = b >>> k) :
    x ≤ a ↔ x ≤ b := by
  obtain ⟨m, hm⟩ := Nat.dvd_of_mod_eq_zero hx
  have key (y : Word) : x ≤ y ↔ m ≤ (y >>> k).toNat := by
    rw [BitVec.le_def, hm, Nat.mul_comm, BitVec.toNat_ushiftRight, Nat.shiftRight_eq_div_pow,
      Nat.le_div_iff_mul_le (Nat.two_pow_pos k)]
  rw [key, key, hab]

/-- The regular bin's branch does not see the read-ahead. -/
theorem regularBin_agree {p : Params} (hwf : transWf p) {range a b : Word} (hr : RangeAligned range)
    (hab : a >>> (23 - clz32 range) = b >>> (23 - clz32 range)) (e : ContextEntry) :
    (regularBin p e range b).sym = (regularBin p e range a).sym ∧
    (regularBin p e range b).range = (regularBin p e range a).range ∧
    (regularBin p e range b).entry = (regularBin p e range a).entry := by
  obtain ⟨k, hk⟩ := transAt_eq_getElem p e.stateIndex (quantized range)
  obtain ⟨h1, h2⟩ := lpsWidth_bounds hwf (.inl ⟨k, rfl⟩)
  obtain ⟨-, -, -, -, q, -, hq⟩ := sub_scaled hr h1 h2
  rw [← hk] at hq
  have hle := le_iff_of_multiple (by rw [hq, Nat.mul_mod_left]) hab
  simp only [regularBin, hle]
  split <;> exact ⟨rfl, rfl, rfl⟩

theorem decodeRegular_agree {s : State} (hwf : transWf s.params) (hr : RangeAligned s.range) {v : Word}
    (hv : s.value >>> (23 - clz32 s.range) = v >>> (23 - clz32 s.range)) (idx : Nat) (site : Byte) :
    (decodeRegular idx site s).Agree (decodeRegular idx site { s with value := v }) := by
  by_cases hidx : idx < 460
  · obtain ⟨hsym, hrange, hentry⟩ := regularBin_agree hwf hr hv s.ctx[idx]
    unfold decodeRegular
    rw [ctxRef_of_lt hidx, ctxRef_of_lt hidx]
    simp only [hsym, hrange, hentry]
    rcases renormBelow_agree renormT (regularBin s.params s.ctx[idx] s.range s.value).range
      (regularBin s.params s.ctx[idx] s.range s.value).value (regularBin s.params s.ctx[idx] s.range v).value v s with
      ⟨e, he, he'⟩ | ⟨r, w, he, he'⟩ <;> rw [he, he']
    · exact .err e rfl
    · exact .ok _ rfl
  · rw [decodeRegular, decodeRegular, ctxRef_of_ge (Nat.not_lt.1 hidx), ctxRef_of_ge (Nat.not_lt.1 hidx)]
    exact .err _ rfl

theorem decodeTerminal_agree {s : State} (hr : RangeAligned s.range) {v : Word}
    (hv : s.value >>> (23 - clz32 s.range) = v >>> (23 - clz32 s.range)) :
    (decodeTerminal s).Agree (decodeTerminal { s with value := v }) := by
  obtain ⟨-, -, -, -, q, -, hq⟩ := sub_scaled hr (w := termWidth) (by decide) (by decide)
  have hle := le_iff_of_multiple (by rw [hq, Nat.mul_mod_left]) hv
  unfold decodeTerminal
  simp only [← hle]
  split
  · exact .ok true rfl
  · rcases renormBelow_agree renormT (s.range - scaled termWidth (clz32 s.range)) s.value v v s with
      ⟨e, he, he'⟩ | ⟨r, w, he, he'⟩ <;> rw [he, he']
    · exact .err e rfl
    · exact .ok false rfl

/-- A bypass bin that does not renormalise halves the range first: its symbol sees one bit more. -/
theorem decodeBypass_agree {s : State} (hr : RangeAligned s.range) (h2 : bypassT ≤ s.range) {v : Word}
    (hv : s.value >>> (22 - clz32 s.range) = v >>> (22 - clz32 s.range)) :
    (decodeBypass s).Agree (decodeBypass { s with value := v }) := by
  obtain ⟨hhalf, hclz, -⟩ := half_rangeAligned hr h2
  have hk : 23 - clz32 (s.range >>> 1) = 22 - clz32 s.range := by omega
  have hmod := hhalf.2
  rw [hk] at hmod
  have hle := le_iff_of_multiple hmod hv
  unfold decodeBypass
  rw [renormBelow_of_ge (th := bypassT) h2, renormBelow_of_ge (th := bypassT) h2]
  simp only [← hle]
  split
  · exact .ok true rfl
  · exact .ok false rfl

/-! ## From bins to commands -/

theorem Res.Agree.bind {α β : Type} {r r' : Res α} {f : α → State → Res β} (h : r.Agree r')
    (hf : ∀ a s t, AgreeButValue s t → (f a s).Agree (f a t)) : (r.bind f).Agree (r'.bind f) := by
  cases h with
  | ok a h => exact hf a _ _ h
  | err e h => exact .err e h

theorem AgreeButValue.setDecoding {s t : State} (h : AgreeButValue s t) :
    AgreeButValue (setDecoding s) (setDecoding t) := by
  unfold AgreeButValue at *
  rw [h]
  rfl

/-- Commands that run agreeing procedures under the same admission leave states that agree. -/
theorem agreeButValue_of_gated_answer {c : Bool} {s s' t t' : State} {r r' : Res Word} (hs : AgreeButValue s s')
    (h : r.Agree r') (ht : gated c s (answer r) = .next t) (ht' : gated c s' (answer r') = .next t') :
    AgreeButValue t t' := by
  unfold AgreeButValue at hs
  cases c with
  | false =>
    cases ht
    cases ht'
    rw [hs]
    rfl
  | true =>
    rw [gated_true rfl] at ht ht'
    cases h with
    | ok v h =>
      cases ht
      cases ht'
      unfold AgreeButValue at *
      rw [h]
      rfl
    | err e h =>
      cases ht
      cases ht'
      unfold AgreeButValue at *
      rw [h]
      rfl

theorem agreeButValue_of_adBin {s t t' : State} {idx : BitVec 16} {v : Word} (hwf : transWf s.params)
    (hr : RangeAligned s.range) (hv : s.value >>> (23 - clz32 s.range) = v >>> (23 - clz32 s.range))
    (ht : exec (.adBin idx) s = .next t) (ht' : exec (.adBin idx) { s with value := v } = .next t') :
    AgreeButValue t t' :=
  agreeButValue_of_gated_answer (agreeButValue_set v s) ((decodeRegular_agree hwf hr hv idx.toNat 0x20).bind
    fun b _ _ h => .ok (bitWord b) h.setDecoding) ht ht'

theorem agreeButValue_of_adTerm {s t t' : State} {v : Word} (hr : RangeAligned s.range)
    (hv : s.value >>> (23 - clz32 s.range) = v >>> (23 - clz32 s.range))
    (ht : exec .adTerm s = .next t) (ht' : exec .adTerm { s with value := v } = .next t') : AgreeButValue t t' := by
  refine agreeButValue_of_gated_answer (agreeButValue_set v s)
    ((decodeTerminal_agree hr hv).bind fun b _ _ h => ?_) ht ht'
  cases b with
  | true => exact .ok _ h
  | false => exact .ok _ h.setDecoding

theorem agreeButValue_of_adByp {s t t' : State} {v : Word} (hr : RangeAligned s.range)
    (hv : s.value >>> (22 - clz32 s.range) = v >>> (22 - clz32 s.range))
    (ht : exec .adByp s = .next t) (ht' : exec .adByp { s with value := v } = .next t') : AgreeButValue t t' := by
  by_cases h2 : bypassT ≤ s.range
  · exact agreeButValue_of_gated_answer (agreeButValue_set v s) ((decodeBypass_agree hr h2 hv).bind
      fun b _ _ h => .ok (bitWord b) h.setDecoding) ht ht'
  · rw [clz32_of_lt_bypassT hr (BitVec.not_le.1 h2)] at hv
    obtain rfl : s.value = v := by simpa using hv
    cases ht.symm.trans ht'
    rfl

end Sys2Proof.Machine

namespace Sys2Proof.Proofs

open Sys2Proof.Machine Sys2Proof.Claims

/-- Settles O53: what each bin compares the value with is a multiple of the unit above the bits left out. -/
theorem symbolsIgnoreTheReadAhead : Obligations.SymbolsIgnoreTheReadAhead := by
  intro s t t' v hr hwf
  refine ⟨fun i hi hv ht ht' => ?_, fun hv ht ht' => ?_⟩
  · have h : AgreeButValue t t' := by
      rcases hi with ⟨idx, rfl⟩ | rfl
      · exact agreeButValue_of_adBin hwf hr hv ht ht'
      · exact agreeButValue_of_adTerm hr hv ht ht'
    rw [h]
    exact ⟨rfl, rfl, rfl, rfl, rfl, rfl⟩
  · have h : AgreeButValue t t' := agreeButValue_of_adByp hr hv ht ht'
    rw [h]
    exact ⟨rfl, rfl, rfl, rfl⟩

end Sys2Proof.Proofs

/-! RB.DECODE's check, its outputs, an empty block and a failure (43_residual_block.md R221 to R240). -/

namespace Sys2Proof.Machine

open Sys2Proof.Claims

/-! ## The check -/

theorem scanBounds_eq (cat : BlockCat) : scanBounds cat = (catStart cat, catLast cat) := by cases cat <;> rfl

theorem mem_scanForward_iff {cat : BlockCat} {i : Nat} :
    i ∈ scanForward cat ↔ (scanBounds cat).1 ≤ i ∧ i < (scanBounds cat).2 := by
  have hle := (catLast_lt cat).1
  rw [scanBounds_eq, scanForward, List.mem_range'_1]
  omega

theorem exec_rbDecode_of_badIndices {s : State} {cat : BlockCat} {left top fld inf : Bool}
    (ha : contextBinAdmitted s = true) (h : blockIndicesOk s.params.ctxMap cat left top fld inf = false) :
    exec (.rbDecode cat left top fld inf) s = .next (refusedWith 3 0x21 s) := by
  rw [exec, execRbDecode, gated_true ha, h]
  exact congrArg Host.Outcome.next (raiseError_eq_refusedWith rfl s)

theorem exec_rbDecode_of_goodIndices {s : State} {cat : BlockCat} {left top fld inf : Bool}
    (ha : contextBinAdmitted s = true) (h : blockIndicesOk s.params.ctxMap cat left top fld inf = true) :
    exec (.rbDecode cat left top fld inf) s = answer (decodeBlock cat left top fld inf s) := by
  rw [exec, execRbDecode, gated_true ha, if_pos h]

/-! ## OK -/

/-- An RB.DECODE that is answered OK has decoded its block. -/
theorem decodeBlock_of_exec {s t : State} {cat : BlockCat} {left top fld inf : Bool} {v : Word}
    (h : exec (.rbDecode cat left top fld inf) s = .next t) (hans : Answered t 0 0 v) :
    contextBinAdmitted s = true ∧ blockIndicesOk s.params.ctxMap cat left top fld inf = true ∧
    ∃ u, decodeBlock cat left top fld inf s = .ok v u ∧ t = complete v u := by
  cases effect_of_exec h with
  | notAdmitted => exact absurd hans (raiseError_response_ne_ok (by simp [badState]) s v)
  | outOfRange => exact absurd hans (raiseError_response_ne_ok (by simp [illegal]) s v)
  | rejected _ e _ _ he => exact absurd hans (raiseError_response_ne_ok (status_of_mem_rejection he).1 s v)
  | rbDecodeAborted => exact absurd hans (raiseError_response_ne_ok (by simp [exhausted]) _ v)
  | rbDecode _ _ _ _ _ v' u ha hok hdec =>
    obtain rfl := (answered_complete_iff.1 hans).2.2
    exact ⟨ha, hok, u, hdec, rfl⟩

/-- 43_residual_block.md R232, R235, R240: what every block that is decoded leaves in the output registers. -/
theorem BlockResult.outputs {cat : BlockCat} {inferred : Bool} {u t : State} {v : Word}
    (h : BlockResult cat inferred u t v) :
    t.outValid = true ∧ v = BitVec.ofNat 32 (256 * t.outNLevels.toNat + t.outCbf.toNat) ∧
    popcount t.outSig = t.outNLevels.toNat ∧
    (∀ i, t.outSig.getLsbD i = true → catStart cat ≤ i ∧ i ≤ catLast cat) ∧
    (t.outCbf = false → t.outSig = 0 ∧ t.outNLevels = 0) ∧ (t.outCbf = true → 1 ≤ t.outNLevels.toNat) ∧
    (inferred = true → t.outCbf = true) ∧
    ∀ j : Fin 64, j.val < t.outNLevels.toNat → LevelOk t.outLevel[j] := by
  rcases h with ⟨rfl, rfl, rfl⟩ | ⟨t', rfl, h⟩
  · have hsig (i : Nat) (hi : (0#64).getLsbD i = true) : catStart cat ≤ i ∧ i ≤ catLast cat := by simp at hi
    exact ⟨rfl, rfl, show popcount 0 = 0 by decide, hsig, fun _ => ⟨rfl, rfl⟩, fun h => (nomatch h),
      fun h => (nomatch h), fun j hj => absurd hj (Nat.not_lt_zero _)⟩
  · obtain ⟨hvalid, hcbf, hpos, hpop, hv, hsig, hlev⟩ := h.outputs
    have hno (h : t'.outCbf = false) : False := by simp [hcbf] at h
    exact ⟨hvalid, by rw [setDecoding_outCbf, hcbf]; exact hv, hpop, hsig, fun h => (hno h).elim, fun _ => hpos,
      fun _ => hcbf, hlev⟩

/-- All that an RB.DECODE with enough valid bits leaves (43_residual_block.md R225). -/
theorem complete_of_blockResult {s u t : State} {cat : BlockCat} {inferred : Bool} {v : Word}
    (h : BinsFrom { s with outValid := false } u) (hr : BlockResult cat inferred u t v) :
    complete v t = { s with
      range := t.range, value := t.value, bitOffset := t.bitOffset, ctx := t.ctx, phase := .decoding,
      outCbf := t.outCbf, outNLevels := t.outNLevels, outSig := t.outSig, outLevel := t.outLevel,
      outValid := true, response := (complete v t).response, draws := t.draws } := by
  rcases hr with ⟨-, rfl, -⟩ | ⟨t', rfl, sig, ls, rfl, -⟩ <;>
  · rw [h.1]
    rfl

/-! ## An empty block -/

/-- A bin that succeeds does so whatever the site of its index error (41_context_table.md R160). -/
theorem decodeRegular_site {s u : State} {idx : Nat} {site : Byte} {b : Bool}
    (h : decodeRegular idx site s = .ok b u) (site' : Byte) : decodeRegular idx site' s = .ok b u := by
  by_cases hidx : idx < 460
  · rw [decodeRegular, ctxRef_of_lt hidx] at h ⊢
    exact h
  · rw [decodeRegular, ctxRef_of_ge (Nat.not_lt.1 hidx)] at h
    cases h

/-- An AD.BIN that is answered OK has decoded its bin. -/
theorem decodeRegular_of_answered {s t : State} {idx : BitVec 16} {r : Word} (h : exec (.adBin idx) s = .next t)
    (hans : Answered t 0 0 r) :
    contextBinAdmitted s = true ∧
    ∃ b u, decodeRegular idx.toNat 0x20 s = .ok b u ∧ r = bitWord b ∧ t = complete (bitWord b) (setDecoding u) := by
  cases effect_of_exec h with
  | notAdmitted => exact absurd hans (raiseError_response_ne_ok (by simp [badState]) s r)
  | outOfRange => exact absurd hans (raiseError_response_ne_ok (by simp [illegal]) s r)
  | rejected _ e _ _ he => exact absurd hans (raiseError_response_ne_ok (status_of_mem_rejection he).1 s r)
  | adBinAborted => exact absurd hans (raiseError_response_ne_ok (by simp [exhausted]) s r)
  | adBin _ b u ha hdec => exact ⟨ha, b, u, hdec, (answered_complete_iff.1 hans).2.2, rfl⟩

/-- A bin from a state whose outputs are hidden leaves them hidden, and all else as the bin. -/
theorem decodeRegular_hideOutputs {s u : State} {idx : Nat} {site : Byte} {b : Bool}
    (h : decodeRegular idx site s = .ok b u) :
    ∃ u', decodeRegular idx site { s with outValid := false } = .ok b u' ∧ Twin u' u := by
  have hret := decodeRegular_retag s.phase s.response false idx site s
  rw [h] at hret
  exact ⟨_, hret, rfl⟩

/-- 43_residual_block.md R238: a coded-block-flag bin of 0 ends the block. -/
theorem decodeBlock_of_emptyFlag {s u : State} {cat : BlockCat} {left top fld : Bool} {idx : Nat}
    (hc : cbfCtx s.params.ctxMap cat left top = some idx)
    (h : decodeRegular idx 0x21 { s with outValid := false } = .ok false u) :
    decodeBlock cat left top fld false s = .ok 0 (setDecoding (storeEmptyBlock u)) := by
  simp only [decodeBlock, codedBlockFlag, hc, h, Res.bind_ok, Bool.false_eq_true, if_false]

/-! ## The suffix of a magnitude -/

/-- 43_residual_block.md R230: the run k is at most 20 and its k bits are below 2^k. -/
theorem suffix_bounds {s u w : State} {k : Nat} {v : Word} (hk : bypassUnary 20 0 s = .ok k u)
    (hv : bypassBits k 0 u = .ok v w) : k ≤ 20 ∧ v.toNat < 2 ^ k := by
  obtain ⟨-, -, hle⟩ := ((binRule_binsFrom s).bypassUnary 20 0 0 s (.refl s)).of_ok hk
  have hbits := (((binRule_binsFrom u).bypassBits k 0 0 u (.refl u)).of_ok hv).2
  have hpow : 2 ^ k ≤ 2 ^ 32 := Nat.pow_le_pow_right (by decide) (by omega)
  exact ⟨by omega, by simpa using hbits (by simpa using hpow)⟩

/-- 43_residual_block.md R230: the sum does not wrap. -/
theorem escaped_toNat {k : Nat} {v : Word} (hk : k ≤ 20) (hv : v.toNat < 2 ^ k) :
    (BitVec.ofNat 32 prefixCap + 1#32 <<< k + v).toNat = 14 + 2 ^ k + v.toNat ∧ 2 ^ k ≤ 2 ^ 20 := by
  have hpow : 2 ^ k ≤ 2 ^ 20 := Nat.pow_le_pow_right (by decide) hk
  have hshift : (1#32 <<< k).toNat = 2 ^ k := by
    rw [BitVec.toNat_shiftLeft, Nat.shiftLeft_eq, BitVec.toNat_ofNat]
    omega
  refine ⟨?_, hpow⟩
  rw [BitVec.toNat_add, BitVec.toNat_add, hshift]
  simp only [prefixCap, BitVec.toNat_ofNat]
  omega

theorem magnitudeSuffix_of_ok {s u w : State} {k : Nat} {v : Word} (hk : bypassUnary 20 0 s = .ok k u)
    (hv : bypassBits k 0 u = .ok v w) :
    magnitudeSuffix s = .ok (BitVec.ofNat 32 prefixCap + 1#32 <<< k + v) w := by
  rw [magnitudeSuffix, suffixUnaryCap, hk, Res.bind_ok, hv, Res.bind_ok]

/-- A magnitude's level is it or its exact negation (43_residual_block.md R231). -/
theorem level_toInt {mag : Word} (h : mag.toNat ≤ 2097165) (neg : Bool) :
    (if neg then 0 - mag else mag).toInt = if neg then -(mag.toNat : Int) else mag.toNat := by
  have hzero : (0 : Word).toNat = 0 := rfl
  cases neg with
  | false =>
    simp only [Bool.false_eq_true, if_false, BitVec.toInt_eq_toNat_cond]
    split <;> omega
  | true =>
    simp only [if_true, BitVec.toInt_eq_toNat_cond, BitVec.toNat_sub, hzero]
    split <;> omega

end Sys2Proof.Machine

namespace Sys2Proof.Proofs

open Sys2Proof.Machine Sys2Proof.Claims

/-- Settles O54: each cause contradicts what a check that passes assures. -/
theorem rbDecodeChecksItsIndices : Obligations.RbDecodeChecksItsIndices := by
  intro s cat left top fld inf hact hctx hcause
  refine exec_rbDecode_of_badIndices (contextBinAdmitted_eq_true_iff.2 ⟨hact, hctx⟩) ?_
  by_contra hok
  obtain ⟨hscan, habs, hcbf⟩ := blockIndicesOk_spec (Bool.not_eq_false _ ▸ hok)
  rcases hcause with ⟨hinf, hnone⟩ | ⟨hinf, c, hc, hge⟩ | ⟨i, hlo, hhi, hge⟩ | hge
  · obtain ⟨idx, hidx, -⟩ := hcbf hinf
    exact absurd (hnone.symm.trans hidx) (by simp)
  · obtain ⟨idx, hidx, hlt⟩ := hcbf hinf
    obtain rfl := Option.some.inj (hc.symm.trans hidx)
    omega
  · have hi := hscan i (mem_scanForward_iff.2 ⟨hlo, hhi⟩)
    omega
  · omega

/-- Settles O55: with 32 valid bits for each of 3647 bins no renormalisation fails. -/
theorem rbDecodeCompletes : Obligations.RbDecodeCompletes := by
  intro s cat left top fld inf hact hctx hok hfit
  have ha : contextBinAdmitted s = true := contextBinAdmitted_eq_true_iff.2 ⟨hact, hctx⟩
  have R := binRule_binsFit (s0 := { s with outValid := false }) hfit
  have hpost := R.decodeBlock hok (k := 0) (s := s) ⟨.refl _, by simp⟩
  obtain ⟨v, t, ht, u, hu, hres⟩ :
      ∃ v t, decodeBlock cat left top fld inf s = .ok v t ∧
        ∃ u, BinsFit { s with outValid := false } 3647 0 u ∧ BlockResult cat inf u t v :=
    (hpost.mono (fun _ _ h => h) (fun _ _ ⟨_, h, _⟩ => h)).exists_ok
  have hexec : exec (.rbDecode cat left top fld inf) s = .next (complete v t) := by
    rw [exec_rbDecode_of_goodIndices ha hok, ht]
    rfl
  refine ⟨_, v, hexec, rfl, hres.outputs.1, hres.phase, ?_, complete_of_blockResult hu.1 hres⟩
  have hoff : t.bitOffset = u.bitOffset := hres.sameDecoder.bitOffset
  rw [complete_bitOffset, hoff]
  exact hu.2

/-- Settles O56. -/
theorem rbDecodeOutputsAreConsistent : Obligations.RbDecodeOutputsAreConsistent := by
  intro s t cat left top fld inf v h hans
  obtain ⟨-, hok, u, hdec, rfl⟩ := decodeBlock_of_exec h hans
  obtain ⟨w, -, hres⟩ := (decodeBlock_binsFrom hok).of_ok hdec
  rw [scanBounds_eq]
  exact hres.outputs

/-- Settles O57: the block's one bin is the AD.BIN's, at a state whose outputs are hidden. -/
theorem rbDecodeOfAnEmptyBlock : Obligations.RbDecodeOfAnEmptyBlock := by
  intro s u cat left top fld idx hok hc hx hans
  obtain ⟨ha, b, w, hdec, hb, rfl⟩ := decodeRegular_of_answered hx hans
  obtain rfl : b = false := by revert hb; cases b <;> decide
  obtain ⟨w', hdec', htwin⟩ := decodeRegular_hideOutputs (decodeRegular_site hdec 0x21)
  have hexec : exec (.rbDecode cat left top fld false) s =
      .next (complete 0 (setDecoding (storeEmptyBlock w'))) := by
    rw [exec_rbDecode_of_goodIndices ha hok, decodeBlock_of_emptyFlag hc hdec']
    rfl
  rw [htwin]
  exact ⟨_, hexec, rfl, rfl, rfl, rfl, rfl, rfl, rfl, rfl, rfl, rfl⟩

/-- Settles O58: the only BufferExhausted of RB.DECODE is a bin's, and `out_valid` fell before the first bin. -/
theorem rbDecodeFailureHidesTheOutputs : Obligations.RbDecodeFailureHidesTheOutputs := by
  intro s t cat left top fld inf info r h hans
  cases effect_of_exec h with
  | notAdmitted => exact absurd (answered_raiseError_iff.1 hans).1 (by simp [badState, statusCode])
  | outOfRange => exact absurd (answered_raiseError_iff.1 hans).1 (by simp [illegal, statusCode])
  | rejected _ e _ _ he =>
    obtain rfl := List.mem_singleton.1 he
    exact absurd (answered_raiseError_iff.1 hans).1 (by simp [statusCode])
  | rbDecode => exact absurd (answered_complete_iff.1 hans).1 (by decide)
  | rbDecodeAborted _ _ _ _ _ u _ hok hdec =>
    obtain ⟨w, ⟨hw, -⟩, rfl⟩ := (decodeBlock_binsFrom hok).of_err hdec
    have hvalid : w.outValid = false := hw.1.sameOutputs.outValid
    obtain ⟨-, rfl, rfl⟩ := answered_raiseError_iff.1 hans
    refine ⟨rfl, rfl, rfl, hvalid, rfl, fun reg hreg => exec_of_not_admitted rfl ?_⟩
    rcases hreg with rfl | rfl | rfl | rfl | ⟨j, rfl⟩ <;> simp [Admitted, hvalid]

/-- Settles O60. -/
theorem escapedMagnitudesCombineRunAndBits : Obligations.EscapedMagnitudesCombineRunAndBits := by
  refine ⟨fun s u w k v hk hv => ?_, fun l mag _ hle => ⟨mag, 0 - mag, rfl, rfl, ?_, ?_⟩⟩
  · obtain ⟨hk20, hlt⟩ := suffix_bounds hk hv
    obtain ⟨hval, hpow⟩ := escaped_toNat hk20 hlt
    have hpos := Nat.two_pow_pos k
    exact ⟨_, magnitudeSuffix_of_ok hk hv, hval, by omega, by omega⟩
  · exact level_toInt hle false
  · exact level_toInt hle true

end Sys2Proof.Proofs

/-! Multi-bin commands as their bins (42_arithmetic_decoder.md R188, R189; 43_residual_block.md R225, R239): a procedure
follows a script where its bins are those of the script's commands, in their order, up to its end or to the bin that
fails; scripts are put together as the procedures are. -/

namespace Sys2Proof.Machine

open Sys2Proof.Claims

/-! ## Single bins in a row -/

/-- The single-bin procedure of an admitted AD.BIN or AD.BYP. -/
inductive OneBin (s : State) : Instr → Res Bool → Prop
  | regular (idx : BitVec 16) (ha : contextBinAdmitted s = true) (hidx : idx.toNat < 460) :
      OneBin s (.adBin idx) (decodeRegular idx.toNat 0x21 s)
  | bypass (ha : phaseActive s = true) : OneBin s .adByp (decodeBypass s)

/-- Single-bin commands in a row, their bins, and the state behind the last. -/
inductive BinRun : List Instr → State → List Bool → State → Prop
  | nil (s : State) : BinRun [] s [] s
  | cons {c : Instr} {s t u : State} {b : Bool} {cs : List Instr} {bs : List Bool} (h : OneBin s c (.ok b t))
      (hrun : BinRun cs t bs u) : BinRun (c :: cs) s (b :: bs) u

theorem BinRun.append {cs cs' : List Instr} {s t u : State} {bs bs' : List Bool} (h : BinRun cs s bs t)
    (h' : BinRun cs' t bs' u) : BinRun (cs ++ cs') s (bs ++ bs') u := by
  induction h with
  | nil => exact h'
  | cons hbin _ ih => exact .cons hbin (ih h')

theorem BinRun.length_eq {cs : List Instr} {s t : State} {bs : List Bool} (h : BinRun cs s bs t) :
    cs.length = bs.length := by
  induction h with
  | nil => rfl
  | cons _ _ ih => rw [List.length_cons, List.length_cons, ih]

theorem OneBin.binsFrom {s t : State} {c : Instr} {b : Bool} (h : OneBin s c (.ok b t)) : BinsFrom s t := by
  generalize hr : Res.ok b t = r at h
  cases h with
  | regular idx => exact (binsFrom_regular _ _ (.refl s)).of_ok hr.symm
  | bypass => exact (binsFrom_bypass (.refl s)).of_ok hr.symm

theorem BinsFrom.trans {s t u : State} (h : BinsFrom s t) (k : BinsFrom t u) : BinsFrom s u :=
  ⟨h.1.trans k.1, k.2.trans h.2⟩

theorem BinRun.binsFrom {cs : List Instr} {s t : State} {bs : List Bool} (h : BinRun cs s bs t) : BinsFrom s t := by
  induction h with
  | nil s => exact .refl s
  | cons hbin _ ih => exact hbin.binsFrom.trans ih

theorem BinsFrom.phaseActive {s t : State} (h : BinsFrom s t) : phaseActive t = phaseActive s := by
  simp only [Machine.phaseActive, h.2]

theorem BinsFrom.contextBinAdmitted {s t : State} (h : BinsFrom s t) :
    contextBinAdmitted t = contextBinAdmitted s := by
  rw [Machine.contextBinAdmitted, Machine.contextBinAdmitted, h.phaseActive, h.1.command.ctxValid]

theorem Twin.ctxValid {s t : State} (h : Twin s t) : t.ctxValid = s.ctxValid := by
  rw [h]
  rfl

/-- A single-bin command on a state's twin is the state's bin (42_arithmetic_decoder.md R177, R187). -/
theorem exec_of_oneBin {s t : State} {c : Instr} {r : Res Bool} (h : OneBin s c r) (ht : Twin s t)
    (ha : phaseActive t = true) :
    exec c t = answer ((r.mapState (retag t.phase t.response t.outValid)).bind fun b u =>
      .ok (bitWord b) (setDecoding u)) := by
  cases h with
  | regular idx has hidx =>
    have hat : contextBinAdmitted t = true := by
      rw [contextBinAdmitted, ha, ht.ctxValid, (contextBinAdmitted_eq_true_iff.1 has).2]
      rfl
    have hsite : decodeRegular idx.toNat 0x20 t = decodeRegular idx.toNat 0x21 t := by
      rw [decodeRegular, decodeRegular, ctxRef_of_lt hidx, ctxRef_of_lt hidx]
    rw [exec, execAdBin, gated_true hat, hsite, ← decodeRegular_retag, ← ht]
  | bypass => rw [exec_adByp_of_active ha, ← decodeBypass_retag, ← ht]

theorem okBit_response (b : Bool) (u : State) : (complete (bitWord b) u).response = some (if b then 1 else 0) := by
  cases b <;> rfl

theorem runBins_cons {c : Instr} {cs : List Instr} {t u w : State} {b : Bool} {bs : List Bool}
    (hx : exec c t = .next (complete (bitWord b) u)) (hrun : runBins cs (complete (bitWord b) u) = some (bs, w)) :
    runBins (c :: cs) t = some (b :: bs, w) := by
  rw [runBins, hx]
  simp only [okBit_response]
  cases b with
  | true => simp [hrun]
  | false => simp [hrun]

/-- Single bins in a row are single-bin commands in a row on a twin state. -/
theorem runBins_of_binRun {cs : List Instr} {s t w : State} {bs : List Bool} (h : BinRun cs s bs w) (ht : Twin s t)
    (ha : phaseActive t = true) :
    ∃ u, runBins cs t = some (bs, u) ∧ Twin w u ∧ phaseActive u = true ∧ u.outValid = t.outValid ∧
      (bs ≠ [] → u.phase = .decoding) := by
  induction h generalizing t with
  | nil s => exact ⟨t, rfl, ht, ha, rfl, fun h => absurd rfl h⟩
  | @cons c s s' w b cs bs hbin hrun ih =>
    have hx := exec_of_oneBin hbin ht ha
    have ht' : Twin s' (complete (bitWord b) (setDecoding (retag t.phase t.response t.outValid s'))) := rfl
    obtain ⟨u, hu, hwu, hact, hvalid, hphase⟩ := ih ht' rfl
    refine ⟨u, runBins_cons hx hu, hwu, hact, hvalid, fun _ => ?_⟩
    by_cases hbs : bs = []
    · subst hbs
      cases hrun
      cases hu
      rfl
    · exact hphase hbs

/-- A single bin that fails is its command's abort (60_exceptions.md R273). -/
theorem exec_of_oneBin_err {s t : State} {c : Instr} (h : OneBin s c (.err (exhausted 0x04) s)) (ht : Twin s t)
    (ha : phaseActive t = true) : exec c t = .next (abortedWith 0x04 t) := by
  rw [exec_of_oneBin h ht ha]
  change Host.Outcome.next (raiseError (exhausted 0x04) (retag t.phase t.response t.outValid s)) = _
  rw [← ht, raiseError_eq_abortedWith rfl]
  rfl

/-! ## Scripts -/

/-- The result r of a procedure at s follows the script C: with OK, at most N bins are those of commands that C gives
for them, the rest of the script is K of a value g that Rel ties to the result, and D reads g off the bins; with an
error, C's commands for the bins so far end in the one that fails. -/
def Follows {α γ : Type} (Rel : α → γ → Prop) (N : Nat) (s : State) (C : List Bool → List Instr)
    (K : γ → List Bool → List Instr) (D : List Bool → Option (γ × List Bool)) : Res α → Prop
  | .ok a w => ∃ bs cs g, bs.length ≤ N ∧ BinRun cs s bs w ∧ Rel a g ∧ (∀ rest, C (bs ++ rest) = cs ++ K g rest) ∧
      ∀ rest, D (bs ++ rest) = some (g, rest)
  | .err e w => e = exhausted 0x04 ∧ ∃ bs cs c, BinRun cs s bs w ∧ OneBin w c (.err e w) ∧ C bs = cs ++ [c]

section Follows

variable {α β γ δ : Type} {Rel : α → γ → Prop} {N : Nat} {s : State} {C : List Bool → List Instr}
  {K : γ → List Bool → List Instr} {D : List Bool → Option (γ × List Bool)} {r : Res α}

theorem Follows.mono {N' : Nat} {Rel' : α → γ → Prop} (h : Follows Rel N s C K D r) (hN : N ≤ N')
    (hRel : ∀ a g, Rel a g → Rel' a g) : Follows Rel' N' s C K D r := by
  cases r with
  | ok a w =>
    obtain ⟨bs, cs, g, hlen, hrun, hrel, hC, hD⟩ := h
    exact ⟨bs, cs, g, le_trans hlen hN, hrun, hRel a g hrel, hC, hD⟩
  | err e w => exact h

/-- No bin. -/
theorem follows_ok {a : α} {g : γ} (hrel : Rel a g) (hC : ∀ rest, C rest = K g rest)
    (hD : ∀ rest, D rest = some (g, rest)) : Follows Rel N s C K D (.ok a s) :=
  ⟨[], [], g, Nat.zero_le _, .nil s, hrel, hC, hD⟩

/-- One procedure after another. -/
theorem Follows.bind {M : Nat} {Rel' : β → δ → Prop} {K' : δ → List Bool → List Instr}
    {D' : List Bool → Option (δ × List Bool)} {E : γ → List Bool → Option (δ × List Bool)} {f : α → State → Res β}
    (h : Follows Rel N s C K D r)
    (hf : ∀ a g w, BinsFrom s w → Rel a g → Follows Rel' M w (K g) K' (E g) (f a w))
    (hD : ∀ bins g rest, D bins = some (g, rest) → D' bins = E g rest) :
    Follows Rel' (N + M) s C K' D' (r.bind f) := by
  cases r with
  | err e w => exact h
  | ok a w =>
    obtain ⟨bs, cs, g, hlen, hrun, hrel, hC, hread⟩ := h
    have h2 := hf a g w hrun.binsFrom hrel
    rw [Res.bind_ok]
    generalize f a w = r2 at h2
    cases r2 with
    | ok a2 w2 =>
      obtain ⟨bs2, cs2, g2, hlen2, hrun2, hrel2, hC2, hread2⟩ := h2
      refine ⟨bs ++ bs2, cs ++ cs2, g2, by rw [List.length_append]; omega, hrun.append hrun2, hrel2,
        fun rest => ?_, fun rest => ?_⟩
      · rw [List.append_assoc, hC, hC2, List.append_assoc]
      · rw [List.append_assoc, hD _ _ _ (hread _), hread2]
    | err e w2 =>
      obtain ⟨he, bs2, cs2, c, hrun2, hc, hC2⟩ := h2
      exact ⟨he, bs ++ bs2, cs ++ cs2, c, hrun.append hrun2, hc, by rw [hC, hC2, List.append_assoc]⟩

end Follows

/-- The first bin of a list. -/
def headBin : List Bool → Option (Bool × List Bool)
  | [] => none
  | b :: rest => some (b, rest)

theorem headBin_eq_some {bins rest : List Bool} {b : Bool} (h : headBin bins = some (b, rest)) : bins = b :: rest := by
  cases bins with
  | nil => cases h
  | cons b' rest' =>
    cases h
    rfl

/-- A bin ends with the bin, or out of valid bits where it stood. -/
theorem OneBin.cases_result {s : State} {c : Instr} {r : Res Bool} (h : OneBin s c r) :
    (∃ b t, r = .ok b t) ∨ r = .err (exhausted 0x04) s := by
  cases h with
  | regular idx _ hidx =>
    rcases decodeRegular_cases idx.toNat 0x21 s with ⟨hge, _⟩ | ⟨_, ⟨_, _, e⟩ | ⟨_, e⟩⟩
    · omega
    · exact .inl ⟨_, _, e⟩
    · exact .inr e
  | bypass =>
    rcases decodeBypass_cases s with ⟨_, _, ⟨_, e⟩ | ⟨_, e⟩⟩ | ⟨_, e⟩
    · exact .inl ⟨_, _, e⟩
    · exact .inl ⟨_, _, e⟩
    · exact .inr e

/-- One bin, its command first in the script. -/
theorem follows_bin {s : State} {c : Instr} {r : Res Bool} (h : OneBin s c r) {C : List Bool → List Instr}
    {K : Bool → List Bool → List Instr} (hnil : C [] = [c]) (hcons : ∀ b rest, C (b :: rest) = c :: K b rest) :
    Follows Eq 1 s C K headBin r := by
  rcases h.cases_result with ⟨b, t, rfl⟩ | rfl
  · exact ⟨[b], [c], b, Nat.le_refl 1, .cons h (.nil t), rfl, fun rest => hcons b rest, fun _ => rfl⟩
  · exact ⟨rfl, [], [], c, .nil s, h, hnil⟩

/-- Admission of the bins of a loop, from its first state on. -/
theorem oneBin_bypass {s t : State} (hs : phaseActive s = true) (h : BinsFrom s t) :
    OneBin t .adByp (decodeBypass t) := .bypass (h.phaseActive.trans hs)

theorem oneBin_regular {s t : State} (hs : contextBinAdmitted s = true) (h : BinsFrom s t) {idx : Nat}
    (hidx : idx < 460) : OneBin t (binAt idx) (decodeRegular idx 0x21 t) := by
  have hnum : (BitVec.ofNat 16 idx).toNat = idx := by
    rw [BitVec.toNat_ofNat, Nat.mod_eq_of_lt (by omega)]
  have hbin : OneBin t (binAt idx) (decodeRegular (BitVec.ofNat 16 idx).toNat 0x21 t) :=
    .regular _ (h.contextBinAdmitted.trans hs) (by omega)
  rwa [hnum] at hbin

/-! ## Bypass loops -/

/-- A run of ones read with the ones before it counted. -/
def onesFrom (cap c : Nat) (bins : List Bool) : Option (Nat × List Bool) :=
  (onesOf cap bins).map fun (x, rest) => (c + x, rest)

theorem onesFrom_zero (cap : Nat) (bins : List Bool) : onesFrom cap 0 bins = onesOf cap bins := by
  simp [onesFrom]

theorem onesFrom_true (cap c : Nat) (bins : List Bool) :
    onesFrom (cap + 1) c (true :: bins) = onesFrom cap (c + 1) bins := by
  simp only [onesFrom, onesOf, Option.map_map]
  congr 1
  funext x
  exact Prod.ext (show c + (x.1 + 1) = c + 1 + x.1 by omega) rfl

/-- What a run of ones does behind one more bin: go on with a 1, end with a 0. -/
def onesRest (later : Instr) (next : Nat → List Bool → List Instr) (cap c : Nat) : Bool → List Bool → List Instr
  | true => onesCommands later next cap later (c + 1)
  | false => next c

theorem onesCommands_cons (later first : Instr) (next : Nat → List Bool → List Instr) (cap c : Nat) (b : Bool)
    (rest : List Bool) :
    onesCommands later next (cap + 1) first c (b :: rest) = first :: onesRest later next cap c b rest := by
  cases b <;> rfl

/-- Step of a run of ones: one bin, and behind a 1 the run that is left. -/
theorem follows_onesStep {s : State} {first later : Instr} {next : Nat → List Bool → List Instr} {cap c : Nat}
    {r : Res Bool} {f : State → Res Nat} (hbin : OneBin s first r)
    (hf : ∀ w, BinsFrom s w → Follows (fun a g => a = g ∧ g ≤ c + 1 + cap) cap w
      (onesCommands later next cap later (c + 1)) next (onesFrom cap (c + 1)) (f w)) :
    Follows (fun a g => a = g ∧ g ≤ c + (cap + 1)) (cap + 1) s (onesCommands later next (cap + 1) first c) next
      (onesFrom (cap + 1) c) (r.bind fun b w => if b then f w else .ok c w) := by
  refine ((follows_bin hbin rfl (onesCommands_cons later first next cap c)).bind (M := cap)
    (Rel' := fun a g => a = g ∧ g ≤ c + (cap + 1)) (K' := next) (D' := onesFrom (cap + 1) c)
    (E := fun b rest => onesFrom (cap + 1) c (b :: rest)) (fun b g w hw hb => ?_) (fun bins b rest h => ?_)).mono
    (by omega) fun _ _ h => h
  · subst hb
    cases b with
    | true =>
      simp only [if_true, onesFrom_true]
      exact (hf w hw).mono (Nat.le_refl _) fun a g ⟨hag, hle⟩ => ⟨hag, by omega⟩
    | false => exact follows_ok ⟨rfl, by omega⟩ (fun _ => rfl) (fun _ => rfl)
  · rw [headBin_eq_some h]

/-- The bypass run of AD.BYPU (42_arithmetic_decoder.md R189). -/
theorem follows_bypassUnary (next : Nat → List Bool → List Instr) (n : Nat) : ∀ (c : Nat) (s : State),
    phaseActive s = true →
    Follows (fun a g => a = g ∧ g ≤ c + n) n s (onesCommands .adByp next n .adByp c) next (onesFrom n c)
      (bypassUnary n c s) := by
  induction n with
  | zero => exact fun c s _ => follows_ok ⟨rfl, Nat.le_refl c⟩ (fun _ => rfl) (fun _ => rfl)
  | succ n ih =>
    intro c s ha
    exact follows_onesStep (f := fun w => bypassUnary n (c + 1) w) (oneBin_bypass ha (.refl s))
      fun w hw => ih (c + 1) w (hw.phaseActive.trans ha)

/-- n bins read as a number behind the number v. -/
def numberFrom (n v : Nat) (bins : List Bool) : Option (Nat × List Bool) :=
  (numberOf n bins).map fun (x, rest) => (v * 2 ^ n + x, rest)

theorem numberFrom_zero_left (v : Nat) (bins : List Bool) : numberFrom 0 v bins = some (v, bins) := by
  simp [numberFrom, numberOf, msbFirst]

theorem numberFrom_zero_right (n : Nat) (bins : List Bool) : numberFrom n 0 bins = numberOf n bins := by
  simp [numberFrom]

theorem numberFrom_cons (n v : Nat) (b : Bool) (bins : List Bool) :
    numberFrom (n + 1) v (b :: bins) = numberFrom n (2 * v + b.toNat) bins := by
  unfold numberFrom numberOf
  by_cases h : n ≤ bins.length
  · have hcons : n + 1 ≤ (b :: bins).length := Nat.succ_le_succ h
    rw [if_pos h, if_pos hcons, List.take_succ_cons, List.drop_succ_cons, Option.map_some, Option.map_some,
      msbFirst_cons, List.length_take_of_le h, Nat.pow_succ]
    exact congrArg some (Prod.ext (by ring) rfl)
  · have hcons : ¬ n + 1 ≤ (b :: bins).length := fun hle => h (Nat.le_of_succ_le_succ hle)
    rw [if_neg h, if_neg hcons]
    rfl

/-- The bypass bits of AD.BYPN (42_arithmetic_decoder.md R188), where the number fits a word. -/
theorem follows_bypassBits (next : Nat → List Bool → List Instr) (n : Nat) : ∀ (v : Nat) (s : State),
    phaseActive s = true → (v + 1) * 2 ^ n ≤ 2 ^ 32 →
    Follows (fun (a : Word) g => a.toNat = g ∧ g < (v + 1) * 2 ^ n) n s (numberCommands next n v) next
      (numberFrom n v) (bypassBits n (BitVec.ofNat 32 v) s) := by
  induction n with
  | zero =>
    intro v s _ hv
    refine follows_ok ⟨?_, by omega⟩ (fun _ => rfl) (numberFrom_zero_left v)
    rw [BitVec.toNat_ofNat, Nat.mod_eq_of_lt (by omega)]
  | succ n ih =>
    intro v s ha hv
    have hle (b : Bool) : (2 * v + b.toNat + 1) * 2 ^ n ≤ (v + 1) * 2 ^ (n + 1) := by
      rw [Nat.pow_succ, Nat.mul_comm (2 ^ n) 2, ← Nat.mul_assoc]
      exact Nat.mul_le_mul_right _ (by have := b.toNat_lt; omega)
    refine ((follows_bin (K := fun b rest => numberCommands next n (2 * v + b.toNat) rest) (oneBin_bypass ha (.refl s))
      (C := numberCommands next (n + 1) v) rfl fun _ _ => rfl).bind (M := n) (K' := next) (D' := numberFrom (n + 1) v)
      (Rel' := fun (a : Word) g => a.toNat = g ∧ g < (v + 1) * 2 ^ (n + 1))
      (E := fun b rest => numberFrom n (2 * v + b.toNat) rest) (fun b g w hw hb => ?_) (fun bins b rest h => ?_)).mono
      (by omega) fun _ _ h => h
    · subst hb
      rw [ofNat_shiftLeft_or_bitWord]
      exact (ih (2 * v + b.toNat) w (hw.phaseActive.trans ha) (le_trans (hle b) hv)).mono (Nat.le_refl n)
        fun a g ⟨hag, hlt⟩ => ⟨hag, lt_of_lt_of_le hlt (hle b)⟩
    · rw [headBin_eq_some h, numberFrom_cons]

end Sys2Proof.Machine

/-! RB.DECODE as a script of single bins (43_residual_block.md R225 to R231, R239). -/

namespace Sys2Proof.Machine

open Sys2Proof.Claims

/-! ## The context indices of the script -/

theorem catColumn_eq (cat : BlockCat) : catColumn cat = catIndex cat := by cases cat <;> rfl

theorem cbfIndex_eq (m : CtxMap) (cat : BlockCat) (left top : Bool) :
    cbfIndex m cat left top = cbfCtx m cat left top := by
  simp only [cbfIndex, cbfCtx, catColumn_eq]
  cases left <;> cases top <;> rfl

theorem sigIndex_eq (m : CtxMap) (cat : BlockCat) (fld : Bool) (i : Nat) :
    sigIndex m cat fld i = sigCtx m cat fld i := by
  simp only [sigIndex, sigCtx, catColumn_eq, scanBounds_eq, Vector.getElem?_toList]
  cases cat <;> rfl

theorem lastIndex_eq (m : CtxMap) (cat : BlockCat) (fld : Bool) (i : Nat) :
    lastIndex m cat fld i = lastCtx m cat fld i := by
  simp only [lastIndex, lastCtx, catColumn_eq, scanBounds_eq, Vector.getElem?_toList]
  cases cat <;> rfl

theorem abs0Index_eq (m : CtxMap) (cat : BlockCat) (eq1 gt1 : Nat) :
    abs0Index m cat eq1 gt1 = absCtx0 m cat eq1 gt1 := by
  simp only [abs0Index, absCtx0, catColumn_eq, ne_eq, ite_not]

theorem absNIndex_eq (m : CtxMap) (cat : BlockCat) (gt1 : Nat) : absNIndex m cat gt1 = absCtxN m cat gt1 := by
  simp only [absNIndex, absCtxN, catColumn_eq]
  cases cat <;> rfl

theorem phaseActive_of_contextBin {s : State} (h : contextBinAdmitted s = true) : phaseActive s = true :=
  phaseActive_eq_true_iff.2 (contextBinAdmitted_eq_true_iff.1 h).1

theorem BinsFrom.params {s t : State} (h : BinsFrom s t) : t.params = s.params := h.1.params

/-- A value read off the bins that is the image of another. -/
theorem Follows.map {α γ δ : Type} {Rel : α → γ → Prop} {Rel' : α → δ → Prop} {N : Nat} {s : State}
    {C : List Bool → List Instr} {K : γ → List Bool → List Instr} {K' : δ → List Bool → List Instr}
    {D : List Bool → Option (γ × List Bool)} {D' : List Bool → Option (δ × List Bool)} {r : Res α}
    (h : Follows Rel N s C K D r) (φ : γ → δ) (hRel : ∀ a g, Rel a g → Rel' a (φ g)) (hK : ∀ g, K g = K' (φ g))
    (hD : ∀ bins g rest, D bins = some (g, rest) → D' bins = some (φ g, rest)) : Follows Rel' N s C K' D' r := by
  cases r with
  | err e w => exact h
  | ok a w =>
    obtain ⟨bs, cs, g, hlen, hrun, hrel, hC, hread⟩ := h
    exact ⟨bs, cs, φ g, hlen, hrun, hRel a g hrel, fun rest => by rw [hC, hK], fun rest => hD _ _ _ (hread rest)⟩

/-! ## One magnitude -/

section Magnitude

variable {m : CtxMap} {cat : BlockCat}

/-- 43_residual_block.md R229: the first bin at `idx`, every later one at `AbsCtxN`. -/
theorem follows_magnitudePrefix (habs : m.absBase[catIndex cat] + 9 < 460) (gt1 : Nat)
    (next : Nat → List Bool → List Instr) (n : Nat) : ∀ (c idx : Nat) (s : State),
    contextBinAdmitted s = true → s.params.ctxMap = m → idx < 460 →
    Follows (fun a g => a = g ∧ g ≤ c + n) n s (onesCommands (binAt (absNIndex m cat gt1)) next n (binAt idx) c) next
      (onesFrom n c) (magnitudePrefix cat gt1 n c idx s) := by
  induction n with
  | zero => exact fun c idx s _ _ _ => follows_ok ⟨rfl, Nat.le_refl c⟩ (fun _ => rfl) (fun _ => rfl)
  | succ n ih =>
    intro c idx s ha hm hidx
    refine follows_onesStep (f := fun w => magnitudePrefix cat gt1 n (c + 1) (absCtxN w.params.ctxMap cat gt1) w)
      (oneBin_regular ha (.refl s) hidx) fun w hw => ?_
    have hmw : w.params.ctxMap = m := by rw [hw.params, hm]
    have hN := absCtxN_le m cat gt1
    rw [hmw, absNIndex_eq]
    exact absNIndex_eq m cat gt1 ▸
      ih (c + 1) (absCtxN m cat gt1) w (hw.contextBinAdmitted.trans ha) hmw (by omega)

/-- 43_residual_block.md R230, over the list of bins. -/
def suffixOf (bins : List Bool) : Option (Nat × List Bool) :=
  (onesOf 20 bins).bind fun (k, bins) => (numberOf k bins).map fun (v, bins) => (14 + 2 ^ k + v, bins)

theorem magnitudeOf_eq (bins : List Bool) :
    magnitudeOf bins = (onesOf 14 bins).bind fun (c, bins) => if c < 14 then some (1 + c, bins) else suffixOf bins := by
  unfold magnitudeOf suffixOf
  cases onesOf 14 bins with
  | none => rfl
  | some x =>
    change (if _ then _ else _) = ite _ _ _
    congr 1
    cases onesOf 20 x.2 with
    | none => rfl
    | some y => cases h : numberOf y.1 y.2 <;> simp [h]

/-- The suffix's script (43_residual_block.md R230). -/
def suffixCommands (next : Nat → List Bool → List Instr) : List Bool → List Instr :=
  onesCommands .adByp (fun k => numberCommands (fun v => next (14 + 2 ^ k + v)) k 0) 20 .adByp 0

/-- What a magnitude's word is to the magnitude the bins say (43_residual_block.md R240). -/
def MagnitudeIs (mag : Word) (g : Nat) : Prop := mag.toNat = g ∧ 1 ≤ g ∧ g ≤ 2097165

theorem follows_magnitudeSuffix (next : Nat → List Bool → List Instr) {s : State} (ha : phaseActive s = true) :
    Follows MagnitudeIs 40 s (suffixCommands next) next suffixOf (magnitudeSuffix s) := by
  refine (follows_bypassUnary (fun k => numberCommands (fun v => next (14 + 2 ^ k + v)) k 0) 20 0 s ha).bind (M := 20)
    (E := fun k bins => (numberOf k bins).map fun (v, bins) => (14 + 2 ^ k + v, bins)) (fun a k w hw hk => ?_)
    (fun bins k rest h => ?_)
  · obtain ⟨rfl, hk20⟩ := hk
    rw [Nat.zero_add] at hk20
    have hfit : (0 + 1) * 2 ^ a ≤ 2 ^ 32 := by
      rw [Nat.zero_add, Nat.one_mul]
      exact Nat.pow_le_pow_right (by decide) (by omega)
    refine ((follows_bypassBits (fun v => next (14 + 2 ^ a + v)) a 0 w (hw.phaseActive.trans ha) hfit).bind (M := 0)
      (E := fun v bins => some (14 + 2 ^ a + v, bins)) (fun v g u _ hv => ?_) (fun bins v rest h => ?_)).mono
      (by omega) fun _ _ h => h
    · obtain ⟨rfl, hlt⟩ := hv
      rw [Nat.zero_add, Nat.one_mul] at hlt
      obtain ⟨hval, hpow⟩ := escaped_toNat hk20 hlt
      exact follows_ok (g := 14 + 2 ^ a + v.toNat) ⟨hval, by omega, by omega⟩ (fun _ => rfl) (fun _ => rfl)
    · rw [numberFrom_zero_right] at h
      rw [h]
      rfl
  · rw [onesFrom_zero] at h
    rw [suffixOf, h]
    rfl

theorem follows_magnitude (habs : m.absBase[catIndex cat] + 9 < 460) (eq1 gt1 : Nat)
    (next : Nat → List Bool → List Instr) {s : State} (ha : contextBinAdmitted s = true)
    (hm : s.params.ctxMap = m) :
    Follows MagnitudeIs 54 s (magnitudeCommands m cat eq1 gt1 next) next magnitudeOf (magnitude cat eq1 gt1 s) := by
  have h0 := absCtx0_le m cat eq1 gt1
  have hpre := follows_magnitudePrefix habs gt1
    (fun c bins => if c < 14 then next (1 + c) bins else suffixCommands next bins) 14 0 (absCtx0 m cat eq1 gt1) s ha hm (by omega)
  rw [← abs0Index_eq, ← hm] at hpre
  rw [magnitude, ← abs0Index_eq, ← hm]
  refine hpre.bind (M := 40) (E := fun c bins => if c < 14 then some (1 + c, bins) else suffixOf bins)
    (fun a c w hw hc => ?_) (fun bins c rest h => ?_)
  · obtain ⟨rfl, hle⟩ := hc
    by_cases hfull : a = prefixCap
    · have hlt : ¬ a < 14 := by rw [hfull]; decide
      simp only [if_pos hfull, if_neg hlt]
      exact follows_magnitudeSuffix next (hw.phaseActive.trans (phaseActive_of_contextBin ha))
    · have hlt : a < 14 := lt_of_le_of_ne (by omega) hfull
      simp only [if_neg hfull, if_pos hlt]
      refine follows_ok (g := 1 + a) ⟨?_, by omega, by omega⟩ (fun _ => rfl) (fun _ => rfl)
      rw [BitVec.toNat_add, BitVec.toNat_ofNat]
      simp
      omega
  · rw [onesFrom_zero] at h
    rw [magnitudeOf_eq, h]
    rfl

end Magnitude

/-! ## The levels -/

section Levels

variable {m : CtxMap} {cat : BlockCat}

/-- The level of a magnitude and its sign bin (43_residual_block.md R231). -/
def signed (mag : Nat) (negative : Bool) : Int := if negative then -(mag : Int) else mag

/-- The levels behind one with the bins of its sign and theirs ahead. -/
def levelsBehind (n mag : Nat) : List Bool → Option (List Int × List Bool)
  | [] => none
  | b :: bins => (levelsOf n bins).map fun (ls, bins) => (signed mag b :: ls, bins)

theorem numberOf_one_cons (b : Bool) (bins : List Bool) : numberOf 1 (b :: bins) = some (b.toNat, bins) := by
  rw [numberOf, if_pos (by simp)]
  cases b <;> rfl

theorem levelsOf_succ {n mag : Nat} {bins rest : List Bool} (h : magnitudeOf bins = some (mag, rest)) :
    levelsOf (n + 1) bins = levelsBehind n mag rest := by
  rw [levelsOf, levelOf, h]
  cases rest with
  | nil => rfl
  | cons b rest =>
    simp only [Option.bind_eq_bind, Option.bind_some, numberOf_one_cons, levelsBehind]
    cases levelsOf n rest <;> cases b <;> rfl

/-- The script behind a sign bin goes on with the counters of 43_residual_block.md R236. -/
theorem levelsCommands_nextLevel (n : Nat) (a : LevelScan) {mag : Word} {g : Nat} (hmag : mag.toNat = g) (b : Bool)
    (bins : List Bool) :
    (if 1 < g then levelsCommands m cat n a.eq1 (min 4 (a.gt1 + 1)) bins
      else if a.gt1 = 0 then levelsCommands m cat n (min 4 (a.eq1 + 1)) a.gt1 bins
      else levelsCommands m cat n a.eq1 a.gt1 bins) =
    levelsCommands m cat n (nextLevel a mag b).eq1 (nextLevel a mag b).gt1 bins := by
  have hlt : (1 < mag) = (1 < g) := by rw [BitVec.lt_def, hmag]; rfl
  simp only [nextLevel, counterCap, hlt]
  split
  · rfl
  · split <;> rfl

/-- What the levels of a scan are to those the bins say: the scan's first ones, and then these, in decode order. -/
def LevelsAre (before : LevelScan) (n : Nat) (after : LevelScan) (g : List Int) : Prop :=
  after.levels.reverse.map BitVec.toInt = before.levels.reverse.map BitVec.toInt ++ g ∧ g.length = n

theorem LevelsAre.cons {a r : LevelScan} {n mag : Nat} {w : Word} {b : Bool} {g : List Int}
    (h : LevelsAre (nextLevel a w b) n r g) (hw : MagnitudeIs w mag) : LevelsAre a (n + 1) r (signed mag b :: g) := by
  obtain ⟨hlev, hlen⟩ := h
  obtain ⟨rfl, -, hle⟩ := hw
  refine ⟨?_, by rw [List.length_cons, hlen]⟩
  rw [hlev, nextLevel, List.reverse_cons, List.map_append, List.append_assoc, List.map_singleton, level_toInt hle]
  rfl

/-- Step 3 (43_residual_block.md R228): a magnitude and a sign at every scan index whose bit is set. -/
theorem follows_levelScan (habs : m.absBase[catIndex cat] + 9 < 460) (sig : BitVec 64) (l : List Nat) :
    ∀ (a : LevelScan) (s : State), contextBinAdmitted s = true → s.params.ctxMap = m →
    Follows (LevelsAre a (l.countP sig.getLsbD)) (55 * l.length) s
      (levelsCommands m cat (l.countP sig.getLsbD) a.eq1 a.gt1) (fun _ _ => []) (levelsOf (l.countP sig.getLsbD))
      (levelScan cat sig l a s) := by
  induction l with
  | nil => exact fun a s _ _ => follows_ok (g := []) ⟨by simp, rfl⟩ (fun _ => rfl) (fun _ => rfl)
  | cons i rest ih =>
    intro a s ha hm
    rw [levelScan]
    cases hbit : sig.getLsbD i with
    | false =>
      rw [if_neg Bool.false_ne_true, List.countP_cons_of_neg (by simp [hbit])]
      exact (ih a s ha hm).mono (by simp) fun _ _ h => h
    | true =>
      rw [if_pos rfl, List.countP_cons_of_pos hbit]
      refine ((follows_magnitude habs a.eq1 a.gt1 _ ha hm).bind (M := 1 + 55 * rest.length)
        (E := levelsBehind (rest.countP sig.getLsbD)) (fun w mag s' hs' hw => ?_) (fun bins mag left h =>
        levelsOf_succ h)).mono (by rw [List.length_cons]; omega) fun _ _ h => h
      refine (follows_bin (oneBin_bypass (phaseActive_of_contextBin ha) hs') rfl fun _ _ => rfl).bind
        (E := fun b bins => levelsBehind (rest.countP sig.getLsbD) mag (b :: bins)) (fun b b' s'' hs'' hb => ?_)
        (fun bins b left h => by rw [headBin_eq_some h])
      subst hb
      have hfrom := hs'.trans hs''
      have hlater := ih (nextLevel a w b) s'' (hfrom.contextBinAdmitted.trans ha) (by rw [hfrom.params, hm])
      simp only [levelsCommands_nextLevel _ a hw.1 b]
      refine hlater.map (signed mag b :: ·) (fun r g hr => hr.cons hw) (fun _ => rfl) fun bins g left h => ?_
      rw [levelsBehind, h]
      rfl

end Levels

/-! ## The significance map -/

theorem Res.bind_assoc {α β γ : Type} (r : Res α) (f : α → State → Res β) (g : β → State → Res γ) :
    (r.bind f).bind g = r.bind fun a s => (f a s).bind g := by cases r <;> rfl

/-- The bitmap of the scan indices that remain, the last index marked where no last-flag bin stopped the scan
(43_residual_block.md R226, R227). -/
def significantFrom (cat : BlockCat) (fld : Bool) (l : List Nat) (sig : BitVec 64) (s : State) : Res (BitVec 64) :=
  (significanceScan cat fld l sig s).bind fun (sig, stopped) s =>
    .ok (if stopped then sig else sig ||| 1#64 <<< catLast cat) s

theorem significanceMap_eq (cat : BlockCat) (fld : Bool) (s : State) :
    significanceMap cat fld s =
      significantFrom cat fld (List.range' (catStart cat) (catLast cat - catStart cat)) 0 s := rfl

theorem significantFrom_cons (cat : BlockCat) (fld : Bool) (i : Nat) (l : List Nat) (sig : BitVec 64) (s : State) :
    significantFrom cat fld (i :: l) sig s =
      (decodeRegular (sigCtx s.params.ctxMap cat fld i) 0x21 s).bind fun b s =>
        if b then
          (decodeRegular (lastCtx s.params.ctxMap cat fld i) 0x21 s).bind fun last s =>
            if last then .ok (sig ||| 1#64 <<< i) s else significantFrom cat fld l (sig ||| 1#64 <<< i) s
        else significantFrom cat fld l sig s := by
  rw [significantFrom, significanceScan, Res.bind_assoc]
  congr 1
  funext b s
  cases b with
  | false => rfl
  | true =>
    rw [if_pos rfl, if_pos rfl, Res.bind_assoc]
    congr 1
    funext last s
    cases last <;> rfl

theorem getLsbD_mark (sig : BitVec 64) {i : Nat} (hi : i < 64) (j : Nat) :
    (sig ||| 1#64 <<< i).getLsbD j = (sig.getLsbD j || decide (j = i)) := by
  rw [BitVec.getLsbD_or, BitVec.getLsbD_shiftLeft, BitVec.getLsbD_one]
  congr 1
  rw [Bool.eq_iff_iff]
  simp only [Bool.and_eq_true, decide_eq_true_eq, Bool.not_eq_true', decide_eq_false_iff_not]
  omega

/-- `out` is `sig` with the indices g set, rising ones from i to the last of the category. -/
def Marks (cat : BlockCat) (i : Nat) (sig out : BitVec 64) (g : List Nat) : Prop :=
  (∀ j, out.getLsbD j = (sig.getLsbD j || decide (j ∈ g))) ∧ g.Pairwise (· < ·) ∧ ∀ j ∈ g, i ≤ j ∧ j ≤ catLast cat

theorem marks_singleton {cat : BlockCat} {i : Nat} (hi : i ≤ catLast cat) (sig : BitVec 64) :
    Marks cat i sig (sig ||| 1#64 <<< i) [i] := by
  have hlast := (catLast_lt cat).2
  refine ⟨fun j => ?_, List.pairwise_singleton _ _, fun j hj => ?_⟩
  · simp [getLsbD_mark sig (show i < 64 by omega)]
  · obtain rfl := List.mem_singleton.1 hj
    exact ⟨Nat.le_refl j, hi⟩

theorem Marks.skip {cat : BlockCat} {i : Nat} {sig out : BitVec 64} {g : List Nat} (h : Marks cat (i + 1) sig out g) :
    Marks cat i sig out g := by
  obtain ⟨hout, hrise, hin⟩ := h
  exact ⟨hout, hrise, fun j hj => ⟨Nat.le_of_succ_le (hin j hj).1, (hin j hj).2⟩⟩

theorem Marks.cons {cat : BlockCat} {i : Nat} {sig out : BitVec 64} {g : List Nat} (hi : i ≤ catLast cat)
    (h : Marks cat (i + 1) (sig ||| 1#64 <<< i) out g) : Marks cat i sig out (i :: g) := by
  have hlast := (catLast_lt cat).2
  obtain ⟨hout, hrise, hin⟩ := h
  refine ⟨fun j => ?_, List.pairwise_cons.2 ⟨fun j hj => (hin j hj).1, hrise⟩, fun j hj => ?_⟩
  · rw [hout, getLsbD_mark sig (show i < 64 by omega), Bool.or_assoc]
    simp [List.mem_cons, Bool.decide_or]
  · rcases List.mem_cons.1 hj with rfl | hj
    · exact ⟨Nat.le_refl j, hi⟩
    · exact ⟨Nat.le_of_succ_le (hin j hj).1, (hin j hj).2⟩

section Indices

variable {m : CtxMap} {cat : BlockCat} {fld : Bool}

/-- The script behind a significance bin of 1: the last-flag bin, and behind it the levels or the next index. -/
def lastCommands (m : CtxMap) (cat : BlockCat) (fld : Bool) (left i n : Nat) : List Bool → List Instr
  | [] => [binAt (lastIndex m cat fld i)]
  | true :: bins => binAt (lastIndex m cat fld i) :: levelsCommands m cat (n + 1) 0 0 bins
  | false :: bins => binAt (lastIndex m cat fld i) :: indicesCommands m cat fld left (i + 1) (n + 1) bins

theorem indicesCommands_cons (left i n : Nat) (b : Bool) (bins : List Bool) :
    indicesCommands m cat fld (left + 1) i n (b :: bins) = binAt (sigIndex m cat fld i) ::
      (if b then lastCommands m cat fld left i n else indicesCommands m cat fld left (i + 1) n) bins := by
  cases b with
  | false => rfl
  | true =>
    cases bins with
    | nil => rfl
    | cons b bins => cases b <;> rfl

theorem lastCommands_cons (left i n : Nat) (b : Bool) (bins : List Bool) :
    lastCommands m cat fld left i n (b :: bins) = binAt (lastIndex m cat fld i) ::
      (if b then levelsCommands m cat (n + 1) 0 0 else indicesCommands m cat fld left (i + 1) (n + 1)) bins := by
  cases b <;> rfl

/-- Step 2 (43_residual_block.md R226, R227): at most two bins at every scan index but the last. -/
theorem follows_significantFrom (hidx : ∀ i ∈ scanForward cat, sigCtx m cat fld i < 460 ∧ lastCtx m cat fld i < 460)
    (left : Nat) : ∀ (i n : Nat) (sig : BitVec 64) (s : State), contextBinAdmitted s = true → s.params.ctxMap = m →
    catStart cat ≤ i → i + left = catLast cat →
    Follows (Marks cat i sig) (2 * left) s (indicesCommands m cat fld left i n)
      (fun g => levelsCommands m cat (n + g.length) 0 0) (indicesOf left i)
      (significantFrom cat fld (List.range' i left) sig s) := by
  induction left with
  | zero =>
    intro i n sig s _ _ _ hend
    obtain rfl : i = catLast cat := hend
    exact follows_ok (g := [catLast cat]) (marks_singleton (Nat.le_refl _) sig) (fun _ => rfl) (fun _ => rfl)
  | succ left ih =>
    intro i n sig s ha hm hstart hend
    have hle : i ≤ catLast cat := by omega
    obtain ⟨hsig, hlast⟩ := hidx i (List.mem_range'_1.2 (by omega))
    rw [List.range'_succ, significantFrom_cons, hm]
    rw [← sigIndex_eq] at hsig ⊢
    rw [← lastIndex_eq] at hlast
    refine ((follows_bin (oneBin_regular ha (.refl s) hsig) rfl (indicesCommands_cons left i n)).bind
      (M := 1 + 2 * left) (E := fun b bins => indicesOf (left + 1) i (b :: bins)) (fun b b' s1 hs1 hb => ?_)
      (fun bins b rest h => by rw [headBin_eq_some h])).mono (by omega) fun _ _ h => h
    subst hb
    cases b with
    | false =>
      have hskip := ih (i + 1) n sig s1 (hs1.contextBinAdmitted.trans ha) (by rw [hs1.params, hm]) (by omega) (by omega)
      exact hskip.mono (by omega) fun _ _ h => h.skip
    | true =>
      rw [if_pos rfl, if_pos rfl, hs1.params, hm, ← lastIndex_eq]
      refine (follows_bin (oneBin_regular ha hs1 hlast) rfl (lastCommands_cons left i n)).bind
        (E := fun b bins => indicesOf (left + 1) i (true :: b :: bins)) (fun b b' s2 hs2 hb => ?_)
        (fun bins b rest h => by rw [headBin_eq_some h])
      subst hb
      cases b with
      | true => exact follows_ok (g := [i]) (marks_singleton hle sig) (fun _ => rfl) (fun _ => rfl)
      | false =>
        have hfrom := hs1.trans hs2
        have hmore := ih (i + 1) (n + 1) (sig ||| 1#64 <<< i) s2 (hfrom.contextBinAdmitted.trans ha)
          (by rw [hfrom.params, hm]) (by omega) (by omega)
        refine hmore.map (i :: ·) (fun _ _ h => h.cons hle) (fun g => ?_) fun bins g rest h => ?_
        · rw [List.length_cons, Nat.add_assoc, Nat.add_comm 1]
        · rw [indicesOf, h]
          rfl

end Indices

end Sys2Proof.Machine

/-! RB.DECODE is its bins: the whole block's script, and what its bins say (43_residual_block.md R225, R239). -/

namespace Sys2Proof.Machine

open Sys2Proof.Claims

/-! ## The block -/

/-- What the bins behind a flag of 1 decode: the bitmap and the levels in decode order. -/
def codedBins (cat : BlockCat) (fld : Bool) (s : State) : Res (Option (BitVec 64 × List Word)) :=
  (significanceMap cat fld s).bind fun sig s =>
    (levelScan cat sig (scanReverse cat) ⟨0, 0, []⟩ s).bind fun l s => .ok (some (sig, l.levels.reverse)) s

/-- What a block's bins decode. -/
def blockBins (cat : BlockCat) (left top fld inferred : Bool) (s : State) : Res (Option (BitVec 64 × List Word)) :=
  (codedBlockFlag cat left top inferred s).bind fun cbf s => if cbf then codedBins cat fld s else .ok none s

/-- The output block of what the bins decode (43_residual_block.md R225 step 4). -/
def storeBins : Option (BitVec 64 × List Word) → State → State
  | none, s => storeEmptyBlock s
  | some (sig, levels), s => storeBlock sig levels s

/-- The result word of what the bins decode (43_residual_block.md R235). -/
def binsWord : Option (BitVec 64 × List Word) → Word
  | none => 0
  | some (_, levels) => (BitVec.ofNat 32 levels.length <<< 8) ||| 1

/-- The end of RB.DECODE behind its last bin. -/
def endBlock : Res (Option (BitVec 64 × List Word)) → Res Word
  | .ok x w => .ok (binsWord x) (setDecoding (storeBins x w))
  | .err e w => .err e (loseBlock w)

/-- RB.DECODE touches its outputs before its first bin and behind its last alone. -/
theorem decodeBlock_eq (cat : BlockCat) (left top fld inferred : Bool) (s : State) :
    decodeBlock cat left top fld inferred s =
      endBlock (blockBins cat left top fld inferred { s with outValid := false }) := by
  unfold decodeBlock blockBins
  generalize codedBlockFlag cat left top inferred { s with outValid := false } = r
  cases r with
  | err e w => rfl
  | ok cbf w =>
    cases cbf with
    | false => rfl
    | true =>
      simp only [Res.bind_ok, if_true, decodeCodedBlock, codedBins]
      generalize significanceMap cat fld w = r
      cases r with
      | err e w => rfl
      | ok sig w =>
        simp only [Res.bind_ok]
        generalize levelScan cat sig (scanReverse cat) ⟨0, 0, []⟩ w = r
        cases r with
        | err e w => rfl
        | ok l w =>
          simp only [Res.bind_ok, endBlock, binsWord, storeBins, List.length_reverse]

/-- What the bins decode is what they say. -/
inductive BlockSays : Option (BitVec 64 × List Word) → Option (List Nat × List Int) → Prop
  | empty : BlockSays none none
  | coded {sig : BitVec 64} {levels : List Word} {indices : List Nat}
      (hsig : ∀ i, sig.getLsbD i = true ↔ i ∈ indices) (hlen : levels.length ≤ 64) :
      BlockSays (some (sig, levels)) (some (indices, levels.map BitVec.toInt))

/-- The bins behind a flag of 1, those not used handed on. -/
def codedOf (cat : BlockCat) (bins : List Bool) : Option (Option (List Nat × List Int) × List Bool) :=
  (indicesOf (catLast cat - catStart cat) (catStart cat) bins).bind fun (indices, bins) =>
    (levelsOf indices.length bins).map fun (levels, bins) => (some (indices, levels), bins)

/-- The bins of a block, those not used handed on. -/
def blockFrom (cat : BlockCat) (inferred : Bool) (bins : List Bool) :
    Option (Option (List Nat × List Int) × List Bool) :=
  if inferred then codedOf cat bins
  else (headBin bins).bind fun (flag, bins) => if flag then codedOf cat bins else some (none, bins)

theorem codedOf_nil (cat : BlockCat) : codedOf cat [] = none := by cases cat <;> rfl

theorem blockFrom_nil (cat : BlockCat) (inferred : Bool) : blockFrom cat inferred [] = none := by
  cases inferred with
  | true => exact codedOf_nil cat
  | false => rfl

/-- Bins that are all used are a block's. -/
theorem blockOf_of_blockFrom {cat : BlockCat} {inferred : Bool} {bins : List Bool} {g : Option (List Nat × List Int)}
    (h : blockFrom cat inferred bins = some (g, [])) : blockOf cat inferred bins = some g := by
  have hcoded {bins : List Bool} (h : codedOf cat bins = some (g, [])) :
      (do
        let (indices, bins) ← indicesOf (catLast cat - catStart cat) (catStart cat) bins
        let (levels, bins) ← levelsOf indices.length bins
        if bins = [] then some (some (indices, levels)) else none) = some g := by
    obtain ⟨⟨indices, rest⟩, hind, h⟩ := Option.bind_eq_some_iff.1 h
    obtain ⟨⟨levels, rest'⟩, hlev, h⟩ := Option.map_eq_some_iff.1 h
    cases h
    simp [hind, hlev]
  cases inferred with
  | true => simpa [blockOf, scanBounds_eq] using hcoded h
  | false =>
    obtain ⟨⟨flag, rest⟩, hflag, h⟩ := Option.bind_eq_some_iff.1 h
    rw [headBin_eq_some hflag, blockOf, if_neg Bool.false_ne_true, numberOf_one_cons]
    cases flag with
    | true => simpa [scanBounds_eq] using hcoded h
    | false =>
      cases h
      rfl

/-- The indices are as many as the reverse scan meets. -/
theorem countP_scanReverse {cat : BlockCat} {sig : BitVec 64} {g : List Nat} (h : Marks cat (catStart cat) 0 sig g) :
    (scanReverse cat).countP sig.getLsbD = g.length := by
  obtain ⟨hsig, hrise, hin⟩ := h
  have hle := (catLast_lt cat).1
  have hnodup : (scanReverse cat).Nodup := by
    rw [scanReverse, List.nodup_reverse]
    cases cat <;> decide
  rw [List.countP_eq_length_filter]
  refine (List.perm_ext_iff_of_nodup (hnodup.filter _) (hrise.imp Nat.ne_of_lt)).2 (fun j => ?_) |>.length_eq
  simp only [List.mem_filter, scanReverse, List.mem_reverse, List.mem_append, List.mem_singleton, scanForward,
    List.mem_range'_1, hsig, BitVec.ofNat_eq_ofNat, BitVec.getLsbD_zero, Bool.false_or, decide_eq_true_eq]
  exact ⟨fun h => h.2, fun hj => ⟨by have := hin j hj; omega, hj⟩⟩

theorem length_scanReverse_le (cat : BlockCat) : (scanReverse cat).length ≤ 64 := by cases cat <;> decide

section Block

variable {m : CtxMap} {cat : BlockCat} {left top fld inferred : Bool}

/-- The script behind a flag of 1. -/
def codedCommands (m : CtxMap) (cat : BlockCat) (fld : Bool) : List Bool → List Instr :=
  indicesCommands m cat fld (catLast cat - catStart cat) (catStart cat) 0

theorem blockCommands_inferred : blockCommands m cat left top fld true = codedCommands m cat fld := by
  funext bins
  unfold blockCommands
  rw [if_pos rfl, scanBounds_eq]
  rfl

theorem blockCommands_nil {idx : Nat} (h : cbfCtx m cat left top = some idx) :
    blockCommands m cat left top fld false [] = [binAt idx] := by
  unfold blockCommands
  rw [if_neg Bool.false_ne_true, cbfIndex_eq, h]

theorem blockCommands_cons {idx : Nat} (h : cbfCtx m cat left top = some idx) (b : Bool) (bins : List Bool) :
    blockCommands m cat left top fld false (b :: bins) =
      binAt idx :: (if b then codedCommands m cat fld else fun _ => []) bins := by
  unfold blockCommands
  rw [if_neg Bool.false_ne_true, cbfIndex_eq, h, scanBounds_eq]
  cases b <;> rfl

/-- Steps 2 and 3: at most 3646 bins. -/
theorem follows_codedBins (hidx : ∀ i ∈ scanForward cat, sigCtx m cat fld i < 460 ∧ lastCtx m cat fld i < 460)
    (habs : m.absBase[catIndex cat] + 9 < 460) {s : State} (ha : contextBinAdmitted s = true)
    (hm : s.params.ctxMap = m) :
    Follows BlockSays 3646 s (codedCommands m cat fld) (fun _ _ => []) (codedOf cat) (codedBins cat fld s) := by
  obtain ⟨hlt, hlast⟩ := catLast_lt cat
  have hscan := length_scanReverse_le cat
  rw [codedBins, significanceMap_eq]
  refine ((follows_significantFrom hidx _ _ 0 0 s ha hm (Nat.le_refl _) (by omega)).bind (M := 3520)
    (E := fun g bins => (levelsOf g.length bins).map fun (levels, bins) => (some (g, levels), bins))
    (fun sig g w hw hg => ?_) (fun bins g rest h => by rw [codedOf, h]; rfl)).mono (by omega) fun _ _ h => h
  have hcount := countP_scanReverse hg
  have hlev := follows_levelScan habs sig (scanReverse cat) ⟨0, 0, []⟩ w (hw.contextBinAdmitted.trans ha)
    (by rw [hw.params, hm])
  rw [hcount] at hlev
  rw [Nat.zero_add]
  refine (hlev.bind (M := 0) (E := fun levels bins => some (some (g, levels), bins)) (fun l levels u _ hl => ?_)
    (fun bins levels rest h => by rw [h]; rfl)).mono (by omega) fun _ _ h => h
  obtain ⟨hval, hlen⟩ := hl
  obtain rfl : l.levels.reverse.map BitVec.toInt = levels := hval
  refine follows_ok (.coded (fun i => by simp [hg.1 i]) ?_) (fun _ => rfl) (fun _ => rfl)
  have hle := (scanReverse cat).countP_le_length (p := sig.getLsbD)
  rw [List.length_map] at hlen
  omega

/-- The block's script (43_residual_block.md R225, 30_encoding.md R91). -/
theorem follows_blockBins (hok : blockIndicesOk m cat left top fld inferred = true) {s : State}
    (ha : contextBinAdmitted s = true) (hm : s.params.ctxMap = m) :
    Follows BlockSays 3647 s (blockCommands m cat left top fld inferred) (fun _ _ => []) (blockFrom cat inferred)
      (blockBins cat left top fld inferred s) := by
  obtain ⟨hidx, habs, hcbf⟩ := blockIndicesOk_spec hok
  cases inferred with
  | true =>
    rw [blockCommands_inferred]
    exact (follows_codedBins hidx habs ha hm).mono (by omega) fun _ _ h => h
  | false =>
    obtain ⟨idx, hc, hlt⟩ := hcbf rfl
    have hflag : codedBlockFlag cat left top false s = decodeRegular idx 0x21 s := by
      simp [codedBlockFlag, hm, hc]
    rw [blockBins, hflag]
    refine (follows_bin (oneBin_regular ha (.refl s) hlt) (blockCommands_nil hc) (blockCommands_cons hc)).bind
      (M := 3646) (E := fun flag bins => if flag then codedOf cat bins else some (none, bins))
      (fun b b' w hw hb => ?_) (fun bins flag rest h => by rw [blockFrom, h]; rfl)
    subst hb
    cases b with
    | true => exact follows_codedBins hidx habs (hw.contextBinAdmitted.trans ha) (by rw [hw.params, hm])
    | false => exact follows_ok .empty (fun _ => rfl) (fun _ => rfl)

end Block

end Sys2Proof.Machine

/-! What a command leaves, by how it ends: after an error the state of its bins up to the one that fails
(43_residual_block.md R237; 60_exceptions.md R273, R280, R281). -/

namespace Sys2Proof.Machine

open Sys2Proof.Claims

/-- Up to the state u the command's single bins are answered OK, and the next one is aborted there. -/
def StopsAt (s : State) (i : Instr) (u : State) : Prop :=
  ∃ bins c, runBins ((binCommands s.params.ctxMap i bins).take bins.length) s = some (bins, u) ∧
    (binCommands s.params.ctxMap i bins)[bins.length]? = some c ∧ exec c u = .next (abortedWith 0x04 u)

/-- A single-bin command that is aborted stops at once. -/
theorem stopsAt_self {s : State} {i : Instr} (hC : binCommands s.params.ctxMap i [] = [i])
    (h : exec i s = .next (abortedWith 0x04 s)) : StopsAt s i s :=
  ⟨[], i, rfl, by rw [hC]; rfl, h⟩

/-- A script that ends in a bin that fails stops its command there. -/
theorem stopsAt_of_follows {α γ : Type} {Rel : α → γ → Prop} {N : Nat} {s s' w : State} {i : Instr}
    {K : γ → List Bool → List Instr} {D : List Bool → Option (γ × List Bool)} {e : CmdError}
    (h : Follows Rel N s' (binCommands s.params.ctxMap i) K D (.err e w)) (ht : Twin s' s)
    (ha : phaseActive s = true) :
    ∃ u, StopsAt s i u ∧ Twin w u ∧ u.outValid = s.outValid ∧ w.outValid = s'.outValid := by
  obtain ⟨rfl, bs, cs, c, hrun, hc, hC⟩ := h
  obtain ⟨u, hu, htwin, hact, hvalid, -⟩ := runBins_of_binRun hrun ht ha
  refine ⟨u, ⟨bs, c, ?_, ?_, exec_of_oneBin_err hc htwin hact⟩, htwin, hvalid,
    hrun.binsFrom.1.sameOutputs.outValid⟩
  · rw [hC, ← hrun.length_eq, List.take_left, hu]
  · rw [hC, ← hrun.length_eq, List.getElem?_concat_length]

theorem abortedWith_of_twin {w u : State} (h : Twin w u) (hv : u.outValid = w.outValid) (info : Byte) :
    abortedWith info w = abortedWith info u := by
  rw [h, hv]
  rfl

/-- What an aborted command leaves (60_exceptions.md R273 grade (b), 43_residual_block.md R237). -/
inductive Abort (s : State) : Instr → Byte → State → Prop
  | init : Abort s .adInit 0x03 (abortedWith 0x03 s)
  | realign : Abort s .adRealign 0x05 (abortedWith 0x05 s)
  | single (i : Instr) (h : i = .adTerm ∨ i = .adByp ∨ ∃ idx, i = .adBin idx) (hstop : StopsAt s i s) :
      Abort s i 0x04 (abortedWith 0x04 s)
  | loop (i : Instr) (u : State) (h : (∃ n, i = .adBypn n) ∨ ∃ max, i = .adBypu max) (hstop : StopsAt s i u) :
      Abort s i 0x04 (abortedWith 0x04 u)
  | block (cat : BlockCat) (left top fld inferred : Bool) (u t : State)
      (hstop : StopsAt s (.rbDecode cat left top fld inferred) u)
      (ht : t = { abortedWith 0x04 u with
        outCbf := t.outCbf, outNLevels := t.outNLevels, outSig := t.outSig, outLevel := t.outLevel,
        outValid := false, draws := t.draws }) : Abort s (.rbDecode cat left top fld inferred) 0x04 t

/-- How a command ends, and what it leaves of LASTERR and the rest. -/
inductive Closing (s : State) (i : Instr) : State → Prop
  | done (v : Word) (u : State) (hrec : i ≠ .reset → u.lastErr = s.lastErr) : Closing s i (complete v u)
  | refused (e : CmdError) (h : RefusalError s i e) : Closing s i (raiseError e s)
  | aborted (info : Byte) (t : State) (h : Abort s i info t) : Closing s i t

theorem BinFrame.lastErr {s t : State} (h : BinFrame s t) : t.lastErr = s.lastErr := by rw [h]

theorem BlockResult.lastErr {cat : BlockCat} {inferred : Bool} {u t : State} {v : Word}
    (h : BlockResult cat inferred u t v) : t.lastErr = u.lastErr := by
  rcases h with ⟨-, rfl, -⟩ | ⟨t', rfl, sig, ls, rfl, -⟩ <;> rfl

theorem abort_of_adBypn {s u : State} {n : Byte} (hn : n.toNat ≤ 32) (ha : phaseActive s = true)
    (h : bypassBits n.toNat 0 s = .err (exhausted 0x04) u) :
    Abort s (.adBypn n) 0x04 (raiseError (exhausted 0x04) u) := by
  have hfit : (0 + 1) * 2 ^ n.toNat ≤ 2 ^ 32 := by
    rw [Nat.zero_add, Nat.one_mul]
    exact Nat.pow_le_pow_right (by decide) hn
  have hf := follows_bypassBits (fun _ _ => []) n.toNat 0 s ha hfit
  rw [show BitVec.ofNat 32 0 = 0 from rfl, h] at hf
  obtain ⟨w, hstop, htwin, hv, hv'⟩ := stopsAt_of_follows (i := .adBypn n) hf (.refl s) ha
  rw [raiseError_eq_abortedWith rfl, abortedWith_of_twin htwin (hv.trans hv'.symm)]
  exact .loop _ w (.inl ⟨n, rfl⟩) hstop

theorem abort_of_adBypu {s u : State} {max : Byte} (ha : phaseActive s = true)
    (h : bypassUnary max.toNat 0 s = .err (exhausted 0x04) u) :
    Abort s (.adBypu max) 0x04 (raiseError (exhausted 0x04) u) := by
  have hf := follows_bypassUnary (fun _ _ => []) max.toNat 0 s ha
  rw [h] at hf
  obtain ⟨w, hstop, htwin, hv, hv'⟩ := stopsAt_of_follows (i := .adBypu max) hf (.refl s) ha
  rw [raiseError_eq_abortedWith rfl, abortedWith_of_twin htwin (hv.trans hv'.symm)]
  exact .loop _ w (.inr ⟨max, rfl⟩) hstop

/-- 43_residual_block.md R237: the outputs of a block that fails are lost, all else is as the bins left it. -/
theorem raiseError_loseBlock {w u : State} (h : Twin w u) (hv : w.outValid = false) :
    raiseError (exhausted 0x04) (loseBlock w) = { abortedWith 0x04 u with
      outCbf := (loseBlock w).outCbf, outNLevels := (loseBlock w).outNLevels, outSig := (loseBlock w).outSig,
      outLevel := (loseBlock w).outLevel, outValid := false, draws := (loseBlock w).draws } := by
  rw [raiseError_eq_abortedWith rfl, h, ← hv]
  rfl

theorem abort_of_rbDecode {s u : State} {cat : BlockCat} {left top fld inferred : Bool}
    (ha : contextBinAdmitted s = true) (hok : blockIndicesOk s.params.ctxMap cat left top fld inferred = true)
    (h : decodeBlock cat left top fld inferred s = .err (exhausted 0x04) u) :
    Abort s (.rbDecode cat left top fld inferred) 0x04 (raiseError (exhausted 0x04) u) := by
  have hf := follows_blockBins hok (s := { s with outValid := false }) ha rfl
  rw [decodeBlock_eq] at h
  generalize blockBins cat left top fld inferred { s with outValid := false } = r at hf h
  cases r with
  | ok x w => cases h
  | err e w =>
    cases h
    obtain ⟨t, hstop, htwin, -, hv⟩ := stopsAt_of_follows (i := .rbDecode cat left top fld inferred) hf
      (twin_hideOutputs s) (phaseActive_of_contextBin ha)
    exact .block cat left top fld inferred t _ hstop (raiseError_loseBlock htwin hv)

theorem closing_of_exec {i : Instr} {s t : State} (hx : exec i s = .next t) : Closing s i t := by
  have hdone (v : Word) {u : State} (hu : BinFrame s u) : Closing s i (complete v (setDecoding u)) :=
    .done v _ fun _ => hu.lastErr
  have hsingle (hi : i = .adTerm ∨ i = .adByp ∨ ∃ idx, i = .adBin idx)
      (hstop : exec i s = .next (raiseError (exhausted 0x04) s)) : Closing s i (raiseError (exhausted 0x04) s) := by
    rw [raiseError_eq_abortedWith rfl] at hstop ⊢
    refine .aborted _ _ (.single i hi (stopsAt_self ?_ hstop))
    rcases hi with rfl | rfl | ⟨idx, rfl⟩ <;> rfl
  cases effect_of_exec hx with
  | notAdmitted _ h => exact .refused _ (.notAdmitted h)
  | outOfRange _ h => exact .refused _ (.outOfRange h)
  | rejected _ e _ _ h => exact .refused e (.rejected e h)
  | reset => exact .done _ _ fun h => absurd rfl h
  | adInitAborted => exact .aborted _ _ (Abort.init (s := s))
  | adRealignAborted => exact .aborted _ _ (Abort.realign (s := s))
  | adBin idx b u _ h => exact hdone _ ((binsFrom_regular _ _ (.refl s)).of_ok h).1
  | adBinAborted idx => exact hsingle (.inr (.inr ⟨idx, rfl⟩)) hx
  | adTerm u _ h => exact hdone _ (binFrame_terminal h)
  | adTermAborted => exact hsingle (.inl rfl) hx
  | adByp b u _ h => exact hdone _ ((binsFrom_bypass (.refl s)).of_ok h).1
  | adBypAborted => exact hsingle (.inr (.inl rfl)) hx
  | adBypn n _ v u _ h => exact hdone _ ((bypassBits_binsFrom _ _ s).of_ok h).1
  | adBypnAborted n hn u ha h => exact .aborted _ _ (abort_of_adBypn hn ha h)
  | adBypu n c u _ h => exact hdone _ ((bypassUnary_binsFrom _ _ s).of_ok h).1
  | adBypuAborted max u ha h => exact .aborted _ _ (abort_of_adBypu ha h)
  | rbDecode cat left top fld inferred v u _ hok h =>
    obtain ⟨w, hw, hres⟩ := (decodeBlock_binsFrom hok).of_ok h
    exact .done v u fun _ => hres.lastErr.trans hw.1.lastErr
  | rbDecodeAborted cat left top fld inferred u ha hok h => exact .aborted _ _ (abort_of_rbDecode ha hok h)
  | _ => exact .done _ _ fun _ => rfl

/-- The response of an aborted command (60_exceptions.md R281). -/
theorem Abort.answered {i : Instr} {s t : State} {info : Byte} (h : Abort s i info t) :
    Answered t 1 info 0 ∧ t.lastErr = info ++ 1#8 ∧ t.phase = .failed ∧ (info = 0x03 ∨ info = 0x04 ∨ info = 0x05) := by
  cases h with
  | init => exact ⟨rfl, rfl, rfl, .inl rfl⟩
  | realign => exact ⟨rfl, rfl, rfl, .inr (.inr rfl)⟩
  | single => exact ⟨rfl, rfl, rfl, .inr (.inl rfl)⟩
  | loop => exact ⟨rfl, rfl, rfl, .inr (.inl rfl)⟩
  | block cat left top fld inferred u t hstop ht =>
    rw [ht]
    exact ⟨rfl, rfl, rfl, .inr (.inl rfl)⟩

/-- A command that can be aborted binds no unit and no contexts (10_state.md R21). -/
theorem Abort.not_mem_writtenBy {i : Instr} {s t : State} {info : Byte} (h : Abort s i info t) :
    .binding ∉ writtenBy i ∧ .ctxValid ∉ writtenBy i ∧ .unitCfg ∉ writtenBy i := by
  cases h with
  | init | realign | block => simp [writtenBy]
  | single _ hi => rcases hi with rfl | rfl | ⟨idx, rfl⟩ <;> simp [writtenBy]
  | loop _ _ hi => rcases hi with ⟨n, rfl⟩ | ⟨max, rfl⟩ <;> simp [writtenBy]

theorem Abort.eq_abortedWith {i : Instr} {s t : State} {info : Byte} (h : Abort s i info t)
    (hi : i = .adInit ∨ i = .adRealign ∨ i = .adTerm ∨ i = .adByp ∨ ∃ idx, i = .adBin idx) :
    t = abortedWith info s := by
  cases h with
  | init | realign | single => rfl
  | loop _ _ hloop => rcases hloop with ⟨n, rfl⟩ | ⟨max, rfl⟩ <;> simp at hi
  | block => simp at hi

/-- Where the bins stopped, and what is left there. -/
theorem Abort.stopped {i : Instr} {s t : State} (h : Abort s i 0x04 t) : ∃ u, StopsAt s i u ∧
    (¬ (∃ cat left top fld inf, i = .rbDecode cat left top fld inf) → t = abortedWith 0x04 u) ∧
    ((∃ cat left top fld inf, i = .rbDecode cat left top fld inf) → t = { abortedWith 0x04 u with
      outCbf := t.outCbf, outNLevels := t.outNLevels, outSig := t.outSig, outLevel := t.outLevel,
      outValid := false, draws := t.draws }) := by
  cases h with
  | single _ hi hstop =>
    refine ⟨s, hstop, fun _ => rfl, ?_⟩
    rcases hi with rfl | rfl | ⟨idx, rfl⟩ <;> simp
  | loop _ u hi hstop =>
    refine ⟨u, hstop, fun _ => rfl, ?_⟩
    rcases hi with ⟨n, rfl⟩ | ⟨max, rfl⟩ <;> simp
  | block cat left top fld inferred u t hstop ht =>
    exact ⟨u, hstop, fun hno => absurd ⟨cat, left, top, fld, inferred, rfl⟩ hno, fun _ => ht⟩

/-- The status code and information byte of an error that aborts the unit (60_exceptions.md R273). -/
theorem abortsUnit_of_code {e : CmdError} (hcode : statusCode e.status = 1)
    (hinfo : e.info = 0x03 ∨ e.info = 0x04 ∨ e.info = 0x05) : abortsUnit e = true := by
  have hstatus : e.status = .bufferExhausted := by
    cases hst : e.status <;> simp [hst, statusCode] at hcode ⊢
  rcases hinfo with hinfo | hinfo | hinfo <;> simp [abortsUnit, hstatus, hinfo]

end Sys2Proof.Machine

namespace Sys2Proof.Proofs

open Sys2Proof.Machine Sys2Proof.Claims

/-- Settles O59: the block's bins follow its script, and a run of single bins is a run of their commands. -/
theorem rbDecodeIsASequenceOfBins : Obligations.RbDecodeIsASequenceOfBins := by
  intro s t cat left top fld inf v h hans
  obtain ⟨ha, hok, u, hdec, rfl⟩ := decodeBlock_of_exec h hans
  have hf := follows_blockBins hok (s := { s with outValid := false }) ha rfl
  rw [decodeBlock_eq] at hdec
  generalize blockBins cat left top fld inf { s with outValid := false } = r at hf hdec
  cases r with
  | err e w => cases hdec
  | ok x w =>
    cases hdec
    obtain ⟨bins, cs, g, hlen, hrun, hsays, hC, hD⟩ := hf
    have hC := hC []
    have hD := hD []
    rw [List.append_nil] at hC hD
    rw [List.append_nil] at hC
    have hne : bins ≠ [] := by
      rintro rfl
      rw [blockFrom_nil] at hD
      cases hD
    obtain ⟨u, hu, htwin, -, -, hphase⟩ := runBins_of_binRun hrun (twin_hideOutputs s) (phaseActive_of_contextBin ha)
    have hblock := blockOf_of_blockFrom hD
    have hphase := hphase hne
    rw [← hC] at hu
    rw [htwin] at hu hphase
    refine ⟨bins, _, hlen, hu, ?_⟩
    cases hsays with
    | empty => exact ⟨rfl, rfl, rfl, rfl, hphase, .inl ⟨rfl, hblock⟩⟩
    | @coded sig levels indices hsig hle =>
      refine ⟨rfl, rfl, rfl, rfl, hphase, .inr ⟨indices, _, hblock, rfl, hsig, ?_, fun j l hl => ?_⟩⟩
      · rw [List.length_map]
        exact (BitVec.toNat_ofNat _ _).trans (Nat.mod_eq_of_lt (by omega))
      · rw [List.getElem?_map] at hl
        obtain ⟨word, hword, rfl⟩ := Option.map_eq_some_iff.1 hl
        obtain ⟨hj, rfl⟩ := List.getElem?_eq_some_iff.1 hword
        exact congrArg BitVec.toInt (levelRegisters_lt j hj)

/-- Settles O49: OK keeps the record, a refusal changes it alone, and an abort is that of the bin that fails. -/
theorem errorsChangeOnlyTheRecord : Obligations.ErrorsChangeOnlyTheRecord := by
  intro i s t code info r h hans
  cases closing_of_exec h with
  | done v u hrec =>
    obtain ⟨rfl, -, -⟩ := answered_complete_iff.1 hans
    exact ⟨fun _ => hrec, fun hcode => absurd rfl hcode⟩
  | refused e he =>
    obtain ⟨rfl, rfl, rfl⟩ := answered_raiseError_iff.1 hans
    obtain ⟨hne, hrefused⟩ := raiseError_of_refusal he
    have hkeep := abortsUnit_of_refusal he
    refine ⟨fun hcode => absurd hcode hne, fun _ => ⟨rfl, rfl, fun _ => hrefused, fun ⟨hcode, hinfo⟩ => ?_⟩⟩
    exact absurd (abortsUnit_of_code hcode hinfo) (by simp [hkeep])
  | aborted info' t habort =>
    obtain ⟨hans', hrec, hphase, hinfo⟩ := habort.answered
    obtain ⟨rfl, rfl, rfl⟩ := answered_unique hans hans'
    obtain ⟨hbind, hctx, hcfg⟩ := habort.not_mem_writtenBy
    have heff := effect_of_exec h
    obtain ⟨hmax, hcur⟩ := binding_of_effect hbind heff
    refine ⟨fun hcode => absurd hcode (by decide), fun _ => ⟨rfl, hrec, fun hno => absurd ⟨rfl, hinfo⟩ hno, fun _ =>
      ⟨hphase, hmax, hcur, ctxValid_of_effect hctx heff, unitCfg_of_effect hcfg heff, habort.eq_abortedWith, ?_⟩⟩⟩
    rintro rfl
    obtain ⟨u, ⟨bins, c, hrun, hc, hx⟩, hother, hblock⟩ := habort.stopped
    exact ⟨bins, u, c, hrun, hc, hx, hother, hblock⟩

end Sys2Proof.Proofs
